-- ==== Sys2Proof/Word.lean ====
section
/-! DEFINITION. The 32-bit word of CMD32 and of every window register (00_scope R6 WORD_W, R8). -/

namespace Sys2Proof

/-- WORD_W = 32 (00_scope R6): "each bank is one 32-bit word". -/
abbrev Word := BitVec 32

/-- One byte, used only to say the byte order of R91. -/
abbrev Byte := BitVec 8

end Sys2Proof
end

