-- ==== Sys2Proof/Syntax.lean ====
section
/-! DEFINITION. The commands of HGPIO-CMD v1, one constructor per row of spec/opcode_table.json (30_encoding R126). -/

namespace Sys2Proof

/-- A command with the operands of R121 to R125. A pin ≥ NPINS and the direction 11 are commands too: they decode, and
fault when accepted (30_encoding R122, R124). -/
inductive Instr where
  /-- INIT: initialise the mapped register window (R150). -/
  | init
  /-- SET pin: drive a pin's output latch high (R190). -/
  | set (pin : Nat)
  /-- CLR pin: drive a pin's output latch low (R193). -/
  | clr (pin : Nat)
  /-- GET pin: read a pin's level (R196). -/
  | get (pin : Nat)
  /-- FSEL pin, f: select a pin's function (R200). -/
  | fsel (pin : Nat) (f : BitVec 3)
  /-- PULL pin, d: set a pin's pull resistor; d is off = 00, pull-down = 01, pull-up = 10 (R215). -/
  | pull (pin : Nat) (d : BitVec 2)
  deriving DecidableEq, Repr

end Sys2Proof
end

