-- ==== Sys2Proof/WellFormed.lean ====
section
/-! DEFINITION. Which commands CMD32 can encode (30_encoding R122: PIN is 8 bits wide). -/

namespace Sys2Proof

/-- PIN_FIELD_W = 8 (00_scope R6). -/
def pinFieldWidth : Nat := 8

/-- The pin operand of a command, when it has one. -/
def Instr.pinOperand : Instr → Option Nat
  | .init => none
  | .set pin => some pin
  | .clr pin => some pin
  | .get pin => some pin
  | .fsel pin _ => some pin
  | .pull pin _ => some pin

/-- A command is well formed when its pin fits the 8-bit PIN field (R122). ARG fields carry their width in their type. -/
def WellFormed (i : Instr) : Bool :=
  match i.pinOperand with
  | none => true
  | some pin => decide (pin < 2 ^ pinFieldWidth)

end Sys2Proof
end

