-- ==== Sys2Proof/Decode.lean ====
section
/-! DEFINITION. Decoding and encoding of CMD32 (30_encoding R120 to R130; checks 1 and 2 of 60_exceptions R245). -/

namespace Sys2Proof

/-- Why a word is no command: the two encodings of R129 that are no row of R126. -/
inductive DecodeError where
  /-- OP is 0x0 or 0x7 … 0xF (R127). -/
  | badOpcode
  /-- A must-be-zero field is nonzero (R128). -/
  | badEncoding
  deriving DecidableEq, Repr

/-- OP, bits 3:0 (R121). -/
def opField (w : Word) : BitVec 4 := w.extractLsb' 0 4

/-- RSV0, bits 7:4 (R121). -/
def rsv0Field (w : Word) : BitVec 4 := w.extractLsb' 4 4

/-- PIN, bits 15:8 (R121). -/
def pinField (w : Word) : BitVec 8 := w.extractLsb' 8 8

/-- ARG, bits 18:16 (R121). -/
def argField (w : Word) : BitVec 3 := w.extractLsb' 16 3

/-- RSV1, bits 31:19 (R121). -/
def rsv1Field (w : Word) : BitVec 13 := w.extractLsb' 19 13

/-- Both reserved fields are 0 (R121, R128). -/
def reservedZero (w : Word) : Bool := rsv1Field w == 0 && rsv0Field w == 0

/-- The command when the must-be-zero fields are zero, BAD_ENCODING otherwise (R128). -/
def checked (fieldsOk : Bool) (i : Instr) : Except DecodeError Instr :=
  if fieldsOk then .ok i else .error .badEncoding

/-- Decoding of a word, total (R129), from the word alone (R130). The order is R245's: the opcode, then the
must-be-zero fields. -/
def decode (w : Word) : Except DecodeError Instr :=
  match (opField w).toNat with
  | 1 => checked (reservedZero w && pinField w == 0 && argField w == 0) .init
  | 2 => checked (reservedZero w && argField w == 0) (.set (pinField w).toNat)
  | 3 => checked (reservedZero w && argField w == 0) (.clr (pinField w).toNat)
  | 4 => checked (reservedZero w && argField w == 0) (.get (pinField w).toNat)
  | 5 => checked (reservedZero w) (.fsel (pinField w).toNat (argField w))
  | 6 => checked (reservedZero w && !(argField w).getLsbD 2) (.pull (pinField w).toNat ((argField w).extractLsb' 0 2))
  | _ => .error .badOpcode

/-- A CMD32 word from its three variable fields, the reserved fields 0 (R121). -/
def packCommand (op : BitVec 4) (pin : Nat) (arg : BitVec 3) : Word :=
  0#13 ++ arg ++ BitVec.ofNat 8 pin ++ 0#4 ++ op

/-- The word of a command (R126). -/
def encode : Instr → Word
  | .init => packCommand 0x1#4 0 0#3
  | .set pin => packCommand 0x2#4 pin 0#3
  | .clr pin => packCommand 0x3#4 pin 0#3
  | .get pin => packCommand 0x4#4 pin 0#3
  | .fsel pin f => packCommand 0x5#4 pin f
  | .pull pin d => packCommand 0x6#4 pin (0#1 ++ d)

/-- The match and mask of a command's row in R126's table of bit patterns. -/
def rowOf : Instr → Word × Word
  | .init => (0x00000001#32, 0xFFFFFFFF#32)
  | .set _ => (0x00000002#32, 0xFFFF00FF#32)
  | .clr _ => (0x00000003#32, 0xFFFF00FF#32)
  | .get _ => (0x00000004#32, 0xFFFF00FF#32)
  | .fsel _ _ => (0x00000005#32, 0xFFF800FF#32)
  | .pull _ _ => (0x00000006#32, 0xFFFC00FF#32)

/-- The command the decoder reads from an instruction whose low `nbits` bits are `w` (the rest 0). A command is one
32-bit word (R120), so more than 32 bits are no command. -/
def decodeTableWord (nbits w : Nat) : Option Instr :=
  if nbits ≤ 32 then
    match decode (BitVec.ofNat 32 (w % 2 ^ nbits)) with
    | .ok i => some i
    | .error _ => none
  else none

end Sys2Proof
end

