-- ==== Sys2Proof/Config.lean ====
section
/-! DEFINITION. The parameters of 00_scope R6 and the free values (R10: a value chosen by a draw).
Every opaque constant here has no body: nothing can evaluate it, and a statement about it holds whatever it is. -/

namespace Sys2Proof

/-- A pull direction, and what a pull cell holds: one of {none, down, up} (10_state R44, 43_pull R216). -/
inductive Pull where
  | none
  | down
  | up
  deriving DecidableEq, Repr, Inhabited

/-- The parameters of 00_scope R6 that a model takes. T_HW_MIN and T_SETTLE are held as `hwMinPred` and `settleSlack`
(`Config.tHwMin`, `Config.tSettle`), so that T_SETTLE ≥ T_HW_MIN ≥ 1 (R7) holds of every value of this type. -/
structure Config where
  /-- NPINS: valid pins are 0 … NPINS-1. -/
  npins : Nat
  /-- PERIPH_BASE: physical base address of the GPIO register block. -/
  periphBase : Nat
  /-- BLOCK_SIZE: length in bytes of the mapped window. -/
  blockSize : Nat
  /-- PAGE_SIZE: alignment the window base must have. -/
  pageSize : Nat
  /-- ADDR_W: width of the window bus address. -/
  addrW : Nat
  /-- FSEL_OUTPUT_CODE: the function code that makes a pin an output. -/
  fselOutput : BitVec 3
  /-- T_HW_MIN - 1. -/
  hwMinPred : Nat
  /-- T_SETTLE - T_HW_MIN. -/
  settleSlack : Nat
  /-- OTHER_MASTERS: whether agents other than this controller access the window. -/
  otherMasters : Bool
  deriving DecidableEq, Repr

/-- T_HW_MIN, the peripheral's minimum settling time in ticks, at least 1 (R6, R7). -/
def Config.tHwMin (c : Config) : Nat := c.hwMinPred + 1

/-- T_SETTLE, the settling delay the sequencer waits, in ticks, at least T_HW_MIN (R6, R7). -/
def Config.tSettle (c : Config) : Nat := c.tHwMin + c.settleSlack

/-- NFSEL = ceil(NPINS / 10) (R6). -/
def Config.nfsel (c : Config) : Nat := (c.npins + 9) / 10

/-- NBANK = ceil(NPINS / 32) (R6). -/
def Config.nbank (c : Config) : Nat := (c.npins + 31) / 32

/-- Free value (log 2): T_HW_MIN - 1 of the default configuration; R6 leaves T_HW_MIN OPEN. -/
opaque Config.openHwMinPred : Nat

/-- Free value (log 2): T_SETTLE - T_HW_MIN of the default configuration; R6 leaves T_SETTLE OPEN. -/
opaque Config.openSettleSlack : Nat

/-- Free value (log 3): OTHER_MASTERS of the default configuration; R6 leaves it OPEN. -/
opaque Config.openOtherMasters : Bool

/-- The default values of R6 (log 1). -/
def Config.default : Config where
  npins := 54
  periphBase := 0x20200000
  blockSize := 4096
  pageSize := 4096
  addrW := 32
  fselOutput := 0b001#3
  hwMinPred := Config.openHwMinPred
  settleSlack := Config.openSettleSlack
  otherMasters := Config.openOtherMasters

/-- Free value (log 4): the platform's answer map_ok, "a draw taken once per Map step" (40_window_init R151). -/
opaque Config.mapOk (draw : Nat) : Bool

/-- Free value (log 5): ENV(p, t), the level of a pin that is not an output, "a fresh draw at every read" (20_memory R80). -/
opaque Config.env (draw pin : Nat) : Bool

/-- Free value (log 6): a bit of a read word that no rule fixes: a reserved bit, or any bit of a set or clear bank
(20_memory R88, R89). -/
opaque Config.freeBit (draw i : Nat) : Bool

/-- Free value (log 7): what PCELL[p] holds when a rule makes it unknown (20_memory R84, R85; 00_scope R10). -/
opaque Config.freePull (draw pin : Nat) : Pull

end Sys2Proof
end

