-- ==== Sys2Proof/Machine/State.lean ====
section
/-! DEFINITION. The machine's state as plain data (10_state R20 to R53), its fault and refusal reasons, and the state
after reset. -/

namespace Sys2Proof.Machine

/-- FAULT_CODE, the six values ever produced (60_exceptions R240). -/
inductive FaultCode where
  /-- 0: no fault recorded. -/
  | none
  /-- 1: the platform refused the one mapping. -/
  | mapFail
  /-- 2: OP is 0x0 or 0x7 … 0xF. -/
  | badOpcode
  /-- 3: a must-be-zero field is nonzero. -/
  | badEncoding
  /-- 4: PULL with d = 11. -/
  | badPullDir
  /-- 5: PIN ≥ NPINS. -/
  | pinRange
  deriving DecidableEq, Repr

/-- The pull sequencer's states (10_state R39): 00 Idle, 01 Loaded, 10 Clocked; 11 is never read. -/
inductive Seq where
  | idle
  | loaded
  | clocked
  deriving DecidableEq, Repr

/-- STATUS, by field (10_state R23). Bits 31:13 are reserved, read as 0 and are not stored; the word the host reads is
`statusWord` (Machine/Flags.lean). SEQ lives here once (R39: "mirrored in STATUS.SEQ"). -/
structure Status where
  mapped : Bool
  busy : Bool
  fatal : Bool
  fault : Bool
  resultValid : Bool
  level : Bool
  seq : Seq
  faultCode : FaultCode
  rejected : Bool
  deriving DecidableEq, Repr

/-- CUR.op (10_state R26). -/
inductive Op where
  | init
  | set
  | clr
  | get
  | fsel
  | pull
  deriving DecidableEq, Repr

/-- CUR, the controller's copy of the accepted command's fields (10_state R26). -/
structure Cur where
  op : Op
  pin : Nat
  arg : BitVec 3
  deriving DecidableEq, Repr

/-- A register of the window (20_memory R74): a bank of a group, or the single pull-control register. -/
inductive Reg where
  | fsel (b : Nat)
  | set (b : Nat)
  | clr (b : Nat)
  | lev (b : Nat)
  | pud
  | pudclk (b : Nat)
  deriving DecidableEq, Repr

/-- The value of a MemWrite: a word fixed at acceptance, or FSEL's merge of CUR.arg into TMP at a bit position, computed
in the tick of the write (10_state R32, 42_pin_ops R200). -/
inductive WriteValue where
  | imm (v : Word)
  | mergeTmp (shift : Nat)
  deriving DecidableEq, Repr

/-- A micro-operation (10_state R27). An address is a bank-table entry, named by its register and looked up in the tick
of the transaction (41_decoder R172; log 17). `seq` is the sequencer state that a PULL step enters (43_pull R217; log 28). -/
inductive MicroOp where
  /-- Map: the one mapping request (40_window_init R151). -/
  | map
  /-- MemRead(a, 4) into TMP. -/
  | memRead (r : Reg)
  /-- MemWrite(a, 4, v). -/
  | memWrite (r : Reg) (v : WriteValue) (seq : Option Seq)
  /-- Wait(n): n ticks with no transaction. -/
  | wait (n : Nat)
  deriving DecidableEq, Repr

/-- The Register Bank Tables and PUD_ADDR (10_state R36). -/
structure Tables where
  fselAddr : List Nat
  setAddr : List Nat
  clrAddr : List Nat
  levAddr : List Nat
  pudclkAddr : List Nat
  pudAddr : Nat
  deriving DecidableEq, Repr

/-- The controller's registers (10_state R21): all of them, and nothing else, are in its reset domain (R50, R51). -/
structure Controller where
  cmd : Word
  status : Status
  cur : Cur
  prog : List MicroOp
  uidx : Nat
  tmp : Word
  waitcnt : Nat
  wbase : Nat
  tables : Tables
  deriving DecidableEq, Repr

/-- STROBE[p], the record of the current strobe (10_state R45). -/
structure Strobe where
  tStart : Nat
  code : BitVec 2
  settled : Bool
  held : Bool
  late : Nat
  lateT : Option Nat
  deriving DecidableEq, Repr

/-- The peripheral's state of one pin: FUNC[p], LATCH[p], CLK[p], PCELL[p], STROBE[p] (10_state R40 to R45). -/
structure Pin where
  func : BitVec 3
  latch : Bool
  clk : Bool
  pcell : Pull
  strobe : Option Strobe
  deriving DecidableEq, Repr

/-- The GPIO peripheral (10_state R47): pin p is entry p of `pins`; PUDCODE; PUD_T, the tick of the last write to the
pull-control register, `none` for minus infinity. Reserved bits hold nothing (20_memory R89). -/
structure Periph where
  pins : List Pin
  pudcode : BitVec 2
  pudT : Option Nat
  deriving DecidableEq, Repr

/-- Who performed a window transaction (10_state R46). -/
inductive Agent where
  | controller
  | other (id : Nat)
  deriving DecidableEq, Repr

/-- Read or write (10_state R46). -/
inductive Kind where
  | read
  | write
  deriving DecidableEq, Repr

/-- An entry of TRACE: (agent, tick, kind, address, value) (10_state R46). -/
structure TraceEntry where
  agent : Agent
  tick : Nat
  kind : Kind
  addr : Nat
  value : Word
  deriving DecidableEq, Repr

/-- A window transaction an other master will perform (20_memory R101): `none` reads, `some v` writes v. -/
structure Access where
  id : Nat
  addr : Nat
  value : Option Word
  deriving DecidableEq, Repr

/-- A write by a host on the command port (10_state R22, R23). -/
inductive HostWrite where
  | cmd (w : Word)
  | status (w : Word)
  deriving DecidableEq, Repr

/-- What the outside does in one tick (log 12): other masters' transactions before and after the controller's own action
(20_memory R101), host writes that arrive at the port, and the reset input (70_reset R270). -/
structure TickInput where
  before : List Access
  host : List HostWrite
  reset : Bool
  after : List Access
  deriving DecidableEq, Repr

/-- A tick in which nothing outside acts. -/
def TickInput.quiet : TickInput := ⟨[], [], false, []⟩

/-- The whole machine: the configuration (log 1), the controller, the peripheral, the platform's grant (10_state R48; `none`:
not requested), the words held at the command port (10_state R31), the schedule of the outside (an empty schedule is
quiet), the number of the coming tick, the free-value counter (log 8), TRACE, oldest first (10_state R46), and the stale pins: those
whose PULL a reset interrupted and whose strobe has been asserted ever since (70_reset R284, 93 U11; log 35). -/
structure State where
  cfg : Config
  ctl : Controller
  periph : Periph
  grant : Option Bool
  port : List Word
  schedule : List TickInput
  tick : Nat
  draws : Nat
  trace : List TraceEntry
  stale : List Nat
  deriving DecidableEq, Repr

/-- Why the machine stops with a fault. The spec's own faults are no stops: they are STATUS bits of a next state
(60_exceptions R246). These two guard states that no run from a launch state reaches (log 16): both are safe. -/
inductive Fault where
  /-- Raised by `microStep` when BUSY = 1 and PROG[uidx] does not exist (10_state R27 says it does). Safe. -/
  | noMicroOp
  /-- Raised by a controller transaction whose bank-table entry does not exist or is no register's address
  (41_decoder R172, R173 say it is one). Safe. -/
  | noRegister
  deriving DecidableEq, Repr

/-- Why the model refuses a step. -/
inductive Refusal where
  /-- Raised by an arm of `exec` whose instruction has no meaning yet; no arm is one now. Safe. -/
  | notModelled (mnemonic : String)
  /-- Raised by `step` and by every meaning: "A model refuses an ill-formed configuration" (00_scope R7). Safe. -/
  | illFormedConfig
  /-- Raised by a scheduled access of an other master when OTHER_MASTERS is false (20_memory R101). Safe. -/
  | otherMasterAbsent
  /-- Raised by an other master's access at an address that is no multiple of 4: "not modelled (refused)" (20_memory R92). Safe. -/
  | otherMasterMisaligned
  /-- Raised by an other master's access to an offset that R74 does not list: "a model refuses" it (20_memory R75). Safe. -/
  | otherMasterReserved
  deriving DecidableEq, Repr

/-- STATUS after reset, 0x00000000 (10_state R50). -/
def Status.reset : Status where
  mapped := false
  busy := false
  fatal := false
  fault := false
  resultValid := false
  level := false
  seq := .idle
  faultCode := .none
  rejected := false

/-- The bank tables after reset: unknown in R50, every entry 0 in the model (log 9). -/
def Tables.reset (c : Config) : Tables where
  fselAddr := List.replicate c.nfsel 0
  setAddr := List.replicate c.nbank 0
  clrAddr := List.replicate c.nbank 0
  levAddr := List.replicate c.nbank 0
  pudclkAddr := List.replicate c.nbank 0
  pudAddr := 0

/-- The controller after reset (10_state R50). CUR, TMP, WBASE and the tables are unknown there; the model's values are
log 9's. -/
def Controller.reset (c : Config) : Controller where
  cmd := 0
  status := Status.reset
  cur := ⟨.init, 0, 0⟩
  prog := []
  uidx := 0
  tmp := 0
  waitcnt := 0
  wbase := 0
  tables := Tables.reset c

/-- A pin at power-on (10_state R52): input, no strobe. LATCH and PCELL are unknown there; the model's values are log 10's. -/
def Pin.powerOn : Pin where
  func := 0
  latch := false
  clk := false
  pcell := .none
  strobe := none

/-- The peripheral at power-on (10_state R52). -/
def Periph.powerOn (c : Config) : Periph where
  pins := List.replicate c.npins Pin.powerOn
  pudcode := 0
  pudT := none

/-- The machine right after reset of the controller, with the peripheral in a given launch state: "A model should take
the peripheral's launch state as a parameter" (10_state R52). -/
def State.launch (c : Config) (p : Periph) : State where
  cfg := c
  ctl := Controller.reset c
  periph := p
  grant := none
  port := []
  schedule := []
  tick := 0
  draws := 0
  trace := []
  stale := []

/-- The machine right after reset: the default configuration (00_scope R6) and the power-on peripheral (10_state R50, R52, R53). -/
def State.reset : State := State.launch Config.default (Periph.powerOn Config.default)

end Sys2Proof.Machine
end

