-- ==== Sys2Proof/Machine/Flags.lean ====
section
/-! DEFINITION. STATUS: the word the host reads and every update a rule makes to its fields (10_state R23). -/

namespace Sys2Proof.Machine

/-- FAULT_CODE's number (60_exceptions R240). -/
def faultCodeNat : FaultCode → Nat
  | .none => 0
  | .mapFail => 1
  | .badOpcode => 2
  | .badEncoding => 3
  | .badPullDir => 4
  | .pinRange => 5

/-- SEQ's number (10_state R23). -/
def seqNat : Seq → Nat
  | .idle => 0
  | .loaded => 1
  | .clocked => 2

/-- STATUS as the host reads it; bits 31:13 are 0 (10_state R23). -/
def statusWord (st : Status) : Word :=
  BitVec.ofNat 32 (st.mapped.toNat + 2 * st.busy.toNat + 4 * st.fatal.toNat + 8 * st.fault.toNat
    + 16 * st.resultValid.toNat + 32 * st.level.toNat + 64 * seqNat st.seq + 256 * faultCodeNat st.faultCode
    + 4096 * st.rejected.toNat)

/-- Acceptance clears RESULT_VALID, whatever happens to the command (10_state R31). -/
def clearResult (st : Status) : Status := { st with resultValid := false }

/-- BUSY (10_state R31, R33). -/
def setBusy (b : Bool) (st : Status) : Status := { st with busy := b }

/-- Fault entry for a contract violation (60_exceptions R246). -/
def recordFault (c : FaultCode) (st : Status) : Status := { st with fault := true, faultCode := c, busy := false }

/-- Rejection (60_exceptions R248). -/
def recordReject (st : Status) : Status := { st with rejected := true }

/-- Map success (40_window_init R152). -/
def recordMapped (st : Status) : Status := { st with mapped := true }

/-- Map failure (40_window_init R153). -/
def recordMapFail (st : Status) : Status := { st with fatal := true, faultCode := .mapFail, busy := false }

/-- The GET result (42_pin_ops R197). -/
def recordLevel (b : Bool) (st : Status) : Status := { st with level := b, resultValid := true }

/-- SEQ enters the state of a PULL step, if the micro-operation is one (43_pull R217). -/
def enterSeq (q : Option Seq) (st : Status) : Status := { st with seq := q.getD st.seq }

/-- What the host reads from CMD (10_state R22). -/
def hostReadCmd (s : State) : Word := s.ctl.cmd

/-- What the host reads from STATUS (10_state R23). -/
def hostReadStatus (s : State) : Word := statusWord s.ctl.status

end Sys2Proof.Machine
end

