-- ==== Sys2Proof/Machine/Operands.lean ====
section
/-! DEFINITION. Operand forms: the register decoder (41_decoder), the operand checks of a command (60_exceptions R245,
checks 3 and 4), the value of a MemWrite, and the bit helpers they use. -/

namespace Sys2Proof.Machine

/-- The n-bit word whose bit i is `f i` (00_scope R8). -/
def ofBits : (n : Nat) → (Nat → Bool) → BitVec n
  | 0, _ => 0#0
  | n + 1, f => BitVec.cons (f n) (ofBits n f)

/-- Byte j of a register's word: "byte WBASE + off + j of a register holds bits [8j+7 : 8j]" (20_memory R91). No rule
depends on it (log 26). -/
def registerByte (w : Word) (j : Nat) : Byte := w.extractLsb' (8 * j) 8

/-- A register group the decoder serves (41_decoder R165). PUD is not decoded (R169). -/
inductive Group where
  | set
  | clr
  | lev
  | fsel
  | pudclk
  deriving DecidableEq, Repr

/-- The register decoder: (bank, pos) of a pin in a group (41_decoder R166, R167, R168). -/
def decodePin (pin : Nat) : Group → Nat × Nat
  | .set | .clr | .lev => (pin / 32, pin % 32)
  | .fsel => (pin / 10, (pin % 10) * 3)
  | .pudclk => (pin / 32, pin % 32)

/-- The register of a bank of a group. -/
def groupReg (b : Nat) : Group → Reg
  | .set => .set b
  | .clr => .clr b
  | .lev => .lev b
  | .fsel => .fsel b
  | .pudclk => .pudclk b

/-- bitmask(pin) = 1 << (pin % 32) (41_decoder R170). -/
def bitmask (pin : Nat) : Word := 1#32 <<< (pin % 32)

/-- fieldmask(pin) = 7 << ((pin % 10) * 3) (41_decoder R170). -/
def fieldmask (pin : Nat) : Word := 7#32 <<< ((pin % 10) * 3)

/-- FSEL's combined value, (old & ~(7 << s)) | (zext_32(f) << s) (42_pin_ops R200, 90_conflicts C3). -/
def mergeField (old : Word) (f : BitVec 3) (s : Nat) : Word :=
  (old &&& ~~~(7#32 <<< s)) ||| (f.setWidth 32 <<< s)

/-- The value of a MemWrite in the tick it is issued, from TMP as it stands then (10_state R32). -/
def writeValue (ctl : Controller) : WriteValue → Word
  | .imm v => v
  | .mergeTmp s => mergeField ctl.tmp ctl.cur.arg s

/-- Check 4 of R245: PIN ≥ NPINS faults PIN_RANGE (60_exceptions R245, 41_decoder R171). -/
def pinCheck (c : Config) (pin : Nat) : Option FaultCode :=
  if pin < c.npins then none else some .pinRange

/-- Checks 3 and 4 of R245 for PULL: the direction 11 before the pin (60_exceptions R245). -/
def pullCheck (c : Config) (pin : Nat) (d : BitVec 2) : Option FaultCode :=
  if d = 3#2 then some .badPullDir else pinCheck c pin

/-- The cell value of a direction code (43_pull R216, 20_memory R85). Code 11 has none (R87). -/
def pullOfCode (code : BitVec 2) : Option Pull :=
  if code = 0#2 then some .none
  else if code = 1#2 then some .down
  else if code = 2#2 then some .up
  else none

end Sys2Proof.Machine
end

