-- ==== Sys2Proof/Machine/RegMap.lean ====
section
/-! DEFINITION. REGMAP (20_memory R74), the addresses of the window and when a configuration is well formed (00_scope R7). -/

namespace Sys2Proof.Machine

/-- REGMAP: a register's byte offset from the window base (20_memory R74). -/
def regOffset : Reg → Nat
  | .fsel b => 0x00 + 4 * b
  | .set b => 0x1C + 4 * b
  | .clr b => 0x28 + 4 * b
  | .lev b => 0x34 + 4 * b
  | .pud => 0x94
  | .pudclk b => 0x98 + 4 * b

/-- The registers a configuration has: NFSEL function-select banks, NBANK banks of the other groups, and PUD (20_memory R74). -/
def allRegs (c : Config) : List Reg :=
  (List.range c.nfsel).map .fsel ++ (List.range c.nbank).map .set ++ (List.range c.nbank).map .clr
    ++ (List.range c.nbank).map .lev ++ [.pud] ++ (List.range c.nbank).map .pudclk

/-- The physical address at which the peripheral answers for a register (20_memory R73, R74, R95). -/
def physAddr (c : Config) (r : Reg) : Nat := c.periphBase + regOffset r

/-- The register at a window address, if one is there; every other address is reserved (20_memory R75). -/
def regAt (c : Config) (a : Nat) : Option Reg := (allRegs c).find? (fun r => physAddr c r == a)

/-- A configuration is well formed (00_scope R7). R74 has rows for NPINS ≤ 54; PERIPH_BASE, which
becomes WBASE, is a multiple of 4 because R92 says that WBASE is one in a well-formed configuration (log 15). T_SETTLE ≥ T_HW_MIN ≥ 1, NFSEL = ceil(NPINS/10) and NBANK = ceil(NPINS/32) hold by construction. -/
def configOk (c : Config) : Bool :=
  decide (1 ≤ c.npins) && decide (c.npins ≤ 54) && decide (c.npins ≤ 2 ^ pinFieldWidth)
    && (allRegs c).all (fun r => regOffset r % 4 == 0 && decide (regOffset r + 4 ≤ c.blockSize))
    && decide ((allRegs c).map (physAddr c)).Nodup
    && c.periphBase % c.pageSize == 0 && c.periphBase % 4 == 0
    && decide (c.periphBase + c.blockSize ≤ 2 ^ c.addrW)

/-- An address addition, in ADDR_W bits (40_window_init R152, 41_decoder R174). -/
def addrAdd (c : Config) (base off : Nat) : Nat := (base + off) % 2 ^ c.addrW

/-- The bank tables a successful Map writes (40_window_init R152). -/
def mapTables (c : Config) (base : Nat) : Tables where
  fselAddr := (List.range c.nfsel).map (fun b => addrAdd c base (regOffset (.fsel b)))
  setAddr := (List.range c.nbank).map (fun b => addrAdd c base (regOffset (.set b)))
  clrAddr := (List.range c.nbank).map (fun b => addrAdd c base (regOffset (.clr b)))
  levAddr := (List.range c.nbank).map (fun b => addrAdd c base (regOffset (.lev b)))
  pudclkAddr := (List.range c.nbank).map (fun b => addrAdd c base (regOffset (.pudclk b)))
  pudAddr := addrAdd c base (regOffset .pud)

/-- The controller's address of a register: its bank-table entry (41_decoder R172). -/
def tableAddr (t : Tables) : Reg → Option Nat
  | .fsel b => t.fselAddr[b]?
  | .set b => t.setAddr[b]?
  | .clr b => t.clrAddr[b]?
  | .lev b => t.levAddr[b]?
  | .pud => some t.pudAddr
  | .pudclk b => t.pudclkAddr[b]?

end Sys2Proof.Machine
end

