-- ==== Sys2Proof/Machine/Window.lean ====
section
/-! DEFINITION. The GPIO peripheral's registers: what a read returns and what a write does (20_memory R76 to R89). -/

namespace Sys2Proof.Machine

/-- level(p, t): the latch of an output pin, a fresh draw for any other pin (20_memory R80, 90_conflicts C4). -/
def pinLevel (c : Config) (draw p : Nat) (pin : Pin) : Bool :=
  if pin.func = c.fselOutput then pin.latch else Config.env draw p

/-- Bit i of a read of a register (20_memory R76, R79, R82, R86, R88). A bit that no rule fixes, a pin ≥ NPINS among
them, is a fresh draw (R89). -/
def readBit (c : Config) (draw : Nat) (per : Periph) (r : Reg) (i : Nat) : Bool :=
  match r with
  | .fsel b =>
    if i < 30 then
      match per.pins[10 * b + i / 3]? with
      | some pin => pin.func.getLsbD (i % 3)
      | none => Config.freeBit draw i
    else Config.freeBit draw i
  | .lev b =>
    match per.pins[32 * b + i]? with
    | some pin => pinLevel c draw (32 * b + i) pin
    | none => Config.freeBit draw i
  | .pudclk b =>
    match per.pins[32 * b + i]? with
    | some pin => pin.clk
    | none => Config.freeBit draw i
  | .pud => if i < 2 then per.pudcode.getLsbD i else Config.freeBit draw i
  | .set _ => Config.freeBit draw i
  | .clr _ => Config.freeBit draw i

/-- The word a read of a register returns. No read has a side effect on the peripheral (20_memory R94). -/
def readReg (c : Config) (draw : Nat) (per : Periph) (r : Reg) : Word := ofBits 32 (readBit c draw per r)

/-- CLK[p] = 1: the strobe of p is asserted (10_state R43, R45). -/
def strobeAsserted (per : Periph) (p : Nat) : Bool := (per.pins[p]?).any Pin.clk

/-- What one write transaction knows beside its value: its tick, its draw, the tick of the transaction immediately before it in
TRACE when that is a write to PUD (20_memory R85), and the pins whose cell ends unknown if it ends their strobe, whatever R85's
formula gives (`openPins`, Machine/Ops.lean). -/
structure WriteCtx where
  tick : Nat
  draw : Nat
  lastPud : Option Nat
  openPins : List Nat
  deriving DecidableEq, Repr

/-- Whether a strobe that ends at tick t latched its code (20_memory R85, `ok`, with R87 for the code 11). -/
def strobeOk (x : WriteCtx) (s : Strobe) : Bool :=
  s.settled && s.held && (s.code != 3#2)
    && (s.late == 0
        || (s.late == 1
            && match s.lateT with
               | some t' => x.tick == t' + 1 && x.lastPud == some t'
               | none => false))

/-- The cell after a strobe ends: its code's direction if the strobe was ok, unknown otherwise (20_memory R85). DESIGN CHOICE
(logs 32, 35): the cell of an open pin is unknown also where R85's formula gives the code, which other rules contradict. It is then
free, which includes the code: safe. -/
def cellAfter (x : WriteCtx) (p : Nat) (strobe : Option Strobe) : Pull :=
  match strobe with
  | some s =>
    if strobeOk x s && !x.openPins.contains p then (pullOfCode s.code).getD (Config.freePull x.draw p)
    else Config.freePull x.draw p
  | none => Config.freePull x.draw p

/-- A strobe as it starts (20_memory R84); settled is t - PUD_T - 1 ≥ T_HW_MIN. -/
def newStrobe (c : Config) (x : WriteCtx) (per : Periph) : Strobe where
  tStart := x.tick
  code := per.pudcode
  settled := match per.pudT with
    | none => true
    | some t => decide (t + 1 + c.tHwMin ≤ x.tick)
  held := true
  late := 0
  lateT := none

/-- A write of a pull-clock bit: 0 to 1 starts the strobe, 1 to 0 ends it, otherwise nothing (20_memory R83, R84, R85). -/
def writeClk (c : Config) (x : WriteCtx) (per : Periph) (p : Nat) (pin : Pin) (bit : Bool) : Pin :=
  match pin.clk, bit with
  | false, true =>
    { pin with clk := true, strobe := some (newStrobe c x per), pcell := Config.freePull x.draw p }
  | true, false => { pin with clk := false, strobe := none, pcell := cellAfter x p pin.strobe }
  | _, _ => pin

/-- A write to PUD as an active strobe sees it: in its first T_HW_MIN ticks it is no longer held, later it counts as a
late write (20_memory R84). DESIGN CHOICE (log 34): a PUD write in tick t_start itself, after the strobe's start, clears `held`, as
R84's t' ≤ t_start + T_HW_MIN has it, though 10_state R45 counts from tick t_start+1. Safe: the cell ends free. -/
def strobeSeesPud (c : Config) (t : Nat) (s : Strobe) : Strobe :=
  if t ≤ s.tStart + c.tHwMin then { s with held := false } else { s with late := s.late + 1, lateT := some t }

/-- What a write of v to a register does to pin p: R76, R77, R78, R82 with R84, R83; a level bank: nothing (R81). -/
def writePin (c : Config) (x : WriteCtx) (r : Reg) (v : Word) (per : Periph) (p : Nat) (pin : Pin) : Pin :=
  match r with
  | .fsel b => if p / 10 = b then { pin with func := v.extractLsb' ((p % 10) * 3) 3 } else pin
  | .set b => if p / 32 = b ∧ v.getLsbD (p % 32) = true then { pin with latch := true } else pin
  | .clr b => if p / 32 = b ∧ v.getLsbD (p % 32) = true then { pin with latch := false } else pin
  | .lev _ => pin
  | .pud => if pin.clk then { pin with strobe := pin.strobe.map (strobeSeesPud c x.tick) } else pin
  | .pudclk b => if p / 32 = b then writeClk c x per p pin (v.getLsbD (p % 32)) else pin

/-- A write of v to a register (20_memory R76 to R83). Bits of pins ≥ NPINS are ignored (R89): there is no such pin. -/
def writeReg (c : Config) (x : WriteCtx) (r : Reg) (v : Word) (per : Periph) : Periph where
  pins := per.pins.mapIdx (writePin c x r v per)
  pudcode := if r = .pud then v.extractLsb' 0 2 else per.pudcode
  pudT := if r = .pud then some x.tick else per.pudT

/-- The tick of the last transaction in TRACE when it is a write to PUD (20_memory R85, "the transaction immediately
before this write in TRACE"). -/
def lastPudWrite (c : Config) (trace : List TraceEntry) : Option Nat :=
  match trace.getLast? with
  | some e => if e.kind = .write ∧ e.addr = physAddr c .pud then some e.tick else none
  | none => none

end Sys2Proof.Machine
end

