-- ==== Sys2Proof/Machine/Ops.lean ====
section
/-! DEFINITION. The named operations of the machine: fault entry, rejection and reset (60_exceptions, 70_reset),
acceptance of a command (10_state R31), window transactions, and the micro-step (R32). -/

namespace Sys2Proof.Machine

/-- An outcome of a step or of a part of one. -/
abbrev Result := Host.Outcome State Fault Refusal

/-- Go on from a next state; a fault or a refusal stays. -/
def andThen (o : Result) (f : State → Result) : Result :=
  match o with
  | .next s => f s
  | .fault e => .fault e
  | .refused e => .refused e

/-- Update STATUS. -/
def onStatus (f : Status → Status) (s : State) : State := { s with ctl := { s.ctl with status := f s.ctl.status } }

/-! ## Taking a fault, rejection, and the way back -/

/-- Fault entry for a contract violation, the block's one exception mechanism: no vector, no saved state, no change of
mode; FAULT, FAULT_CODE and BUSY, nothing else (60_exceptions R246). -/
def faultEntry (c : FaultCode) (s : State) : State := onStatus (recordFault c) s

/-- Rejection of a command after a fault (60_exceptions R248). -/
def rejectEntry (s : State) : State := onStatus recordReject s

/-- The stale pins after a reset: a PULL that it interrupts while the strobe of its pin is asserted adds that pin (70_reset R284,
93 U11; log 35). -/
def staleAfterReset (s : State) : List Nat :=
  if s.ctl.status.seq ≠ .idle ∧ strobeAsserted s.periph s.ctl.cur.pin = true then s.stale.insert s.ctl.cur.pin else s.stale

/-- Controller reset, the only way back from a fault (60_exceptions R249, 70_reset R270): every controller register takes
its reset value, the mapping is not requested (10_state R53), and the peripheral, the tick and TRACE stay (R51). -/
def controllerReset (s : State) : State :=
  { s with ctl := Controller.reset s.cfg, grant := none, stale := staleAfterReset s }

/-! ## Acceptance (10_state R31) -/

/-- CMD <- w and RESULT_VALID <- 0, whatever happens to the command afterwards (10_state R22, R31). -/
def latchCommand (w : Word) (s : State) : State :=
  { s with ctl := { s.ctl with cmd := w, status := clearResult s.ctl.status } }

/-- The Map prefix of a command accepted while MAPPED = 0 (10_state R30, 40_window_init R154). -/
def mapFirst (s : State) : List MicroOp := if s.ctl.status.mapped then [] else [.map]

/-- The accepted command starts: CUR, PROG, uidx, WAITCNT; an empty PROG completes in this tick and BUSY stays 0
(10_state R31, R33). -/
def startCommand (cur : Cur) (body : List MicroOp) (s : State) : State :=
  let prog := mapFirst s ++ body
  { s with ctl := { s.ctl with
      cur := cur
      prog := prog
      uidx := 0
      waitcnt := 0
      status := setBusy (!prog.isEmpty) s.ctl.status } }

/-- Acceptance of the word w (10_state R31). While BUSY = 1 the port is not ready and the write has no effect. With FATAL
or FAULT the command is rejected unchecked (60_exceptions R248). `check` is the first check of R245 that fails, if one does. -/
def accept (w : Word) (check : Option FaultCode) (cur : Cur) (body : List MicroOp) (s : State) : Result :=
  if configOk s.cfg then
    if s.ctl.status.busy then .next s
    else if s.ctl.status.fatal || s.ctl.status.fault then .next (rejectEntry (latchCommand w s))
    else
      match check with
      | some c => .next (faultEntry c (latchCommand w s))
      | none => .next (startCommand cur body (latchCommand w s))
  else .refused .illFormedConfig

/-- The fault code of a word that is no command (60_exceptions R245, checks 1 and 2). -/
def decodeFault : DecodeError → FaultCode
  | .badOpcode => .badOpcode
  | .badEncoding => .badEncoding

/-- Acceptance of a word that does not decode (10_state R31, 60_exceptions R245). -/
def acceptIllegal (w : Word) (e : DecodeError) (s : State) : Result :=
  accept w (some (decodeFault e)) s.ctl.cur [] s

/-! ## Window transactions -/

/-- A transaction is recorded in TRACE (10_state R46) and uses one draw number (log 8). -/
def logAccess (ag : Agent) (k : Kind) (a : Nat) (v : Word) (s : State) : State :=
  { s with trace := s.trace ++ [⟨ag, s.tick, k, a, v⟩], draws := s.draws + 1 }

/-- MemRead: the value and the state after (20_memory R90, R96). -/
def busRead (ag : Agent) (a : Nat) (r : Reg) (s : State) : Word × State :=
  let v := readReg s.cfg s.draws s.periph r
  (v, logAccess ag .read a v s)

/-- The pins whose cell ends unknown if a write by this agent ends their strobe, whatever R85's formula gives. None for the
controller, whose own writes end a strobe as R85 says, a stale one with its cell unknown (70_reset R284). For an other master: the pin of a PULL between its steps 1 and 5b, which is
while SEQ is not Idle (20_memory R100, 43_pull R217, R223; log 32), and the stale pins (70_reset R284, 93 U11; log 35). -/
def openPins (ag : Agent) (s : State) : List Nat :=
  match ag with
  | .controller => []
  | .other _ => if s.ctl.status.seq = .idle then s.stale else s.ctl.cur.pin :: s.stale

/-- What a write transaction of this tick knows. -/
def writeCtx (ag : Agent) (s : State) : WriteCtx := ⟨s.tick, s.draws, lastPudWrite s.cfg s.trace, openPins ag s⟩

/-- The peripheral changes, and a pin whose strobe ended is no longer stale (70_reset R284). -/
def setPeriph (per : Periph) (s : State) : State :=
  { s with periph := per, stale := s.stale.filter (strobeAsserted per) }

/-- MemWrite: the write has its effect in its tick (20_memory R96). -/
def busWrite (ag : Agent) (a : Nat) (r : Reg) (v : Word) (s : State) : State :=
  logAccess ag .write a v (setPeriph (writeReg s.cfg (writeCtx ag s) r v s.periph) s)

/-- The address the controller puts on the bus for a register, and the register that answers there (41_decoder R172). -/
def ctlTarget (r : Reg) (s : State) : Option (Nat × Reg) :=
  match tableAddr s.ctl.tables r with
  | some a => (regAt s.cfg a).map (fun r' => (a, r'))
  | none => none

/-! ## The micro-step (10_state R32) and completion (R33) -/

/-- Completion: BUSY <- 0, PROG <- [], uidx <- 0 (10_state R33). -/
def complete (s : State) : State :=
  { s with ctl := { s.ctl with prog := [], uidx := 0, status := setBusy false s.ctl.status } }

/-- uidx <- uidx + 1, and completion in the same tick when it reaches the end of PROG (10_state R32). -/
def advance (s : State) : State :=
  let s' := { s with ctl := { s.ctl with uidx := s.ctl.uidx + 1 } }
  if s'.ctl.uidx = s'.ctl.prog.length then complete s' else s'

/-- Map success: WBASE, every bank table, MAPPED (40_window_init R152). -/
def mapSuccess (s : State) : State :=
  { s with
    grant := some true
    ctl := { s.ctl with
      wbase := s.cfg.periphBase
      tables := mapTables s.cfg s.cfg.periphBase
      status := recordMapped s.ctl.status } }

/-- Map failure: FATAL, MAP_FAIL, and the rest of the micro-program does not run (40_window_init R153). -/
def mapFailure (s : State) : State :=
  { s with
    grant := some false
    ctl := { s.ctl with prog := [], uidx := 0, status := recordMapFail s.ctl.status } }

/-- The Map step reads the platform's answer, one draw, and issues no transaction (40_window_init R151). -/
def mapStep (s : State) : State :=
  let s' := { s with draws := s.draws + 1 }
  if Config.mapOk s.draws then advance (mapSuccess s') else mapFailure s'

/-- TMP <- v (10_state R32). -/
def loadTmp (v : Word) (s : State) : State := { s with ctl := { s.ctl with tmp := v } }

/-- In the tick of a GET's MemRead: LEVEL <- TMP[i] with i = CUR.pin % 32, RESULT_VALID <- 1 (42_pin_ops R197). -/
def getResult (s : State) : State :=
  if s.ctl.cur.op = .get then onStatus (recordLevel (s.ctl.tmp.getLsbD (s.ctl.cur.pin % 32))) s else s

/-- A MemRead micro-operation of the controller. -/
def readStep (r : Reg) (s : State) : Result :=
  match ctlTarget r s with
  | some (a, r') =>
    let (v, s') := busRead .controller a r' s
    .next (advance (getResult (loadTmp v s')))
  | none => .fault .noRegister

/-- A MemWrite micro-operation of the controller, with the sequencer state it enters (43_pull R217). -/
def writeStep (r : Reg) (wv : WriteValue) (q : Option Seq) (s : State) : Result :=
  match ctlTarget r s with
  | some (a, r') => .next (advance (onStatus (enterSeq q) (busWrite .controller a r' (writeValue s.ctl wv) s)))
  | none => .fault .noRegister

/-- A tick of Wait(n): WAITCNT <- WAITCNT + 1, and at n back to 0 and on (10_state R32). -/
def waitStep (n : Nat) (s : State) : State :=
  if s.ctl.waitcnt + 1 = n then advance { s with ctl := { s.ctl with waitcnt := 0 } }
  else { s with ctl := { s.ctl with waitcnt := s.ctl.waitcnt + 1 } }

/-- One micro-operation, in a tick that starts with BUSY = 1 (10_state R32). -/
def microStep (s : State) : Result :=
  match s.ctl.prog[s.ctl.uidx]? with
  | none => .fault .noMicroOp
  | some .map => .next (mapStep s)
  | some (.memRead r) => readStep r s
  | some (.memWrite r v q) => writeStep r v q s
  | some (.wait n) => .next (waitStep n s)

end Sys2Proof.Machine
end

