-- ==== Sys2Proof/Machine/PinOps.lean ====
section
/-! DEFINITION. SET, CLR, GET and FSEL (42_pin_ops R190 to R201). -/

namespace Sys2Proof.Machine

/-- body(SET) = [MemWrite(SET_ADDR[b], 4, 1 << i)] (42_pin_ops R190, 90_conflicts C2). -/
def bodySet (pin : Nat) : List MicroOp :=
  let (b, i) := decodePin pin .set
  [.memWrite (.set b) (.imm (1#32 <<< i)) none]

/-- body(CLR) = [MemWrite(CLR_ADDR[b], 4, 1 << i)] (42_pin_ops R193). -/
def bodyClr (pin : Nat) : List MicroOp :=
  let (b, i) := decodePin pin .clr
  [.memWrite (.clr b) (.imm (1#32 <<< i)) none]

/-- body(GET) = [MemRead(LEV_ADDR[b], 4) into TMP], then R197 in the same tick (42_pin_ops R196). -/
def bodyGet (pin : Nat) : List MicroOp :=
  let (b, _) := decodePin pin .lev
  [.memRead (.lev b)]

/-- body(FSEL) = [MemRead(FSEL_ADDR[b], 4), MemWrite(FSEL_ADDR[b], 4, combined value)] (42_pin_ops R200). -/
def bodyFsel (pin : Nat) : List MicroOp :=
  let (b, s) := decodePin pin .fsel
  [.memRead (.fsel b), .memWrite (.fsel b) (.mergeTmp s) none]

/-- SET: drive a pin's output latch high (42_pin_ops R190). -/
def execSet (pin : Nat) (s : State) : Result :=
  accept (encode (.set pin)) (pinCheck s.cfg pin) ⟨.set, pin, 0⟩ (bodySet pin) s

/-- CLR: drive a pin's output latch low (42_pin_ops R193). -/
def execClr (pin : Nat) (s : State) : Result :=
  accept (encode (.clr pin)) (pinCheck s.cfg pin) ⟨.clr, pin, 0⟩ (bodyClr pin) s

/-- GET: read a pin's level (42_pin_ops R196). -/
def execGet (pin : Nat) (s : State) : Result :=
  accept (encode (.get pin)) (pinCheck s.cfg pin) ⟨.get, pin, 0⟩ (bodyGet pin) s

/-- FSEL: select a pin's function; all eight codes are valid (42_pin_ops R200, 90_conflicts C7). -/
def execFsel (pin : Nat) (f : BitVec 3) (s : State) : Result :=
  accept (encode (.fsel pin f)) (pinCheck s.cfg pin) ⟨.fsel, pin, f⟩ (bodyFsel pin) s

end Sys2Proof.Machine
end

