-- ==== Sys2Proof/Machine/PullOps.lean ====
section
/-! DEFINITION. PULL, the pull-resistor timer/strobe sequencer (43_pull R215 to R228). -/

namespace Sys2Proof.Machine

/-- body(PULL), the six micro-operations, with the sequencer state each step enters (43_pull R215, R217). -/
def bodyPull (c : Config) (pin : Nat) (d : BitVec 2) : List MicroOp :=
  let (b, i) := decodePin pin .pudclk
  [ .memWrite .pud (.imm (d.setWidth 32)) (some .loaded),
    .wait c.tSettle,
    .memWrite (.pudclk b) (.imm (1#32 <<< i)) (some .clocked),
    .wait c.tSettle,
    .memWrite .pud (.imm 0) none,
    .memWrite (.pudclk b) (.imm 0) (some .idle) ]

/-- PULL: set a pin's pull resistor; d = 11 faults BAD_PULL_DIR before the pin is checked (43_pull R215, 60_exceptions R245). -/
def execPull (pin : Nat) (d : BitVec 2) (s : State) : Result :=
  accept (encode (.pull pin d)) (pullCheck s.cfg pin d) ⟨.pull, pin, 0#1 ++ d⟩ (bodyPull s.cfg pin d) s

end Sys2Proof.Machine
end

