-- ==== Sys2Proof/Machine/WindowInit.lean ====
section
/-! DEFINITION. INIT (40_window_init R150). -/

namespace Sys2Proof.Machine

/-- body(INIT) = [] (40_window_init R150). -/
def bodyInit : List MicroOp := []

/-- INIT: Map when the window is not mapped, nothing when it is (40_window_init R150). -/
def execInit (s : State) : Result :=
  accept (encode .init) none ⟨.init, 0, 0⟩ bodyInit s

end Sys2Proof.Machine
end

