-- ==== Sys2Proof/Machine/Dispatch.lean ====
section
/-! DEFINITION. Which meaning each command has: its tick of acceptance (10_state R31), after which `microStep` runs the
micro-program it built. -/

namespace Sys2Proof.Machine

def exec (i : Instr) (s : State) : Host.Outcome State Fault Refusal :=
  match i with
  | .init => Sys2Proof.Machine.execInit s
  | .set pin => Sys2Proof.Machine.execSet pin s
  | .clr pin => Sys2Proof.Machine.execClr pin s
  | .get pin => Sys2Proof.Machine.execGet pin s
  | .fsel pin f => Sys2Proof.Machine.execFsel pin f s
  | .pull pin d => Sys2Proof.Machine.execPull pin d s

end Sys2Proof.Machine
end

