-- ==== Sys2Proof/Machine/Tick.lean ====
section
/-! DEFINITION. One tick around the controller's own action: what the outside does (10_state R20, 20_memory R101,
70_reset R270), what the controller does next, and the end of the tick. -/

namespace Sys2Proof.Machine

/-- What the outside does in this tick; an empty schedule is quiet (log 12). -/
def tickInput (s : State) : TickInput := s.schedule.headD TickInput.quiet

/-- One window transaction of an other master (20_memory R101). The model refuses a misaligned access (R92), one to a
reserved offset (R75), and any when OTHER_MASTERS is false. -/
def otherAccess (a : Access) (s : State) : Result :=
  if s.cfg.otherMasters then
    if a.addr % 4 = 0 then
      match regAt s.cfg a.addr with
      | some r =>
        match a.value with
        | some v => .next (busWrite (.other a.id) a.addr r v s)
        | none => .next (busRead (.other a.id) a.addr r s).2
      | none => .refused .otherMasterReserved
    else .refused .otherMasterMisaligned
  else .refused .otherMasterAbsent

/-- Other masters' transactions, in order. -/
def otherAccesses : List Access → State → Result
  | [], s => .next s
  | a :: as, s => andThen (otherAccess a s) (otherAccesses as)

/-- The command words among the hosts' writes; a write to STATUS has no effect (10_state R23). -/
def commandWords : List HostWrite → List Word
  | [] => []
  | .cmd w :: hs => w :: commandWords hs
  | .status _ :: hs => commandWords hs

/-- The words that arrive are held at the port, behind those already there (10_state R31, log 12). -/
def hostArrivals (s : State) : State := { s with port := s.port ++ commandWords (tickInput s).host }

/-- The start of a tick: hosts' words arrive, and other masters act before the controller. -/
def openTick (s : State) : Result := otherAccesses (tickInput s).before (hostArrivals s)

/-- What the controller does in a tick. -/
inductive Turn where
  /-- Reset is asserted (70_reset R270). -/
  | reset
  /-- BUSY = 1: one micro-operation (10_state R32). -/
  | micro
  /-- BUSY = 0 and no word at the port. -/
  | idle
  /-- BUSY = 0 and the first word at the port is a command. -/
  | command (i : Instr) (rest : List Word)
  /-- BUSY = 0 and the first word at the port is none. -/
  | illegal (w : Word) (e : DecodeError) (rest : List Word)
  deriving DecidableEq, Repr

/-- Reset first (70_reset R270), then a running command (10_state R32), then the first word at the port (R31). -/
def controllerTurn (s : State) : Turn :=
  if (tickInput s).reset then .reset
  else if s.ctl.status.busy then .micro
  else
    match s.port with
    | [] => .idle
    | w :: rest =>
      match decode w with
      | .ok i => .command i rest
      | .error e => .illegal w e rest

/-- The port after its first word was taken. -/
def setPort (rest : List Word) (s : State) : State := { s with port := rest }

/-- The next tick: its number, and the schedule less this tick's entry. -/
def nextTick (s : State) : State := { s with tick := s.tick + 1, schedule := s.schedule.tail }

/-- The end of a tick: other masters act after the controller, and the tick advances. -/
def closeTick (s : State) : Result := andThen (otherAccesses (tickInput s).after s) (fun s' => .next (nextTick s'))

/-- A controller that runs no command. -/
def idleController (s : State) : State :=
  { s with ctl := { s.ctl with
      prog := []
      uidx := 0
      waitcnt := 0
      status := { s.ctl.status with busy := false, seq := .idle } } }

/-- The word w is the first at the port, the coming tick is quiet (the schedule goes on after it), and no command is
running: the controller takes w in the very next tick (log 24). -/
def placeCommand (w : Word) (s : State) : State :=
  let s' := if s.ctl.status.busy then idleController s else s
  { s' with port := w :: s'.port, schedule := TickInput.quiet :: s'.schedule }

end Sys2Proof.Machine
end

