-- ==== Sys2Proof/Machine/Step.lean ====
section
/-! DEFINITION. One step is one tick (10_state R20, R32; log 11). -/

namespace Sys2Proof.Machine

/-- The controller's own action of a tick. -/
def controllerAct (s : State) : Result :=
  match controllerTurn s with
  | .reset => .next (controllerReset s)
  | .micro => microStep s
  | .idle => .next s
  | .command i rest => exec i (setPort rest s)
  | .illegal w e rest => acceptIllegal w e (setPort rest s)

/-- One tick: the outside, the controller, the outside. An ill-formed configuration is refused (00_scope R7). -/
def step (s : State) : Host.Outcome State Fault Refusal :=
  if configOk s.cfg then andThen (openTick s) (fun s' => andThen (controllerAct s') closeTick)
  else .refused .illFormedConfig

/-- The machine with a command, whose low `nbits` bits are `w`, where `step` takes its next one: first at the command
port, in a quiet tick, with no command running (log 24). -/
def State.withFetchWord (s : State) (nbits w : Nat) : State := placeCommand (BitVec.ofNat 32 (w % 2 ^ nbits)) s

end Sys2Proof.Machine
end

