-- ==== Sys2Proof/Machine/Assembler.lean ====
section
/-! DEFINITION. The assembler of 30_encoding R131 to R133: one command per line, its pseudo-instructions and its
function-code and direction names. No step of the machine depends on it (log 27). -/

namespace Sys2Proof.Machine

/-- The function-code names of R133; OUT is FSEL_OUTPUT_CODE (R132, R133). -/
def functionNames (c : Config) : List (String × BitVec 3) :=
  [("IN", 0b000#3), ("OUT", c.fselOutput), ("ALT0", 0b100#3), ("ALT1", 0b101#3), ("ALT2", 0b110#3), ("ALT3", 0b111#3),
   ("ALT4", 0b011#3), ("ALT5", 0b010#3)]

/-- The direction names of R131: "any other direction name" is refused. -/
def directionNames : List (String × BitVec 2) := [("OFF", 0b00#2), ("DOWN", 0b01#2), ("UP", 0b10#2)]

/-- The mnemonics of R131 and the pseudo-instructions of R132 that take one pin, with what they stand for. -/
def pinMnemonics (c : Config) (pin : Nat) : List (String × Instr) :=
  [("SET", .set pin), ("CLR", .clr pin), ("GET", .get pin),
   ("OUTPUT", .fsel pin c.fselOutput), ("INPUT", .fsel pin 0b000#3),
   ("PULLUP", .pull pin 0b10#2), ("PULLDOWN", .pull pin 0b01#2), ("PULLOFF", .pull pin 0b00#2),
   ("HIGH", .set pin), ("LOW", .clr pin)]

/-- The entry of a table of names, by its characters. -/
def lookupName {α : Type} (name : List Char) : List (String × α) → Option α
  | [] => none
  | (n, v) :: rest => if n.toList = name then some v else lookupName name rest

/-- One digit, in base 16 (both cases of a letter). -/
def hexDigit (ch : Char) : Option Nat :=
  if '0' ≤ ch ∧ ch ≤ '9' then some (ch.toNat - '0'.toNat)
  else if 'a' ≤ ch ∧ ch ≤ 'f' then some (ch.toNat - 'a'.toNat + 10)
  else if 'A' ≤ ch ∧ ch ≤ 'F' then some (ch.toNat - 'A'.toNat + 10)
  else none

/-- The number written by digits in a base, after the value so far. -/
def numberFrom (base : Nat) : Nat → List Char → Option Nat
  | acc, [] => some acc
  | acc, ch :: rest =>
    match hexDigit ch with
    | some d => if d < base then numberFrom base (acc * base + d) rest else none
    | none => none

/-- "decimal or 0x-prefixed hexadecimal numbers" (R131). -/
def parseNumber : List Char → Option Nat
  | [] => none
  | '0' :: 'x' :: ch :: rest => numberFrom 16 0 (ch :: rest)
  | cs => numberFrom 10 0 cs

/-- A pin operand: the assembler refuses a pin > 255 and no other (R131). -/
def parsePin (cs : List Char) : Option Nat :=
  match parseNumber cs with
  | some n => if n ≤ 255 then some n else none
  | none => none

/-- An FSEL operand: 0..7 or a name of R133 (R131). -/
def parseFunction (c : Config) (cs : List Char) : Option (BitVec 3) :=
  match lookupName cs (functionNames c) with
  | some f => some f
  | none =>
    match parseNumber cs with
    | some n => if n ≤ 7 then some (BitVec.ofNat 3 n) else none
    | none => none

/-- A line's tokens: runs of characters between blanks, a comma a token of its own. -/
def tokensFrom : List Char → List Char → List (List Char)
  | [], [] => []
  | word, [] => [word.reverse]
  | word, ch :: rest =>
    let done := if word.isEmpty then [] else [word.reverse]
    if ch = ' ' ∨ ch = '\t' then done ++ tokensFrom [] rest
    else if ch = ',' then done ++ [[',']] ++ tokensFrom [] rest
    else tokensFrom (ch :: word) rest

/-- The command of a line's tokens (R131, R132); mnemonics are case-insensitive. -/
def parseTokens (c : Config) : List (List Char) → Option Instr
  | [m] => if m.map Char.toUpper = "INIT".toList then some .init else none
  | [m, p] =>
    match parsePin p with
    | some pin => lookupName (m.map Char.toUpper) (pinMnemonics c pin)
    | none => none
  | [m, p, comma, x] =>
    match parsePin p with
    | some pin =>
      if comma = [','] then
        if m.map Char.toUpper = "FSEL".toList then (parseFunction c x).map (.fsel pin)
        else if m.map Char.toUpper = "PULL".toList then (lookupName x directionNames).map (.pull pin)
        else none
      else none
    | none => none
  | _ => none

/-- The word of an assembler line, or none where the assembler refuses it (R131). -/
def assembleLine (c : Config) (line : String) : Option Word :=
  (parseTokens c (tokensFrom [] line.toList)).map encode

end Sys2Proof.Machine
end

