-- ==== Sys2Proof/Safety.lean ====
section
/-! DEFINITION. What claims are about: the conditions a rule names (ready, mapped, quiescent, undisturbed, powered on), and
the invariants of the machine (10_state R24, R27, R37, R45, R46; 40_window_init R155). -/

namespace Sys2Proof.Machine

/-! ## Conditions -/

/-- The controller takes a command in its next tick and does not reject it (10_state R31). -/
def Ready (s : State) : Prop :=
  configOk s.cfg = true ∧ s.ctl.status.busy = false ∧ s.ctl.status.fatal = false ∧ s.ctl.status.fault = false

/-- The window is mapped: MAPPED, WBASE and the tables are what the Map step wrote (40_window_init R152). -/
def Mapped (s : State) : Prop :=
  s.ctl.status.mapped = true ∧ s.ctl.wbase = s.cfg.periphBase ∧ s.ctl.tables = mapTables s.cfg s.cfg.periphBase

/-- The window is mapped, or the platform will grant the mapping that the next command asks for first (40_window_init R154). -/
def CanMap (s : State) : Prop :=
  Mapped s ∨ (s.ctl.status.mapped = false ∧ Config.mapOk s.draws = true)

/-- The ticks of the Map prefix of a command accepted now (40_window_init R154). -/
def mapTicks (s : State) : Nat := if s.ctl.status.mapped then 0 else 1

/-- The grant after a command's Map prefix succeeded or was not needed (10_state R48). -/
def grantAfter (s : State) : Option Bool := if s.ctl.status.mapped then s.grant else some true

/-- One entry for each pin 0 … NPINS-1 (10_state R40 to R45). -/
def Sized (s : State) : Prop := s.periph.pins.length = s.cfg.npins

/-- The window is quiescent: PUDCODE = 00 and CLK[q] = 0 for every pin q (43_pull R221). -/
def Quiescent (s : State) : Prop := s.periph.pudcode = 0 ∧ ∀ pin ∈ s.periph.pins, pin.clk = false

/-- Whether a tick's input holds a reset or an other master's transaction. Host writes disturb no running command (10_state R31). -/
def disturbs (i : TickInput) : Bool := i.reset || !i.before.isEmpty || !i.after.isEmpty

/-- In the next n ticks no reset is asserted and no other master acts. -/
def Undisturbed (n : Nat) (s : State) : Prop := ∀ i ∈ s.schedule.take n, disturbs i = false

/-- n ticks lead from s to u, with no fault and no refusal. -/
def Runs (n : Nat) (s u : State) : Prop := Host.Core.run Sys2Proof.core n s = .next u

/-- The checks of 60_exceptions R245 that a command's operands must pass. -/
def operandsPass (c : Config) : Instr → Prop
  | .init => True
  | .set pin => pin < c.npins
  | .clr pin => pin < c.npins
  | .get pin => pin < c.npins
  | .fsel pin _ => pin < c.npins
  | .pull pin d => pin < c.npins ∧ d ≠ 3#2

/-- CUR as acceptance writes it from a command's fields (10_state R26, 30_encoding R121). -/
def curOf : Instr → Cur
  | .init => ⟨.init, 0, 0⟩
  | .set pin => ⟨.set, pin, 0⟩
  | .clr pin => ⟨.clr, pin, 0⟩
  | .get pin => ⟨.get, pin, 0⟩
  | .fsel pin f => ⟨.fsel, pin, f⟩
  | .pull pin d => ⟨.pull, pin, 0#1 ++ d⟩

/-- The ticks with BUSY = 1 of an accepted command, the Map prefix apart (70_reset R290). -/
def commandTicks (c : Config) : Instr → Nat
  | .init => 0
  | .set _ => 1
  | .clr _ => 1
  | .get _ => 1
  | .fsel _ _ => 2
  | .pull _ _ => 4 + 2 * c.tSettle

/-- The controller after a command completed from state s and changed nothing but what every command changes: CMD, CUR,
RESULT_VALID (10_state R31), an idle micro-program (R33), and the mapping if it was still to come (40_window_init R152). -/
def doneCtl (i : Instr) (s : State) : Controller :=
  { s.ctl with
    cmd := encode i
    cur := curOf i
    prog := []
    uidx := 0
    waitcnt := 0
    wbase := s.cfg.periphBase
    tables := mapTables s.cfg s.cfg.periphBase
    status := { s.ctl.status with mapped := true, busy := false, resultValid := false } }

/-- The power-on predicate for the peripheral's launch state (10_state R52): LATCH and PCELL are free. -/
def PowerOn (c : Config) (per : Periph) : Prop :=
  per.pins.length = c.npins ∧ per.pudcode = 0 ∧ per.pudT = none
    ∧ ∀ pin ∈ per.pins, pin.func = 0 ∧ pin.clk = false ∧ pin.strobe = none

/-! ## The controller's invariant -/

/-- body(CUR) (10_state R30). -/
def bodyOf (c : Config) (cur : Cur) : List MicroOp :=
  match cur.op with
  | .init => bodyInit
  | .set => bodySet cur.pin
  | .clr => bodyClr cur.pin
  | .get => bodyGet cur.pin
  | .fsel => bodyFsel cur.pin
  | .pull => bodyPull c cur.pin (cur.arg.extractLsb' 0 2)

/-- The fields of an accepted command passed the checks of 60_exceptions R245. -/
def CurOk (c : Config) (cur : Cur) : Prop :=
  match cur.op with
  | .init => cur.pin = 0 ∧ cur.arg = 0
  | .set => cur.pin < c.npins ∧ cur.arg = 0
  | .clr => cur.pin < c.npins ∧ cur.arg = 0
  | .get => cur.pin < c.npins ∧ cur.arg = 0
  | .fsel => cur.pin < c.npins
  | .pull => cur.pin < c.npins ∧ cur.arg.getLsbD 2 = false ∧ cur.arg.extractLsb' 0 2 ≠ 3#2

/-- SEQ after the first u micro-operations of a micro-program (43_pull R217). -/
def seqAt (prog : List MicroOp) (u : Nat) : Seq :=
  (prog.take u).foldl
    (fun q m => match m with
      | .memWrite _ _ (some q') => q'
      | _ => q) .idle

/-- WAITCNT is 0 except inside a Wait, where it is below its length (10_state R29). -/
def WaitOk (ctl : Controller) : Prop :=
  ctl.waitcnt = 0 ∨ ∃ n, ctl.prog[ctl.uidx]? = some (.wait n) ∧ ctl.waitcnt < n

/-- A running command: PROG is the Map prefix, if any, and the body of CUR; uidx is inside it; the Map is still to come
exactly while MAPPED = 0; SEQ and WAITCNT fit the position (10_state R27, R29, R30; 43_pull R217). -/
def RunningOk (c : Config) (ctl : Controller) : Prop :=
  ∃ pre : List MicroOp, (pre = [] ∨ pre = [.map]) ∧ ctl.prog = pre ++ bodyOf c ctl.cur ∧ CurOk c ctl.cur
    ∧ ctl.uidx < ctl.prog.length
    ∧ (ctl.status.mapped = false ↔ pre = [.map] ∧ ctl.uidx = 0)
    ∧ ctl.status.seq = seqAt ctl.prog ctl.uidx ∧ WaitOk ctl

/-- No running command: PROG = [], uidx = 0, WAITCNT = 0, SEQ Idle (10_state R29, R33, R39). -/
def StoppedOk (ctl : Controller) : Prop :=
  ctl.prog = [] ∧ ctl.uidx = 0 ∧ ctl.waitcnt = 0 ∧ ctl.status.seq = .idle

/-- The flag invariants of 10_state R24. "The last accepted command was a GET" is CUR.op = GET: CUR is written at
acceptance only (R26). -/
structure FlagsOk (ctl : Controller) : Prop where
  fatal : ctl.status.fatal = true → ctl.status.mapped = false ∧ ctl.status.busy = false
  fault : ctl.status.fault = true → ctl.status.busy = false
  notBoth : ¬ (ctl.status.fatal = true ∧ ctl.status.fault = true)
  code : ctl.status.faultCode = .none ↔ ctl.status.fatal = false ∧ ctl.status.fault = false
  mapFail : ctl.status.faultCode = .mapFail ↔ ctl.status.fatal = true
  seq : ctl.status.seq ≠ .idle → ctl.status.busy = true ∧ ctl.cur.op = .pull
  result : ctl.status.resultValid = true → ctl.status.busy = false ∧ ctl.cur.op = .get
  rejected : ctl.status.rejected = true → ctl.status.fatal = true ∨ ctl.status.fault = true

/-- A pin's strobe record exists exactly while its clock bit is 1, and counts a late write exactly when it names one
(10_state R45). -/
def PinOk (pin : Pin) : Prop :=
  pin.clk = pin.strobe.isSome ∧ ∀ st ∈ pin.strobe, (st.late = 0 ↔ st.lateT = none)

/-- The invariant of the machine. -/
structure Invariant (s : State) : Prop where
  config : configOk s.cfg = true
  sized : Sized s
  pins : ∀ pin ∈ s.periph.pins, PinOk pin
  flags : FlagsOk s.ctl
  running : s.ctl.status.busy = true → RunningOk s.cfg s.ctl
  stopped : s.ctl.status.busy = false → StoppedOk s.ctl
  mapped : s.ctl.status.mapped = true → Mapped s
  grantTrue : s.grant = some true ↔ s.ctl.status.mapped = true
  grantFalse : s.grant = some false ↔ s.ctl.status.fatal = true
  stale : s.stale.Nodup ∧ ∀ p ∈ s.stale, strobeAsserted s.periph p = true

/-! ## The invariant of the window's traffic -/

/-- TRACE is in order, before the coming tick, at the addresses of registers only; with no other masters, it is the
controller's alone (10_state R46; 20_memory R90, R101; 41_decoder R172). -/
structure TraceOk (s : State) : Prop where
  order : s.trace.Pairwise (fun e e' => e.tick ≤ e'.tick)
  past : ∀ e ∈ s.trace, e.tick < s.tick
  address : ∀ e ∈ s.trace, (∃ r ∈ allRegs s.cfg, e.addr = physAddr s.cfg r) ∧ e.addr % 4 = 0
  agents : s.cfg.otherMasters = false → ∀ e ∈ s.trace, e.agent = .controller

end Sys2Proof.Machine
end

