-- ==== Sys2Proof/Certificates/Slice0/Obligations.lean ====
section
/-! DEFINITION. The statements for the provers: what the spec's numbered rules say, as propositions about the model. -/

open Sys2Proof Sys2Proof.Machine

/-! ## Encoding (30_encoding) -/

/-- Decoding the word of a well-formed command gives the command back, with every operand at every value (R121, R126). -/
def Obligations.DecodeOfEncode : Prop :=
  ∀ i : Instr, WellFormed i = true → decode (encode i) = .ok i

/-- A word that decodes is the encoding of a well-formed command, so no bit of it is ignored (R128, R129). -/
def Obligations.DecodedWordIsAnEncoding : Prop :=
  ∀ (w : Word) (i : Instr), decode w = .ok i → WellFormed i = true ∧ encode i = w

/-- "A word w is the instruction of a row when (w & mask) = match" (R126). -/
def Obligations.RowMatchDecidesCommand : Prop :=
  ∀ (w : Word) (i : Instr),
    w &&& (rowOf i).2 = (rowOf i).1 ↔ ∃ j, decode w = .ok j ∧ rowOf j = rowOf i

/-- The words that are no command: reserved opcodes (R127), and nonzero must-be-zero fields of a valid opcode (R128). -/
def Obligations.IllegalWords : Prop :=
  ∀ w : Word,
    (decode w = .error .badOpcode ↔ w.extractLsb' 0 4 = 0#4 ∨ 7#4 ≤ w.extractLsb' 0 4)
    ∧ (decode w = .error .badEncoding ↔
        (1#4 ≤ w.extractLsb' 0 4 ∧ w.extractLsb' 0 4 ≤ 6#4)
        ∧ (w.extractLsb' 19 13 ≠ 0 ∨ w.extractLsb' 4 4 ≠ 0
            ∨ (w.extractLsb' 0 4 = 1#4 ∧ (w.extractLsb' 8 8 ≠ 0 ∨ w.extractLsb' 16 3 ≠ 0))
            ∨ ((w.extractLsb' 0 4 = 2#4 ∨ w.extractLsb' 0 4 = 3#4 ∨ w.extractLsb' 0 4 = 4#4) ∧ w.extractLsb' 16 3 ≠ 0)
            ∨ (w.extractLsb' 0 4 = 6#4 ∧ w.getLsbD 18 = true)))

/-- The encoding examples of R134, as decoding (a sanity statement). -/
def Obligations.EncodingExamples : Prop :=
  decode 0x00000001#32 = .ok .init ∧ decode 0x00001602#32 = .ok (.set 22) ∧ decode 0x00001603#32 = .ok (.clr 22)
    ∧ decode 0x00001604#32 = .ok (.get 22) ∧ decode 0x00011605#32 = .ok (.fsel 22 0b001#3)
    ∧ decode 0x00070905#32 = .ok (.fsel 9 7#3) ∧ decode 0x00021606#32 = .ok (.pull 22 0b10#2)
    ∧ decode 0x00011606#32 = .ok (.pull 22 0b01#2) ∧ decode 0x00001606#32 = .ok (.pull 22 0b00#2)
    ∧ decode 0x00003502#32 = .ok (.set 53) ∧ decode 0x00003602#32 = .ok (.set 54)

/-- STATUS as the host reads it, bit by bit, with bits 31:13 zero (R23, R240). -/
def Obligations.StatusWordLayout : Prop :=
  ∀ st : Status,
    (statusWord st).getLsbD 0 = st.mapped ∧ (statusWord st).getLsbD 1 = st.busy
    ∧ (statusWord st).getLsbD 2 = st.fatal ∧ (statusWord st).getLsbD 3 = st.fault
    ∧ (statusWord st).getLsbD 4 = st.resultValid ∧ (statusWord st).getLsbD 5 = st.level
    ∧ (statusWord st).extractLsb' 6 2 = (match st.seq with | .idle => 0b00#2 | .loaded => 0b01#2 | .clocked => 0b10#2)
    ∧ (statusWord st).extractLsb' 8 4 = (match st.faultCode with
        | .none => 0#4 | .mapFail => 1#4 | .badOpcode => 2#4 | .badEncoding => 3#4 | .badPullDir => 4#4 | .pinRange => 5#4)
    ∧ (statusWord st).getLsbD 12 = st.rejected ∧ (statusWord st).extractLsb' 13 19 = 0

/-! ## The register decoder (41_decoder) -/

/-- The register decoder's (bank, pos) for every group, and the one-bit mask and the field mask that follow: each bit of a mask
is where the formula says, and none is lost (R166, R167, the pair of R168, R170). -/
def Obligations.RegisterDecoderFormulas : Prop :=
  ∀ pin : Nat,
    decodePin pin .set = (pin / 32, pin % 32) ∧ decodePin pin .clr = (pin / 32, pin % 32)
    ∧ decodePin pin .lev = (pin / 32, pin % 32) ∧ decodePin pin .fsel = (pin / 10, (pin % 10) * 3)
    ∧ decodePin pin .pudclk = (pin / 32, pin % 32)
    ∧ (∀ i, (bitmask pin).getLsbD i = decide (i = pin % 32))
    ∧ (∀ i, (fieldmask pin).getLsbD i = decide ((pin % 10) * 3 ≤ i ∧ i < (pin % 10) * 3 + 3))

/-- Two different pins never share a bit of a 32-bit bank or a field of a function-select bank (R176). -/
def Obligations.PinsNeverShareABit : Prop :=
  ∀ p q : Nat, p ≠ q →
    (p / 32 = q / 32 → bitmask p &&& bitmask q = 0)
    ∧ (p / 10 = q / 10 → fieldmask p &&& fieldmask q = 0)

/-- The addresses of a valid pin's banks, after a successful Map: the table lookups are defined, the address is
PERIPH_BASE plus the offset of R74, aligned and inside the window, and that register answers there (R172, R173). -/
def Obligations.TableAddressesReachTheirRegisters : Prop :=
  ∀ (c : Config) (pin : Nat) (g : Group), configOk c = true → pin < c.npins →
    ∃ a, tableAddr (mapTables c c.periphBase) (groupReg (decodePin pin g).1 g) = some a
      ∧ a = c.periphBase + regOffset (groupReg (decodePin pin g).1 g)
      ∧ a % 4 = 0 ∧ c.periphBase ≤ a ∧ a + 4 ≤ c.periphBase + c.blockSize
      ∧ regAt c a = some (groupReg (decodePin pin g).1 g)

/-- One address, one register: the registers of a well-formed configuration are found exactly at their own addresses (R7, R74, R75). -/
def Obligations.RegistersAreDistinct : Prop :=
  ∀ (c : Config) (a : Nat) (r : Reg), configOk c = true →
    (regAt c a = some r ↔ r ∈ allRegs c ∧ a = physAddr c r)

/-! ## A step, acceptance, faults (10_state, 60_exceptions) -/

/-- A step runs the decoded command: with no reset and no other master in this tick, BUSY = 0, and a first word at the port
that decodes to i, step is exec of i, the word taken from the port, the words that arrive put behind, and the tick over (R31, R32).
That arriving words are held behind those already at the port is log 12's choice (R263 leaves the order open). -/
def Obligations.StepRunsDecodedCommand : Prop :=
  ∀ (s : State) (w : Word) (rest : List Word) (i : Instr),
    configOk s.cfg = true → Undisturbed 1 s → s.ctl.status.busy = false → s.port = w :: rest → decode w = .ok i →
    step s = andThen (exec i { s with port := rest ++ commandWords (tickInput s).host }) (fun t => .next (nextTick t))

/-- A tick with BUSY = 1, no reset and no other master runs one micro-operation, whatever the hosts write; the words written to
CMD are held behind those at the port, in their order, and a tick whose only host writes are to STATUS leaves the port as it was
(R23, R31, R32). How words are held at the port is log 12's. -/
def Obligations.StepRunsOneMicroOperation : Prop :=
  ∀ s : State, configOk s.cfg = true → Undisturbed 1 s → s.ctl.status.busy = true →
    step s = andThen (microStep { s with port := s.port ++ commandWords (tickInput s).host }) (fun t => .next (nextTick t))
    ∧ (∀ (ws : List Word) (t : State), (tickInput s).host = ws.map .cmd → step s = .next t → t.port = s.port ++ ws)
    ∧ (∀ t : State, (∀ h ∈ (tickInput s).host, ∃ w, h = .status w) → step s = .next t → t.port = s.port)

/-- A host's write to STATUS has no effect: in any tick, a step with it among the hosts' writes is the step without it (R23). -/
def Obligations.StatusWriteHasNoEffect : Prop :=
  ∀ (s : State) (i : TickInput) (rest : List TickInput) (earlier later : List HostWrite) (w : Word),
    step { s with schedule := { i with host := earlier ++ .status w :: later } :: rest }
      = step { s with schedule := { i with host := earlier ++ later } :: rest }

/-- Acceptance of a command whose checks pass builds its micro-program and changes nothing else (R30, R31). -/
def Obligations.AcceptanceBuildsProgram : Prop :=
  ∀ (i : Instr) (s : State), Ready s → operandsPass s.cfg i →
    exec i s = .next { s with ctl := { s.ctl with
      cmd := encode i
      cur := curOf i
      prog := (if s.ctl.status.mapped then [] else [MicroOp.map]) ++ bodyOf s.cfg (curOf i)
      uidx := 0
      waitcnt := 0
      status := { s.ctl.status with
        resultValid := false
        busy := !(s.ctl.status.mapped && decide (i = .init)) } } }

/-- A command offered while BUSY = 1 is not accepted and has no effect (R31). -/
def Obligations.BusyPortHoldsCommand : Prop :=
  ∀ (i : Instr) (s : State), configOk s.cfg = true → s.ctl.status.busy = true → exec i s = .next s

/-- After a fault every command, and every word that is none, is rejected: CMD, RESULT_VALID and REJECTED change, nothing else (R248). -/
def Obligations.RejectionAfterFault : Prop :=
  ∀ s : State, configOk s.cfg = true → s.ctl.status.busy = false →
    (s.ctl.status.fatal = true ∨ s.ctl.status.fault = true) →
    (∀ i : Instr, exec i s = .next { s with ctl := { s.ctl with
      cmd := encode i, status := { s.ctl.status with resultValid := false, rejected := true } } })
    ∧ (∀ (w : Word) (e : DecodeError), acceptIllegal w e s = .next { s with ctl := { s.ctl with
      cmd := w, status := { s.ctl.status with resultValid := false, rejected := true } } })

/-- A pin ≥ NPINS faults PIN_RANGE at acceptance, with no other effect (R245 check 4, R246). -/
def Obligations.PinRangeFaultEntry : Prop :=
  ∀ (s : State) (pin : Nat), Ready s → s.cfg.npins ≤ pin →
    ∀ i : Instr, (i = .set pin ∨ i = .clr pin ∨ i = .get pin ∨ (∃ f, i = .fsel pin f) ∨ (∃ d, d ≠ 3#2 ∧ i = .pull pin d)) →
      exec i s = .next { s with ctl := { s.ctl with
        cmd := encode i
        status := { s.ctl.status with resultValid := false, fault := true, faultCode := .pinRange, busy := false } } }

/-- The pull direction 11 faults BAD_PULL_DIR at acceptance, whatever the pin, with no other effect (R245 check 3, R246). -/
def Obligations.BadPullDirectionFaultEntry : Prop :=
  ∀ (s : State) (pin : Nat), Ready s →
    exec (.pull pin 3#2) s = .next { s with ctl := { s.ctl with
      cmd := encode (.pull pin 3#2)
      status := { s.ctl.status with resultValid := false, fault := true, faultCode := .badPullDir, busy := false } } }

/-- A word that does not decode faults BAD_OPCODE or BAD_ENCODING in its acceptance tick: STATUS and CMD change, no
transaction is issued and no micro-program is built (R245 checks 1 and 2, R246). The order of the words at the port is log 12's
choice (R263 leaves it open). -/
def Obligations.IllegalWordFaultEntry : Prop :=
  ∀ (s : State) (w : Word) (rest : List Word) (e : DecodeError),
    Ready s → Undisturbed 1 s → s.port = w :: rest → decode w = .error e →
    step s = .next { s with
      port := rest ++ commandWords (tickInput s).host
      tick := s.tick + 1
      schedule := s.schedule.tail
      ctl := { s.ctl with
        cmd := w
        status := { s.ctl.status with
          resultValid := false, fault := true, busy := false
          faultCode := match e with | .badOpcode => .badOpcode | .badEncoding => .badEncoding } } }

/-! ## What a command does, run to its end (40_window_init, 42_pin_ops, 43_pull) -/

/-- The Map tick of any command whose checks pass, for either answer of the platform. Granted: WBASE, every bank table and
MAPPED are written and the command goes on, INIT being complete. Refused: FATAL and MAP_FAIL, and no micro-operation of the
command runs. The window sees no transaction either way (R151, R152, R153, R154). -/
def Obligations.MapAnswer : Prop :=
  ∀ (i : Instr) (s : State), Ready s → operandsPass s.cfg i → s.ctl.status.mapped = false → Undisturbed 2 s →
    ∃ t u, exec i s = .next t ∧ Runs 1 (nextTick t) u ∧ u.periph = s.periph ∧ u.trace = s.trace ∧ u.stale = s.stale
      ∧ u.grant = some (Config.mapOk s.draws)
      ∧ u.ctl = if Config.mapOk s.draws then
          { s.ctl with
            cmd := encode i, cur := curOf i, waitcnt := 0
            prog := if i = .init then [] else [.map] ++ bodyOf s.cfg (curOf i)
            uidx := if i = .init then 0 else 1
            wbase := s.cfg.periphBase, tables := mapTables s.cfg s.cfg.periphBase
            status := { s.ctl.status with resultValid := false, mapped := true, busy := !decide (i = .init) } }
        else
          { s.ctl with
            cmd := encode i, cur := curOf i, prog := [], uidx := 0, waitcnt := 0
            status := { s.ctl.status with resultValid := false, busy := false, fatal := true, faultCode := .mapFail } }

/-- INIT: with the window mapped it completes at acceptance and changes nothing of the mapping; otherwise the Map tick writes
WBASE, every bank table and MAPPED. No transaction either way (R150, R152). -/
def Obligations.InitMapsTheWindow : Prop :=
  ∀ s : State, Ready s → CanMap s → Undisturbed 2 s →
    ∃ t u, exec .init s = .next t ∧ Runs (mapTicks s) (nextTick t) u
      ∧ u.ctl = doneCtl .init s ∧ u.periph = s.periph ∧ u.trace = s.trace ∧ u.cfg = s.cfg ∧ u.grant = grantAfter s ∧ u.stale = s.stale

/-- SET p: one write of 1 << (p % 32) to its set bank; LATCH[p] becomes 1; no other pin and nothing else of the peripheral
changes, and of the controller only what every command changes (R190, R191, R77). Of the stale pins (log 35) those without an
asserted strobe, which no run has, are dropped by any write, here and below. -/
def Obligations.SetDrivesLatchHigh : Prop :=
  ∀ (s : State) (p : Nat), Ready s → CanMap s → p < s.cfg.npins → Undisturbed (mapTicks s + 2) s →
    ∃ t u, exec (.set p) s = .next t ∧ Runs (mapTicks s + 1) (nextTick t) u
      ∧ u.ctl = doneCtl (.set p) s
      ∧ (∀ q, u.periph.pins[q]? = (s.periph.pins[q]?).map (fun (pin : Pin) => if q = p then { pin with latch := true } else pin))
      ∧ u.periph.pudcode = s.periph.pudcode ∧ u.periph.pudT = s.periph.pudT
      ∧ u.trace = s.trace ++
          [⟨.controller, s.tick + mapTicks s + 1, .write, s.cfg.periphBase + 0x1C + 4 * (p / 32), 1#32 <<< (p % 32)⟩]
      ∧ u.cfg = s.cfg ∧ u.grant = grantAfter s ∧ u.stale = s.stale.filter (strobeAsserted s.periph)

/-- CLR p: one write of 1 << (p % 32) to its clear bank; LATCH[p] becomes 0; nothing else changes (R193, R194, R78). -/
def Obligations.ClrDrivesLatchLow : Prop :=
  ∀ (s : State) (p : Nat), Ready s → CanMap s → p < s.cfg.npins → Undisturbed (mapTicks s + 2) s →
    ∃ t u, exec (.clr p) s = .next t ∧ Runs (mapTicks s + 1) (nextTick t) u
      ∧ u.ctl = doneCtl (.clr p) s
      ∧ (∀ q, u.periph.pins[q]? = (s.periph.pins[q]?).map (fun (pin : Pin) => if q = p then { pin with latch := false } else pin))
      ∧ u.periph.pudcode = s.periph.pudcode ∧ u.periph.pudT = s.periph.pudT
      ∧ u.trace = s.trace ++
          [⟨.controller, s.tick + mapTicks s + 1, .write, s.cfg.periphBase + 0x28 + 4 * (p / 32), 1#32 <<< (p % 32)⟩]
      ∧ u.cfg = s.cfg ∧ u.grant = grantAfter s ∧ u.stale = s.stale.filter (strobeAsserted s.periph)

/-- GET p: one read of its level bank, kept in TMP; LEVEL is the latch of an output pin and the environment's draw for any
other pin; RESULT_VALID is 1; the peripheral is unchanged (R79, R80, R196, R197). The read takes a draw number that no later
read takes (R80, R89: a fresh draw at every read; logs 5, 6, 8). -/
def Obligations.GetReportsLevel : Prop :=
  ∀ (s : State) (p : Nat) (pin : Pin), Ready s → CanMap s → p < s.cfg.npins → s.periph.pins[p]? = some pin →
    Undisturbed (mapTicks s + 2) s →
    ∃ t u w, exec (.get p) s = .next t ∧ Runs (mapTicks s + 1) (nextTick t) u
      ∧ u.ctl = { doneCtl (.get p) s with
          tmp := w
          status := { (doneCtl (.get p) s).status with
            resultValid := true
            level := if pin.func = s.cfg.fselOutput then pin.latch else Config.env (s.draws + mapTicks s) p } }
      ∧ w = readReg s.cfg (s.draws + mapTicks s) s.periph (.lev (p / 32))
      ∧ u.periph = s.periph
      ∧ u.trace = s.trace ++ [⟨.controller, s.tick + mapTicks s + 1, .read, s.cfg.periphBase + 0x34 + 4 * (p / 32), w⟩]
      ∧ u.draws = s.draws + mapTicks s + 1
      ∧ u.cfg = s.cfg ∧ u.grant = grantAfter s ∧ u.stale = s.stale

/-- FSEL p, f: a read of its function-select bank and a write of the combined value; FUNC[p] becomes f; no other field of the
bank, no latch and nothing else changes (R200, R201, R202, R76). -/
def Obligations.FselSelectsFunction : Prop :=
  ∀ (s : State) (p : Nat) (f : BitVec 3), Ready s → CanMap s → p < s.cfg.npins → Undisturbed (mapTicks s + 3) s →
    ∃ t u w, exec (.fsel p f) s = .next t ∧ Runs (mapTicks s + 2) (nextTick t) u
      ∧ u.ctl = { doneCtl (.fsel p f) s with tmp := w }
      ∧ w = readReg s.cfg (s.draws + mapTicks s) s.periph (.fsel (p / 10))
      ∧ (∀ q, u.periph.pins[q]? = (s.periph.pins[q]?).map (fun (pin : Pin) => if q = p then { pin with func := f } else pin))
      ∧ u.periph.pudcode = s.periph.pudcode ∧ u.periph.pudT = s.periph.pudT
      ∧ u.trace = s.trace ++
          [⟨.controller, s.tick + mapTicks s + 1, .read, s.cfg.periphBase + 4 * (p / 10), w⟩,
           ⟨.controller, s.tick + mapTicks s + 2, .write, s.cfg.periphBase + 4 * (p / 10),
             (w &&& ~~~(7#32 <<< ((p % 10) * 3))) ||| (f.setWidth 32 <<< ((p % 10) * 3))⟩]
      ∧ u.cfg = s.cfg ∧ u.grant = grantAfter s ∧ u.stale = s.stale.filter (strobeAsserted s.periph)

/-- The four writes of a PULL at their ticks, where nothing else reaches the window, and its completion: SEQ is Idle (R215, R217, R218). -/
def Obligations.PullWritesTheProtocol : Prop :=
  ∀ (s : State) (p : Nat) (d : BitVec 2), Ready s → CanMap s → p < s.cfg.npins → d ≠ 3#2 →
    Undisturbed (mapTicks s + 5 + 2 * s.cfg.tSettle) s →
    ∃ t u, exec (.pull p d) s = .next t ∧ Runs (mapTicks s + 4 + 2 * s.cfg.tSettle) (nextTick t) u
      ∧ u.ctl = { doneCtl (.pull p d) s with status := { (doneCtl (.pull p d) s).status with seq := .idle } }
      ∧ u.trace = s.trace ++
          [⟨.controller, s.tick + mapTicks s + 1, .write, s.cfg.periphBase + 0x94, d.setWidth 32⟩,
           ⟨.controller, s.tick + mapTicks s + 2 + s.cfg.tSettle, .write, s.cfg.periphBase + 0x98 + 4 * (p / 32), 1#32 <<< (p % 32)⟩,
           ⟨.controller, s.tick + mapTicks s + 3 + 2 * s.cfg.tSettle, .write, s.cfg.periphBase + 0x94, 0⟩,
           ⟨.controller, s.tick + mapTicks s + 4 + 2 * s.cfg.tSettle, .write, s.cfg.periphBase + 0x98 + 4 * (p / 32), 0⟩]
      ∧ u.periph.pudcode = 0 ∧ u.periph.pudT = some (s.tick + mapTicks s + 3 + 2 * s.cfg.tSettle)
      ∧ u.cfg = s.cfg ∧ u.grant = grantAfter s
      ∧ u.stale = s.stale.filter (fun q => strobeAsserted s.periph q && decide (q / 32 ≠ p / 32))

/-- From a quiescent window, with no other master acting (log 33), a completed PULL p, d leaves PCELL[p] = dir(d), every other pin
wholly unchanged, every latch and function unchanged, and the window quiescent (R216, R221, R224). -/
def Obligations.PullSetsTheCell : Prop :=
  ∀ (s : State) (p : Nat) (d : BitVec 2), Ready s → CanMap s → p < s.cfg.npins → d ≠ 3#2 → Quiescent s →
    Undisturbed (mapTicks s + 5 + 2 * s.cfg.tSettle) s →
    ∃ t u, exec (.pull p d) s = .next t ∧ Runs (mapTicks s + 4 + 2 * s.cfg.tSettle) (nextTick t) u
      ∧ (∀ q, u.periph.pins[q]? = (s.periph.pins[q]?).map (fun (pin : Pin) =>
          if q = p then { pin with
            strobe := none
            pcell := if d = 0#2 then .none else if d = 1#2 then .down else .up } else pin))
      ∧ Quiescent u

/-- Whatever the window held, after a PULL of p PUDCODE is 00 and CLK is 0 for every pin of bank p/32, the other bank's clock
bits and every latch and function are unchanged (R222, R225). -/
def Obligations.PullQuiescesItsBank : Prop :=
  ∀ (s : State) (p : Nat) (d : BitVec 2), Ready s → CanMap s → p < s.cfg.npins → d ≠ 3#2 →
    Undisturbed (mapTicks s + 5 + 2 * s.cfg.tSettle) s →
    ∃ t u, exec (.pull p d) s = .next t ∧ Runs (mapTicks s + 4 + 2 * s.cfg.tSettle) (nextTick t) u
      ∧ u.periph.pudcode = 0
      ∧ u.periph.pins.length = s.periph.pins.length
      ∧ (∀ (q : Nat) (pin pin' : Pin), s.periph.pins[q]? = some pin → u.periph.pins[q]? = some pin' →
          pin'.func = pin.func ∧ pin'.latch = pin.latch
          ∧ (q / 32 = p / 32 → pin'.clk = false)
          ∧ (q / 32 ≠ p / 32 → pin'.clk = pin.clk ∧ pin'.pcell = pin.pcell))

/-- A PULL does not recover a strobe left asserted: the cell of p, if its strobe was asserted when the PULL was accepted, and
the cell of every other pin of the bank whose strobe was asserted, are left unknown (R85, R284). -/
def Obligations.StaleStrobeIsNotRecovered : Prop :=
  ∀ (s : State) (p : Nat) (d : BitVec 2), Ready s → CanMap s → p < s.cfg.npins → d ≠ 3#2 →
    (∀ pin ∈ s.periph.pins, PinOk pin) →
    Undisturbed (mapTicks s + 5 + 2 * s.cfg.tSettle) s →
    ∃ t u, exec (.pull p d) s = .next t ∧ Runs (mapTicks s + 4 + 2 * s.cfg.tSettle) (nextTick t) u
      ∧ (∀ (q : Nat) (pin pin' : Pin), s.periph.pins[q]? = some pin → u.periph.pins[q]? = some pin' →
          pin.clk = true → q / 32 = p / 32 →
          pin'.pcell = Config.freePull (s.draws + mapTicks s + (if q = p then 3 else 1)) q)

/-- The timetable of R218: SEQ and BUSY after each tick of a PULL's body. -/
def Obligations.PullTimetable : Prop :=
  ∀ (s : State) (p : Nat) (d : BitVec 2) (k : Nat), Ready s → CanMap s → s.ctl.status.seq = .idle → p < s.cfg.npins → d ≠ 3#2 →
    k ≤ 4 + 2 * s.cfg.tSettle → Undisturbed (mapTicks s + 5 + 2 * s.cfg.tSettle) s →
    ∃ t u, exec (.pull p d) s = .next t ∧ Runs (mapTicks s + k) (nextTick t) u
      ∧ u.ctl.status.seq = (if k = 0 then .idle else if k ≤ 1 + s.cfg.tSettle then .loaded
          else if k ≤ 3 + 2 * s.cfg.tSettle then .clocked else .idle)
      ∧ u.ctl.status.busy = decide (k < 4 + 2 * s.cfg.tSettle)

/-- BUSY is 1 for exactly the ticks of R290 after acceptance, one more when the window is still to be mapped; then it is 0. -/
def Obligations.BusyForTheTabulatedTicks : Prop :=
  ∀ (i : Instr) (s : State) (k : Nat), Ready s → CanMap s → operandsPass s.cfg i →
    k ≤ mapTicks s + commandTicks s.cfg i → Undisturbed (mapTicks s + commandTicks s.cfg i + 1) s →
    ∃ t u, exec i s = .next t ∧ Runs k (nextTick t) u
      ∧ u.ctl.status.busy = decide (k < mapTicks s + commandTicks s.cfg i)

/-- A GET that follows a SET or a CLR of the same output pin, both held at the port in that order (log 12), reads
the new latch (R97, R191, R194). -/
def Obligations.LevelReadsBackTheLatch : Prop :=
  ∀ (s : State) (p : Nat) (pin : Pin) (high : Bool) (ws : List Word), Ready s → CanMap s → p < s.cfg.npins →
    s.periph.pins[p]? = some pin → pin.func = s.cfg.fselOutput → Undisturbed (mapTicks s + 4) s →
    s.port = encode (if high then .set p else .clr p) :: encode (.get p) :: ws →
    ∃ u, Runs (mapTicks s + 4) s u ∧ u.ctl.status.level = high ∧ u.ctl.status.resultValid = true ∧ u.ctl.status.busy = false

/-- Reading back a function-select bank after FSEL p, f: the field of p is f and every other field of a pin is what it was (R202). -/
def Obligations.FselReadsBack : Prop :=
  ∀ (s : State) (p : Nat) (f : BitVec 3) (ws : List Word), Ready s → CanMap s → p < s.cfg.npins → Sized s →
    Undisturbed (mapTicks s + 3) s →
    s.port = encode (.fsel p f) :: ws →
    ∃ u, Runs (mapTicks s + 3) s u ∧ u.ctl.status.busy = false
      ∧ ∀ (draw draw' q : Nat), q < s.cfg.npins →
          (readReg u.cfg draw u.periph (.fsel (q / 10))).extractLsb' (q % 10 * 3) 3
            = if q = p then f else (readReg s.cfg draw' s.periph (.fsel (q / 10))).extractLsb' (q % 10 * 3) 3

/-- Final writer wins: PULL p, d then PULL p, d' from a quiescent window, written by the host one after the other,
leave PCELL[p] = dir(d'), the window quiescent, and the last PUD value before the final quiescent-clear is d' (R226). That the
port's words are served in their order is log 12's. -/
def Obligations.FinalPullWins : Prop :=
  ∀ (s : State) (p : Nat) (pin : Pin) (d d' : BitVec 2) (ws : List Word), Ready s → CanMap s → p < s.cfg.npins → d ≠ 3#2 → d' ≠ 3#2 →
    Quiescent s → s.periph.pins[p]? = some pin → Undisturbed (mapTicks s + 10 + 4 * s.cfg.tSettle) s →
    s.port = encode (.pull p d) :: encode (.pull p d') :: ws →
    ∃ u pin', Runs (mapTicks s + 10 + 4 * s.cfg.tSettle) s u ∧ u.ctl.status.busy = false ∧ Quiescent u
      ∧ u.periph.pins[p]? = some pin'
      ∧ pin'.pcell = (if d' = 0#2 then .none else if d' = 1#2 then .down else .up)
      ∧ ∃ earlier t1 t2 t3 t4, u.trace = earlier ++
          [⟨.controller, t1, .write, s.cfg.periphBase + 0x94, d'.setWidth 32⟩,
           ⟨.controller, t2, .write, s.cfg.periphBase + 0x98 + 4 * (p / 32), 1#32 <<< (p % 32)⟩,
           ⟨.controller, t3, .write, s.cfg.periphBase + 0x94, 0⟩,
           ⟨.controller, t4, .write, s.cfg.periphBase + 0x98 + 4 * (p / 32), 0⟩]

/-! ## The peripheral's registers and other masters (20_memory) -/

/-- A level bank reads, for a pin p of it, the latch of an output pin and the environment's level for any other (R79, R80). That
level is a free value of the read's draw number and the pin (log 5); that every read takes a new number is stated by
GetReportsLevel and OtherMasterAccessIsPerformed. -/
def Obligations.LevelBankRead : Prop :=
  ∀ (c : Config) (draw b i : Nat) (per : Periph) (pin : Pin), i < 32 → per.pins[32 * b + i]? = some pin →
    (readReg c draw per (.lev b)).getLsbD i
      = if pin.func = c.fselOutput then pin.latch else Config.env draw (32 * b + i)

/-- A bank of PUD reads PUDCODE in bits 1:0, a pull-clock bank reads the clock bit of each of its pins, a function-select bank
the function of each of its pins (R76, R82, R86). -/
def Obligations.FunctionAndPullRegisterReads : Prop :=
  ∀ (c : Config) (draw b : Nat) (per : Periph),
    (readReg c draw per .pud).extractLsb' 0 2 = per.pudcode
    ∧ (∀ (i : Nat) (pin : Pin), i < 32 → per.pins[32 * b + i]? = some pin →
        (readReg c draw per (.pudclk b)).getLsbD i = pin.clk)
    ∧ (∀ (k : Nat) (pin : Pin), k < 10 → per.pins[10 * b + k]? = some pin →
        (readReg c draw per (.fsel b)).extractLsb' (3 * k) 3 = pin.func)

/-- A write of v to a function-select bank, then a read of any function-select bank: the written fields hold v's, the other
banks' fields are unchanged; the write changes no latch, clock bit, cell or strobe of any pin, and neither PUDCODE nor PUD_T (R76). -/
def Obligations.FselBankWriteThenRead : Prop :=
  ∀ (c : Config) (x : WriteCtx) (b : Nat) (v : Word) (per : Periph),
    (∀ draw draw' b' k : Nat, k < 10 → 10 * b' + k < per.pins.length →
      (readReg c draw (writeReg c x (.fsel b) v per) (.fsel b')).extractLsb' (3 * k) 3
        = (if b' = b then v.extractLsb' (3 * k) 3 else (readReg c draw' per (.fsel b')).extractLsb' (3 * k) 3))
    ∧ (∀ q, (writeReg c x (.fsel b) v per).pins[q]? = (per.pins[q]?).map (fun (pin : Pin) =>
        { pin with func := if q / 10 = b then v.extractLsb' (3 * (q % 10)) 3 else pin.func }))
    ∧ (writeReg c x (.fsel b) v per).pudcode = per.pudcode ∧ (writeReg c x (.fsel b) v per).pudT = per.pudT

/-- A write to a set or clear bank changes the latches its one-bits name and nothing else; a write to a level bank changes
nothing (R77, R78, R81). -/
def Obligations.LatchBankWrites : Prop :=
  ∀ (c : Config) (x : WriteCtx) (b : Nat) (v : Word) (per : Periph),
    (∀ q, (writeReg c x (.set b) v per).pins[q]? = (per.pins[q]?).map (fun (pin : Pin) =>
      { pin with latch := pin.latch || (decide (q / 32 = b) && v.getLsbD (q % 32)) }))
    ∧ (∀ q, (writeReg c x (.clr b) v per).pins[q]? = (per.pins[q]?).map (fun (pin : Pin) =>
      { pin with latch := pin.latch && !(decide (q / 32 = b) && v.getLsbD (q % 32)) }))
    ∧ writeReg c x (.lev b) v per = per
    ∧ (∀ r, r = .set b ∨ r = .clr b → (writeReg c x r v per).pudcode = per.pudcode ∧ (writeReg c x r v per).pudT = per.pudT)

/-- A write to PUD at tick t sets PUDCODE and PUD_T, and each active strobe is no longer held, in its first T_HW_MIN ticks, or
counts a late write (R82, R84). That tick t_start itself is among the first ones is R84's bound, which 10_state R45 does not have
(log 34). -/
def Obligations.PullControlWrite : Prop :=
  ∀ (c : Config) (x : WriteCtx) (v : Word) (per : Periph),
    (writeReg c x .pud v per).pudcode = v.extractLsb' 0 2 ∧ (writeReg c x .pud v per).pudT = some x.tick
    ∧ (∀ (q : Nat) (pin : Pin), per.pins[q]? = some pin →
        (writeReg c x .pud v per).pins[q]? = some { pin with
          strobe := if pin.clk = true then pin.strobe.map (fun st =>
            if x.tick ≤ st.tStart + c.tHwMin then { st with held := false }
            else { st with late := st.late + 1, lateT := some x.tick }) else pin.strobe })

/-- A write to a pull-clock bank: a bit 0 to 1 starts a strobe, 1 to 0 ends it and decides the cell, any other leaves the pin as
it is; the other bank is untouched (R83, R84, R85, R87). An unknown cell is a free value (log 7), a strobe before any PUD write is
settled (log 23), and a strobe of an open pin (`openPins`) leaves the cell free, where other rules contradict R85's formula (logs 32,
35). -/
def Obligations.PullClockWrite : Prop :=
  ∀ (c : Config) (x : WriteCtx) (b q : Nat) (v : Word) (per : Periph) (pin : Pin), per.pins[q]? = some pin →
    ∃ pin', (writeReg c x (.pudclk b) v per).pins[q]? = some pin'
      ∧ (q / 32 ≠ b → pin' = pin)
      ∧ (q / 32 = b → pin'.clk = v.getLsbD (q % 32) ∧ pin'.func = pin.func ∧ pin'.latch = pin.latch)
      ∧ (q / 32 = b → v.getLsbD (q % 32) = pin.clk → pin' = pin)
      ∧ (q / 32 = b → pin.clk = false → v.getLsbD (q % 32) = true →
          pin'.pcell = Config.freePull x.draw q
          ∧ pin'.strobe = some ⟨x.tick, per.pudcode,
              (match per.pudT with | none => true | some t => decide ((c.tHwMin : Int) ≤ (x.tick : Int) - t - 1)), true, 0, none⟩)
      ∧ (∀ st, q / 32 = b → pin.clk = true → v.getLsbD (q % 32) = false → pin.strobe = some st →
          pin'.strobe = none
          ∧ ((q ∉ x.openPins ∧ st.settled = true ∧ st.held = true ∧ st.code ≠ 3#2
                ∧ (st.late = 0 ∨ (st.late = 1 ∧ ∃ t', st.lateT = some t' ∧ x.tick = t' + 1 ∧ x.lastPud = some t'))) →
              pin'.pcell = if st.code = 0#2 then .none else if st.code = 1#2 then .down else .up)
          ∧ (¬ (q ∉ x.openPins ∧ st.settled = true ∧ st.held = true ∧ st.code ≠ 3#2
                ∧ (st.late = 0 ∨ (st.late = 1 ∧ ∃ t', st.lateT = some t' ∧ x.tick = t' + 1 ∧ x.lastPud = some t'))) →
              pin'.pcell = Config.freePull x.draw q))

/-- Lost update: in the tick of FSEL's write, whatever other masters wrote since its read, every field of the bank takes the
value the controller read, with the field of p set to f (R100, R203). -/
def Obligations.FselWriteLosesOtherUpdates : Prop :=
  ∀ (s : State), Invariant s → s.ctl.status.busy = true → s.ctl.cur.op = .fsel → s.ctl.uidx + 1 = s.ctl.prog.length →
    ∃ u, microStep s = .next u
      ∧ (∀ (q : Nat) (pin : Pin), s.periph.pins[q]? = some pin →
          u.periph.pins[q]? = some (if q / 10 = s.ctl.cur.pin / 10 then { pin with
              func := if q = s.ctl.cur.pin then s.ctl.cur.arg else s.ctl.tmp.extractLsb' (q % 10 * 3) 3 } else pin))

/-- SET and CLR lose no other agent's update: their write changes the latch of their pin alone, whatever the peripheral holds in
that tick (R192, R195). -/
def Obligations.SetAndClrLoseNoUpdate : Prop :=
  ∀ (s : State), Invariant s → s.ctl.status.busy = true → (s.ctl.cur.op = .set ∨ s.ctl.cur.op = .clr) →
    s.ctl.uidx + 1 = s.ctl.prog.length → s.ctl.status.mapped = true →
    ∃ u, microStep s = .next u ∧ u.periph.pudcode = s.periph.pudcode ∧ u.periph.pudT = s.periph.pudT
      ∧ (∀ (q : Nat) (pin : Pin), s.periph.pins[q]? = some pin →
          u.periph.pins[q]? = some (if q = s.ctl.cur.pin then { pin with latch := decide (s.ctl.cur.op = .set) } else pin))

/-- An other master's write is seen: with OTHER_MASTERS true, its aligned access to a register is performed at once on the same
registers, recorded in TRACE, and touches neither the controller nor the port (R97, R101). Each access takes a draw number that no
later one takes (R80, R89: a fresh draw at every read; logs 5, 6, 8). -/
def Obligations.OtherMasterAccessIsPerformed : Prop :=
  ∀ (s : State) (id : Nat) (r : Reg) (v : Option Word), configOk s.cfg = true → s.cfg.otherMasters = true → r ∈ allRegs s.cfg →
    ∃ u, otherAccess ⟨id, physAddr s.cfg r, v⟩ s = .next u
      ∧ u.ctl = s.ctl ∧ u.port = s.port ∧ u.tick = s.tick ∧ u.draws = s.draws + 1
      ∧ (v = none → u.periph = s.periph ∧ u.stale = s.stale
          ∧ u.trace = s.trace ++ [⟨.other id, s.tick, .read, physAddr s.cfg r, readReg s.cfg s.draws s.periph r⟩])
      ∧ (∀ w, v = some w → u.periph = writeReg s.cfg (writeCtx (.other id) s) r w s.periph ∧ u.stale = s.stale.filter (strobeAsserted u.periph)
          ∧ u.trace = s.trace ++ [⟨.other id, s.tick, .write, physAddr s.cfg r, w⟩])

/-- An other master's write to a pull-clock bank between steps 1 and 5b of a PULL of p discards every strobe that it ends. The cell
of p itself ends unknown, whatever R85's formula would give (R100, 43_pull R223, 70_reset R283(b)): that R223 goes before the formula
is the model's choice (log 32), and unknown is a free value (log 7). The cell of any other pin that is not stale (log 35) is judged
by R85, as R223 says: with no late PUD write, a settled and held strobe latches its code. -/
def Obligations.OtherMasterEndsAStrobeDuringPull : Prop :=
  ∀ (s : State) (id b q : Nat) (v : Word) (pin : Pin), configOk s.cfg = true → s.cfg.otherMasters = true →
    s.ctl.status.seq ≠ .idle → Reg.pudclk b ∈ allRegs s.cfg → q / 32 = b → s.periph.pins[q]? = some pin →
    pin.clk = true → v.getLsbD (q % 32) = false →
    ∃ u pin', otherAccess ⟨id, physAddr s.cfg (.pudclk b), some v⟩ s = .next u ∧ u.ctl = s.ctl
      ∧ u.periph.pins[q]? = some pin' ∧ pin'.clk = false ∧ pin'.strobe = none ∧ pin'.func = pin.func ∧ pin'.latch = pin.latch
      ∧ (q = s.ctl.cur.pin → pin'.pcell = Config.freePull s.draws q)
      ∧ (∀ st, q ≠ s.ctl.cur.pin → q ∉ s.stale → pin.strobe = some st → st.settled = true → st.held = true → st.code ≠ 3#2 → st.late = 0 →
          pin'.pcell = if st.code = 0#2 then .none else if st.code = 1#2 then .down else .up)

/-- An other master's write that ends the stale strobe of an interrupted PULL leaves the cell unknown, whatever R85's formula would
give (70_reset R284, 93 U11), and the pin is no longer stale; where no PULL runs, a strobe that is not stale is judged by R85. The
stale pins are the model's record of which PULL was interrupted (log 35), and unknown is a free value (log 7). -/
def Obligations.OtherMasterEndsAStaleStrobe : Prop :=
  ∀ (s : State) (id b q : Nat) (v : Word) (pin : Pin), configOk s.cfg = true → s.cfg.otherMasters = true →
    Reg.pudclk b ∈ allRegs s.cfg → q / 32 = b → s.periph.pins[q]? = some pin → pin.clk = true → v.getLsbD (q % 32) = false →
    ∃ u pin', otherAccess ⟨id, physAddr s.cfg (.pudclk b), some v⟩ s = .next u ∧ u.periph.pins[q]? = some pin'
      ∧ pin'.clk = false ∧ pin'.strobe = none ∧ q ∉ u.stale
      ∧ (q ∈ s.stale → pin'.pcell = Config.freePull s.draws q)
      ∧ (∀ st, q ∉ s.stale → s.ctl.status.seq = .idle → pin.strobe = some st → st.settled = true → st.held = true →
          st.code ≠ 3#2 → st.late = 0 → pin'.pcell = if st.code = 0#2 then .none else if st.code = 1#2 then .down else .up)

/-! ## Reset (10_state R50 to R53, 70_reset) -/

/-- The state after reset, as far as the spec gives it: CMD, STATUS, PROG, uidx, WAITCNT, an unrequested mapping, a powered-on
peripheral (R50, R52, R53). CUR, TMP, WBASE, the tables, LATCH and PCELL are the model's choice (logs 9, 10) and not stated. -/
def Obligations.ResetValues : Prop :=
  hostReadCmd State.reset = 0 ∧ hostReadStatus State.reset = 0 ∧ State.reset.ctl.prog = [] ∧ State.reset.ctl.uidx = 0
    ∧ State.reset.ctl.waitcnt = 0 ∧ State.reset.grant = none ∧ State.reset.stale = [] ∧ PowerOn State.reset.cfg State.reset.periph

/-- A tick in which reset is asserted, with no other master acting: the controller performs no micro-operation and accepts no
command, its registers take the values of R50, and the peripheral and TRACE stay (R51, R270, R271). That the mapping is then not
requested is R53's value and log 20's choice, and that the words held at the port stay is log 12's choice. A PULL that the reset interrupts
with the strobe of its pin asserted makes that pin stale (R284; log 35). -/
def Obligations.ResetTick : Prop :=
  ∀ (s : State), configOk s.cfg = true → (tickInput s).reset = true → (tickInput s).before = [] → (tickInput s).after = [] →
    ∃ u, step s = .next u ∧ hostReadCmd u = 0 ∧ hostReadStatus u = 0 ∧ u.ctl.prog = [] ∧ u.ctl.uidx = 0 ∧ u.ctl.waitcnt = 0
      ∧ u.grant = none ∧ u.periph = s.periph ∧ u.trace = s.trace ∧ u.cfg = s.cfg
      ∧ u.port = s.port ++ commandWords (tickInput s).host
      ∧ (∀ q, q ∈ u.stale ↔ q ∈ s.stale
          ∨ (s.ctl.status.seq ≠ .idle ∧ q = s.ctl.cur.pin ∧ ∃ pin, s.periph.pins[q]? = some pin ∧ pin.clk = true))

/-! ## Invariants and whole-machine rules -/

/-- The invariants hold right after reset. -/
def Obligations.ResetMeetsInvariant : Prop := Invariant State.reset ∧ TraceOk State.reset

/-- The invariants hold at launch of any well-formed configuration with any powered-on peripheral (R52). -/
def Obligations.LaunchMeetsInvariant : Prop :=
  ∀ (c : Config) (per : Periph), configOk c = true → PowerOn c per →
    Invariant (State.launch c per) ∧ TraceOk (State.launch c per)

/-- Headline. Every step keeps the invariant of the machine, whatever the outside does: the flag invariants of R24, the shape of a
running micro-program (R27, R29, R30, R217), the mapping (R155), the strobe records (R45). -/
def Obligations.StepKeepsInvariant : Prop :=
  ∀ s t : State, Invariant s → step s = .next t → Invariant t

/-- Headline. Every step keeps the invariant of the window's traffic: TRACE in order, aligned, at registers only, and the
controller's alone when there are no other masters (R46, R90, R101, R172). -/
def Obligations.StepKeepsTraceInvariant : Prop :=
  ∀ s t : State, Invariant s → TraceOk s → step s = .next t → TraceOk t

/-- No step from a state with the invariant ends in a guard fault of the model (log 16), and when no other master acts it is not
refused either (R173, R243). The spec's own faults are STATUS bits of a next state. -/
def Obligations.StepNeverFails : Prop :=
  ∀ s : State, Invariant s →
    (∀ e, step s ≠ .fault e)
    ∧ ((tickInput s).before = [] → (tickInput s).after = [] → ∃ t, step s = .next t)

/-- Once MAPPED = 1, MAPPED, WBASE and every bank table keep their values in every tick without reset, whatever runs (R37, R155, R156). -/
def Obligations.MappingNeverChanges : Prop :=
  ∀ s t : State, Invariant s → s.ctl.status.mapped = true → (tickInput s).reset = false → step s = .next t →
    t.ctl.status.mapped = true ∧ t.ctl.wbase = s.ctl.wbase ∧ t.ctl.tables = s.ctl.tables ∧ t.grant = s.grant

/-- A fault is sticky: after FATAL or FAULT, a tick without reset changes of the controller's registers only CMD, RESULT_VALID
and REJECTED, and clears none of FATAL, FAULT, FAULT_CODE and REJECTED (R248, R249). -/
def Obligations.FaultIsSticky : Prop :=
  ∀ s t : State, Invariant s → (s.ctl.status.fatal = true ∨ s.ctl.status.fault = true) → (tickInput s).reset = false →
    step s = .next t →
    t.ctl = { s.ctl with
      cmd := t.ctl.cmd
      status := { s.ctl.status with resultValid := t.ctl.status.resultValid, rejected := t.ctl.status.rejected } }
    ∧ (s.ctl.status.rejected = true → t.ctl.status.rejected = true)

/-- Only a running GET writes LEVEL, in the tick it completes, and then RESULT_VALID is 1 (R25, R197). -/
def Obligations.OnlyGetWritesLevel : Prop :=
  ∀ s t : State, Invariant s → (tickInput s).reset = false → step s = .next t → t.ctl.status.level ≠ s.ctl.status.level →
    s.ctl.status.busy = true ∧ s.ctl.cur.op = .get ∧ t.ctl.status.resultValid = true ∧ t.ctl.status.busy = false

/-- With no other master, what may change a pin: its latch, a running SET or CLR of that pin; its function, a running FSEL of its
bank; its clock bit, strobe or cell, and PUDCODE, a running PULL (R94, R191, R194, R200, R215). -/
def Obligations.WhoMayChangeAPin : Prop :=
  ∀ (s t : State) (q : Nat) (pin pin' : Pin), Invariant s → (tickInput s).before = [] → (tickInput s).after = [] → step s = .next t →
    s.periph.pins[q]? = some pin → t.periph.pins[q]? = some pin' →
    (pin'.latch ≠ pin.latch → s.ctl.status.busy = true ∧ (s.ctl.cur.op = .set ∨ s.ctl.cur.op = .clr) ∧ s.ctl.cur.pin = q)
    ∧ (pin'.func ≠ pin.func → s.ctl.status.busy = true ∧ s.ctl.cur.op = .fsel ∧ s.ctl.cur.pin / 10 = q / 10)
    ∧ (pin'.clk ≠ pin.clk ∨ pin'.pcell ≠ pin.pcell → s.ctl.status.busy = true ∧ s.ctl.cur.op = .pull ∧ s.ctl.cur.pin / 32 = q / 32)
    ∧ (t.periph.pudcode ≠ s.periph.pudcode ∨ pin'.strobe ≠ pin.strobe → s.ctl.status.busy = true ∧ s.ctl.cur.op = .pull)

/-- While no command runs the controller issues no transaction: with no other master the peripheral and TRACE stay (R247). -/
def Obligations.IdleControllerIssuesNothing : Prop :=
  ∀ s t : State, s.ctl.status.busy = false → (tickInput s).before = [] → (tickInput s).after = [] → step s = .next t →
    t.periph = s.periph ∧ t.trace = s.trace

/-- No step changes the configuration: the parameters of R6 are fixed. -/
def Obligations.ConfigurationIsFixed : Prop :=
  ∀ s t : State, step s = .next t → t.cfg = s.cfg

/-- An accepted command cannot be interrupted by the host: what a busy tick without reset does to everything but the port does not
depend on the words the hosts hold or write (R31, R34). -/
def Obligations.HostCannotDisturbARunningCommand : Prop :=
  ∀ (s t : State) (ws : List Word) (hs : List HostWrite), s.ctl.status.busy = true → (tickInput s).reset = false →
    step s = .next t →
    ∃ t', step { s with port := ws, schedule := { tickInput s with host := hs } :: s.schedule.tail } = .next t'
      ∧ t' = { t with port := t'.port }

/-- The pseudo-instructions of the assembler and their expansions, for every pin operand it accepts (R132). -/
def Obligations.PseudoInstructions : Prop :=
  ∀ (c : Config) (p : List Char) (pin : Nat), parsePin p = some pin →
    parseTokens c ["OUTPUT".toList, p] = some (.fsel pin c.fselOutput)
    ∧ parseTokens c ["INPUT".toList, p] = some (.fsel pin 0b000#3)
    ∧ parseTokens c ["PULLUP".toList, p] = some (.pull pin 0b10#2)
    ∧ parseTokens c ["PULLDOWN".toList, p] = some (.pull pin 0b01#2)
    ∧ parseTokens c ["PULLOFF".toList, p] = some (.pull pin 0b00#2)
    ∧ parseTokens c ["HIGH".toList, p] = some (.set pin)
    ∧ parseTokens c ["LOW".toList, p] = some (.clr pin)
end

