-- ==== Sys2Proof/Laws/Decode.lean ====
section
/-! SUPPORT. The fields of a packed command, and a word put together again from its fields (30_encoding R121). -/

namespace Sys2Proof

/-- The five fields of a packed command are the ones it was packed from (R121). -/
theorem packCommand_fields (op : BitVec 4) (pin : Nat) (arg : BitVec 3) :
    opField (packCommand op pin arg) = op ∧ rsv0Field (packCommand op pin arg) = 0
    ∧ pinField (packCommand op pin arg) = BitVec.ofNat 8 pin ∧ argField (packCommand op pin arg) = arg
    ∧ rsv1Field (packCommand op pin arg) = 0 := by
  refine ⟨?_, ?_, ?_, ?_, ?_⟩ <;> apply BitVec.eq_of_getLsbD_eq <;> intro i hi <;>
    simp only [opField, rsv0Field, pinField, argField, rsv1Field, packCommand, BitVec.getLsbD_extractLsb',
      BitVec.getLsbD_append, hi, decide_true, Bool.true_and]
  · rw [if_pos (by omega)]; congr 1; omega
  · rw [if_neg (by omega), if_pos (by omega)]; simp
  · rw [if_neg (by omega), if_neg (by omega), if_pos (by omega)]; congr 1; omega
  · rw [if_neg (by omega), if_neg (by omega), if_neg (by omega), if_pos (by omega)]; congr 1; omega
  · rw [if_neg (by omega), if_neg (by omega), if_neg (by omega), if_neg (by omega)]; simp

/-- A word is its five fields, the high ones first (R121). -/
theorem fields_append (w : Word) : rsv1Field w ++ argField w ++ pinField w ++ rsv0Field w ++ opField w = w := by
  apply BitVec.eq_of_getLsbD_eq
  intro i hi
  simp only [opField, rsv0Field, pinField, argField, rsv1Field, BitVec.getLsbD_extractLsb', BitVec.getLsbD_append]
  split_ifs <;> rw [decide_eq_true (by omega), Bool.true_and] <;> congr 1 <;> omega

/-- A word whose reserved fields are zero is packed from its other fields (R121). -/
theorem packCommand_of_fields {w : Word} (h : reservedZero w = true) :
    packCommand (opField w) (pinField w).toNat (argField w) = w := by
  simp only [reservedZero, Bool.and_eq_true, beq_iff_eq] at h
  conv_rhs => rw [← fields_append w]
  rw [h.1, h.2, packCommand, BitVec.ofNat_toNat, BitVec.setWidth_eq]
  rfl

/-- PULL's ARG: the direction with a zero above it (R124). -/
theorem zero_append_extract (d : BitVec 2) : (0#1 ++ d).extractLsb' 0 2 = d := by
  apply BitVec.eq_of_getLsbD_eq
  intro j hj
  rw [BitVec.getLsbD_extractLsb', BitVec.getLsbD_append]
  simp [hj]

theorem zero_append_high (d : BitVec 2) : (0#1 ++ d).getLsbD 2 = false := by
  rw [BitVec.getLsbD_append]
  simp

/-- An ARG whose bit 2 is 0 is its low two bits with a zero above them (R124). -/
theorem extract_zero_append {a : BitVec 3} (h : a.getLsbD 2 = false) : 0#1 ++ a.extractLsb' 0 2 = a := by
  apply BitVec.eq_of_getLsbD_eq
  intro j hj
  rw [BitVec.getLsbD_append, BitVec.getLsbD_extractLsb']
  split
  · next h2 => simp [h2]
  · next h2 =>
    have : j = 2 := by omega
    subst this
    simpa using h.symm

theorem pinFits_iff (pin : Nat) : decide (pin < 2 ^ pinFieldWidth) = true ↔ pin < 256 := decide_eq_true_iff

/-- A command is well formed exactly when its pin, if it has one, fits 8 bits (R122). -/
theorem wellFormed_iff (i : Instr) : WellFormed i = true ↔ ∀ pin, i.pinOperand = some pin → pin < 256 := by
  cases i <;> simp only [Instr.pinOperand, Option.some.injEq, forall_eq', reduceCtorEq, false_imp_iff, implies_true]
  · exact ⟨fun _ => trivial, fun _ => rfl⟩
  all_goals exact pinFits_iff _

/-- What `checked` answers (R128). -/
theorem checked_eq_ok {b : Bool} {i j : Instr} : checked b i = .ok j ↔ b = true ∧ i = j := by
  cases b <;> simp [checked]

theorem checked_eq_error {b : Bool} {i : Instr} {e : DecodeError} :
    checked b i = .error e ↔ b = false ∧ e = .badEncoding := by
  cases b <;> simp [checked, eq_comm]

end Sys2Proof
end

