-- ==== Sys2Proof/Laws/State.lean ====
section
/-! SUPPORT. One lemma per update of the state: what each named operation leaves as it was, and what it writes. A conjunction
here is a list of rewriting rules for simp. -/

namespace Sys2Proof.Machine

/-! ## Updates of the controller leave everything outside it -/

@[simp] theorem onStatus_outside (f : Status → Status) (s : State) :
    (onStatus f s).cfg = s.cfg ∧ (onStatus f s).periph = s.periph ∧ (onStatus f s).grant = s.grant
    ∧ (onStatus f s).port = s.port ∧ (onStatus f s).schedule = s.schedule ∧ (onStatus f s).tick = s.tick
    ∧ (onStatus f s).draws = s.draws ∧ (onStatus f s).trace = s.trace := by
  exact ⟨rfl, rfl, rfl, rfl, rfl, rfl, rfl, rfl⟩

@[simp] theorem onStatus_ctl (f : Status → Status) (s : State) :
    (onStatus f s).ctl = { s.ctl with status := f s.ctl.status } := rfl

@[simp] theorem faultEntry_outside (c : FaultCode) (s : State) :
    (faultEntry c s).cfg = s.cfg ∧ (faultEntry c s).periph = s.periph ∧ (faultEntry c s).grant = s.grant
    ∧ (faultEntry c s).port = s.port ∧ (faultEntry c s).schedule = s.schedule ∧ (faultEntry c s).tick = s.tick
    ∧ (faultEntry c s).draws = s.draws ∧ (faultEntry c s).trace = s.trace := by
  exact ⟨rfl, rfl, rfl, rfl, rfl, rfl, rfl, rfl⟩

@[simp] theorem rejectEntry_outside (s : State) :
    (rejectEntry s).cfg = s.cfg ∧ (rejectEntry s).periph = s.periph ∧ (rejectEntry s).grant = s.grant
    ∧ (rejectEntry s).port = s.port ∧ (rejectEntry s).schedule = s.schedule ∧ (rejectEntry s).tick = s.tick
    ∧ (rejectEntry s).draws = s.draws ∧ (rejectEntry s).trace = s.trace := by
  exact ⟨rfl, rfl, rfl, rfl, rfl, rfl, rfl, rfl⟩

@[simp] theorem latchCommand_outside (w : Word) (s : State) :
    (latchCommand w s).cfg = s.cfg ∧ (latchCommand w s).periph = s.periph ∧ (latchCommand w s).grant = s.grant
    ∧ (latchCommand w s).port = s.port ∧ (latchCommand w s).schedule = s.schedule ∧ (latchCommand w s).tick = s.tick
    ∧ (latchCommand w s).draws = s.draws ∧ (latchCommand w s).trace = s.trace := by
  exact ⟨rfl, rfl, rfl, rfl, rfl, rfl, rfl, rfl⟩

@[simp] theorem latchCommand_ctl (w : Word) (s : State) :
    (latchCommand w s).ctl = { s.ctl with cmd := w, status := clearResult s.ctl.status } := rfl

@[simp] theorem startCommand_outside (cur : Cur) (body : List MicroOp) (s : State) :
    (startCommand cur body s).cfg = s.cfg ∧ (startCommand cur body s).periph = s.periph
    ∧ (startCommand cur body s).grant = s.grant ∧ (startCommand cur body s).port = s.port
    ∧ (startCommand cur body s).schedule = s.schedule ∧ (startCommand cur body s).tick = s.tick
    ∧ (startCommand cur body s).draws = s.draws ∧ (startCommand cur body s).trace = s.trace := by
  exact ⟨rfl, rfl, rfl, rfl, rfl, rfl, rfl, rfl⟩

@[simp] theorem startCommand_ctl (cur : Cur) (body : List MicroOp) (s : State) :
    (startCommand cur body s).ctl = { s.ctl with
      cur := cur, prog := mapFirst s ++ body, uidx := 0, waitcnt := 0
      status := setBusy (!(mapFirst s ++ body).isEmpty) s.ctl.status } := rfl

@[simp] theorem loadTmp_outside (v : Word) (s : State) :
    (loadTmp v s).cfg = s.cfg ∧ (loadTmp v s).periph = s.periph ∧ (loadTmp v s).grant = s.grant
    ∧ (loadTmp v s).port = s.port ∧ (loadTmp v s).schedule = s.schedule ∧ (loadTmp v s).tick = s.tick
    ∧ (loadTmp v s).draws = s.draws ∧ (loadTmp v s).trace = s.trace := by
  exact ⟨rfl, rfl, rfl, rfl, rfl, rfl, rfl, rfl⟩

@[simp] theorem loadTmp_ctl (v : Word) (s : State) : (loadTmp v s).ctl = { s.ctl with tmp := v } := rfl

@[simp] theorem getResult_outside (s : State) :
    (getResult s).cfg = s.cfg ∧ (getResult s).periph = s.periph ∧ (getResult s).grant = s.grant
    ∧ (getResult s).port = s.port ∧ (getResult s).schedule = s.schedule ∧ (getResult s).tick = s.tick
    ∧ (getResult s).draws = s.draws ∧ (getResult s).trace = s.trace := by
  unfold getResult
  split <;> exact ⟨rfl, rfl, rfl, rfl, rfl, rfl, rfl, rfl⟩

theorem getResult_ctl (s : State) :
    (getResult s).ctl = { s.ctl with status :=
      if s.ctl.cur.op = .get then recordLevel (s.ctl.tmp.getLsbD (s.ctl.cur.pin % 32)) s.ctl.status else s.ctl.status } := by
  unfold getResult
  split <;> rfl

@[simp] theorem complete_outside (s : State) :
    (complete s).cfg = s.cfg ∧ (complete s).periph = s.periph ∧ (complete s).grant = s.grant
    ∧ (complete s).port = s.port ∧ (complete s).schedule = s.schedule ∧ (complete s).tick = s.tick
    ∧ (complete s).draws = s.draws ∧ (complete s).trace = s.trace := by
  exact ⟨rfl, rfl, rfl, rfl, rfl, rfl, rfl, rfl⟩

@[simp] theorem advance_outside (s : State) :
    (advance s).cfg = s.cfg ∧ (advance s).periph = s.periph ∧ (advance s).grant = s.grant
    ∧ (advance s).port = s.port ∧ (advance s).schedule = s.schedule ∧ (advance s).tick = s.tick
    ∧ (advance s).draws = s.draws ∧ (advance s).trace = s.trace := by
  unfold advance
  dsimp only
  split <;> exact ⟨rfl, rfl, rfl, rfl, rfl, rfl, rfl, rfl⟩

/-- advance in the last micro-operation completes the command (10_state R32, R33). -/
theorem advance_last (s : State) (h : s.ctl.uidx + 1 = s.ctl.prog.length) :
    (advance s).ctl = { s.ctl with prog := [], uidx := 0, status := setBusy false s.ctl.status } := by
  unfold advance
  dsimp only
  rw [if_pos h]
  rfl

/-- advance before the last micro-operation moves uidx by one (10_state R27). -/
theorem advance_notLast (s : State) (h : s.ctl.uidx + 1 ≠ s.ctl.prog.length) :
    (advance s).ctl = { s.ctl with uidx := s.ctl.uidx + 1 } := by
  unfold advance
  dsimp only
  rw [if_neg h]

@[simp] theorem waitStep_outside (n : Nat) (s : State) :
    (waitStep n s).cfg = s.cfg ∧ (waitStep n s).periph = s.periph ∧ (waitStep n s).grant = s.grant
    ∧ (waitStep n s).port = s.port ∧ (waitStep n s).schedule = s.schedule ∧ (waitStep n s).tick = s.tick
    ∧ (waitStep n s).draws = s.draws ∧ (waitStep n s).trace = s.trace := by
  unfold waitStep
  split <;> simp

@[simp] theorem mapStep_outside (s : State) :
    (mapStep s).cfg = s.cfg ∧ (mapStep s).periph = s.periph ∧ (mapStep s).port = s.port
    ∧ (mapStep s).schedule = s.schedule ∧ (mapStep s).tick = s.tick ∧ (mapStep s).draws = s.draws + 1
    ∧ (mapStep s).trace = s.trace := by
  unfold mapStep
  dsimp only
  split <;> simp [mapSuccess, mapFailure]

@[simp] theorem controllerReset_outside (s : State) :
    (controllerReset s).cfg = s.cfg ∧ (controllerReset s).periph = s.periph ∧ (controllerReset s).port = s.port
    ∧ (controllerReset s).schedule = s.schedule ∧ (controllerReset s).tick = s.tick
    ∧ (controllerReset s).draws = s.draws ∧ (controllerReset s).trace = s.trace := by
  exact ⟨rfl, rfl, rfl, rfl, rfl, rfl, rfl⟩

/-! ## Window transactions leave the controller -/

@[simp] theorem logAccess_fields (ag : Agent) (k : Kind) (a : Nat) (v : Word) (s : State) :
    (logAccess ag k a v s).cfg = s.cfg ∧ (logAccess ag k a v s).ctl = s.ctl ∧ (logAccess ag k a v s).periph = s.periph
    ∧ (logAccess ag k a v s).grant = s.grant ∧ (logAccess ag k a v s).port = s.port
    ∧ (logAccess ag k a v s).schedule = s.schedule ∧ (logAccess ag k a v s).tick = s.tick
    ∧ (logAccess ag k a v s).draws = s.draws + 1
    ∧ (logAccess ag k a v s).trace = s.trace ++ [⟨ag, s.tick, k, a, v⟩] := by
  exact ⟨rfl, rfl, rfl, rfl, rfl, rfl, rfl, rfl, rfl⟩

/-- The controller's own writes end a strobe as R85 says (20_memory R85). -/
@[simp] theorem openPins_controller (s : State) : openPins .controller s = [] := rfl

@[simp] theorem openPins_other (id : Nat) (s : State) :
    openPins (.other id) s = if s.ctl.status.seq = .idle then s.stale else s.ctl.cur.pin :: s.stale := rfl

@[simp] theorem busWrite_fields (ag : Agent) (a : Nat) (r : Reg) (v : Word) (s : State) :
    (busWrite ag a r v s).cfg = s.cfg ∧ (busWrite ag a r v s).ctl = s.ctl
    ∧ (busWrite ag a r v s).periph = writeReg s.cfg (writeCtx ag s) r v s.periph
    ∧ (busWrite ag a r v s).grant = s.grant ∧ (busWrite ag a r v s).port = s.port
    ∧ (busWrite ag a r v s).schedule = s.schedule ∧ (busWrite ag a r v s).tick = s.tick
    ∧ (busWrite ag a r v s).draws = s.draws + 1
    ∧ (busWrite ag a r v s).trace = s.trace ++ [⟨ag, s.tick, .write, a, v⟩] := by
  exact ⟨rfl, rfl, rfl, rfl, rfl, rfl, rfl, rfl, rfl⟩

@[simp] theorem busRead_value (ag : Agent) (a : Nat) (r : Reg) (s : State) :
    (busRead ag a r s).1 = readReg s.cfg s.draws s.periph r := rfl

@[simp] theorem busRead_fields (ag : Agent) (a : Nat) (r : Reg) (s : State) :
    (busRead ag a r s).2.cfg = s.cfg ∧ (busRead ag a r s).2.ctl = s.ctl ∧ (busRead ag a r s).2.periph = s.periph
    ∧ (busRead ag a r s).2.grant = s.grant ∧ (busRead ag a r s).2.port = s.port
    ∧ (busRead ag a r s).2.schedule = s.schedule ∧ (busRead ag a r s).2.tick = s.tick
    ∧ (busRead ag a r s).2.draws = s.draws + 1
    ∧ (busRead ag a r s).2.trace = s.trace ++ [⟨ag, s.tick, .read, a, readReg s.cfg s.draws s.periph r⟩] := by
  exact ⟨rfl, rfl, rfl, rfl, rfl, rfl, rfl, rfl, rfl⟩

/-! ## The port and the tick -/

@[simp] theorem setPort_fields (ws : List Word) (s : State) :
    (setPort ws s).cfg = s.cfg ∧ (setPort ws s).ctl = s.ctl ∧ (setPort ws s).periph = s.periph
    ∧ (setPort ws s).grant = s.grant ∧ (setPort ws s).port = ws ∧ (setPort ws s).schedule = s.schedule
    ∧ (setPort ws s).tick = s.tick ∧ (setPort ws s).draws = s.draws ∧ (setPort ws s).trace = s.trace := by
  exact ⟨rfl, rfl, rfl, rfl, rfl, rfl, rfl, rfl, rfl⟩

@[simp] theorem hostArrivals_fields (s : State) :
    (hostArrivals s).cfg = s.cfg ∧ (hostArrivals s).ctl = s.ctl ∧ (hostArrivals s).periph = s.periph
    ∧ (hostArrivals s).grant = s.grant ∧ (hostArrivals s).port = s.port ++ commandWords (tickInput s).host
    ∧ (hostArrivals s).schedule = s.schedule ∧ (hostArrivals s).tick = s.tick ∧ (hostArrivals s).draws = s.draws
    ∧ (hostArrivals s).trace = s.trace := by
  exact ⟨rfl, rfl, rfl, rfl, rfl, rfl, rfl, rfl, rfl⟩

@[simp] theorem nextTick_fields (s : State) :
    (nextTick s).cfg = s.cfg ∧ (nextTick s).ctl = s.ctl ∧ (nextTick s).periph = s.periph
    ∧ (nextTick s).grant = s.grant ∧ (nextTick s).port = s.port ∧ (nextTick s).schedule = s.schedule.tail
    ∧ (nextTick s).tick = s.tick + 1 ∧ (nextTick s).draws = s.draws ∧ (nextTick s).trace = s.trace := by
  exact ⟨rfl, rfl, rfl, rfl, rfl, rfl, rfl, rfl, rfl⟩

/-! ## The stale pins: a reset may add one, a write drops those whose strobe it ends, nothing else changes them -/

@[simp] theorem onStatus_stale (f : Status → Status) (s : State) : (onStatus f s).stale = s.stale := rfl

@[simp] theorem faultEntry_stale (c : FaultCode) (s : State) : (faultEntry c s).stale = s.stale := rfl

@[simp] theorem rejectEntry_stale (s : State) : (rejectEntry s).stale = s.stale := rfl

@[simp] theorem latchCommand_stale (w : Word) (s : State) : (latchCommand w s).stale = s.stale := rfl

@[simp] theorem startCommand_stale (cur : Cur) (body : List MicroOp) (s : State) : (startCommand cur body s).stale = s.stale := rfl

@[simp] theorem loadTmp_stale (v : Word) (s : State) : (loadTmp v s).stale = s.stale := rfl

@[simp] theorem getResult_stale (s : State) : (getResult s).stale = s.stale := by
  unfold getResult
  split <;> rfl

@[simp] theorem advance_stale (s : State) : (advance s).stale = s.stale := by
  unfold advance
  dsimp only
  split <;> rfl

@[simp] theorem waitStep_stale (n : Nat) (s : State) : (waitStep n s).stale = s.stale := by
  unfold waitStep
  split <;> simp

@[simp] theorem mapStep_stale (s : State) : (mapStep s).stale = s.stale := by
  unfold mapStep
  dsimp only
  split <;> simp [mapSuccess, mapFailure]

@[simp] theorem controllerReset_stale (s : State) : (controllerReset s).stale = staleAfterReset s := rfl

@[simp] theorem busWrite_stale (ag : Agent) (a : Nat) (r : Reg) (v : Word) (s : State) :
    (busWrite ag a r v s).stale = s.stale.filter (strobeAsserted (writeReg s.cfg (writeCtx ag s) r v s.periph)) := rfl

@[simp] theorem busRead_stale (ag : Agent) (a : Nat) (r : Reg) (s : State) : (busRead ag a r s).2.stale = s.stale := rfl

@[simp] theorem setPort_stale (ws : List Word) (s : State) : (setPort ws s).stale = s.stale := rfl

@[simp] theorem hostArrivals_stale (s : State) : (hostArrivals s).stale = s.stale := rfl

@[simp] theorem nextTick_stale (s : State) : (nextTick s).stale = s.stale := rfl

/-! ## Outcomes -/

@[simp] theorem andThen_next (s : State) (f : State → Result) : andThen (.next s) f = f s := rfl

@[simp] theorem andThen_fault (e : Fault) (f : State → Result) : andThen (.fault e) f = .fault e := rfl

@[simp] theorem andThen_refused (e : Refusal) (f : State → Result) : andThen (.refused e) f = .refused e := rfl

/-- What goes on after a part of a step is what goes on after its next state. -/
theorem andThen_eq_next {o : Result} {f : State → Result} {t : State} (h : andThen o f = .next t) :
    ∃ s, o = .next s ∧ f s = .next t := by
  cases o with
  | next s => exact ⟨s, rfl, h⟩
  | fault e => cases h
  | refused e => cases h

end Sys2Proof.Machine
end

