-- ==== Sys2Proof/Laws/Window.lean ====
section
/-! SUPPORT. What the bit helpers, REGMAP, the bank tables and the peripheral's registers do, said once. -/

namespace Sys2Proof.Machine

/-! ## Words from bits -/

theorem ofBits_getLsbD (n : Nat) (f : Nat → Bool) (i : Nat) :
    (ofBits n f).getLsbD i = (decide (i < n) && f i) := by
  induction n with
  | zero => simp [ofBits]
  | succ n ih =>
    simp only [ofBits, BitVec.getLsbD_cons, ih]
    split
    · next h => subst h; simp
    · next h =>
      have : (i < n + 1) ↔ i < n := by omega
      simp [this]

theorem readReg_getLsbD (c : Config) (draw : Nat) (per : Periph) (r : Reg) (i : Nat) :
    (readReg c draw per r).getLsbD i = (decide (i < 32) && readBit c draw per r i) :=
  ofBits_getLsbD 32 _ i

theorem one_shiftLeft_getLsbD (k i : Nat) (hk : k < 32) : ((1#32) <<< k).getLsbD i = decide (i = k) := by
  simp only [BitVec.getLsbD_shiftLeft, BitVec.getLsbD_one]
  by_cases h : i = k
  · subst h; simp [hk]
  · by_cases h' : i < k
    · simp [h, h']
    · have h2 : i - k ≠ 0 := by omega
      simp [h, h2]

/-! ## The configuration -/

theorem configOk_npins {c : Config} (h : configOk c = true) : 1 ≤ c.npins ∧ c.npins ≤ 54 := by
  simp only [configOk, Bool.and_eq_true, decide_eq_true_eq] at h
  exact ⟨h.1.1.1.1.1.1.1, h.1.1.1.1.1.1.2⟩

theorem configOk_inside {c : Config} (h : configOk c = true) {r : Reg} (hr : r ∈ allRegs c) :
    regOffset r % 4 = 0 ∧ regOffset r + 4 ≤ c.blockSize := by
  simp only [configOk, Bool.and_eq_true, decide_eq_true_eq, List.all_eq_true, beq_iff_eq] at h
  exact h.1.1.1.1.2 r hr

theorem configOk_base {c : Config} (h : configOk c = true) :
    c.periphBase % 4 = 0 ∧ c.periphBase + c.blockSize ≤ 2 ^ c.addrW := by
  simp only [configOk, Bool.and_eq_true, decide_eq_true_eq, beq_iff_eq] at h
  exact ⟨h.1.2, h.2⟩

/-! ## The registers and their addresses -/

theorem mem_allRegs {c : Config} (r : Reg) :
    r ∈ allRegs c ↔ (∃ b < c.nfsel, r = .fsel b) ∨ (∃ b < c.nbank, r = .set b) ∨ (∃ b < c.nbank, r = .clr b)
      ∨ (∃ b < c.nbank, r = .lev b) ∨ r = .pud ∨ (∃ b < c.nbank, r = .pudclk b) := by
  simp only [allRegs, List.mem_append, List.mem_map, List.mem_range, List.mem_singleton, or_assoc]
  constructor
  · rintro (⟨b, hb, rfl⟩ | ⟨b, hb, rfl⟩ | ⟨b, hb, rfl⟩ | ⟨b, hb, rfl⟩ | rfl | ⟨b, hb, rfl⟩) <;> simp [*]
  · rintro (⟨b, hb, rfl⟩ | ⟨b, hb, rfl⟩ | ⟨b, hb, rfl⟩ | ⟨b, hb, rfl⟩ | rfl | ⟨b, hb, rfl⟩) <;> simp [*]

theorem nfsel_le {c : Config} (h : configOk c = true) : c.nfsel ≤ 6 := by
  have := configOk_npins h
  simp only [Config.nfsel]; omega

theorem nbank_le {c : Config} (h : configOk c = true) : c.nbank ≤ 2 := by
  have := configOk_npins h
  simp only [Config.nbank]; omega

theorem div32_lt_nbank {c : Config} {p : Nat} (h : p < c.npins) : p / 32 < c.nbank := by
  simp only [Config.nbank]; omega

theorem div10_lt_nfsel {c : Config} {p : Nat} (h : p < c.npins) : p / 10 < c.nfsel := by
  simp only [Config.nfsel]; omega

theorem regOffset_injective {c : Config} (h : configOk c = true) {r r' : Reg} (hr : r ∈ allRegs c)
    (hr' : r' ∈ allRegs c) (e : regOffset r = regOffset r') : r = r' := by
  have h6 := nfsel_le h
  have h2 := nbank_le h
  rw [mem_allRegs] at hr hr'
  rcases hr with ⟨b, hb, rfl⟩ | ⟨b, hb, rfl⟩ | ⟨b, hb, rfl⟩ | ⟨b, hb, rfl⟩ | rfl | ⟨b, hb, rfl⟩ <;>
    rcases hr' with ⟨b', hb', rfl⟩ | ⟨b', hb', rfl⟩ | ⟨b', hb', rfl⟩ | ⟨b', hb', rfl⟩ | rfl | ⟨b', hb', rfl⟩ <;>
    simp only [regOffset] at e <;>
    first
      | (have : b = b' := by omega
         subst this; rfl)
      | rfl
      | omega

theorem regAt_eq_some_mem {c : Config} {a : Nat} {r : Reg} (h : regAt c a = some r) :
    r ∈ allRegs c ∧ physAddr c r = a := by
  have h1 := List.mem_of_find?_eq_some h
  have h2 := List.find?_some h
  exact ⟨h1, by simpa using h2⟩

theorem regAt_physAddr {c : Config} (h : configOk c = true) {r : Reg} (hr : r ∈ allRegs c) :
    regAt c (physAddr c r) = some r := by
  cases e : regAt c (physAddr c r) with
  | none =>
    have := List.find?_eq_none.mp e r hr
    simp at this
  | some r' =>
    obtain ⟨hm, ha⟩ := regAt_eq_some_mem e
    have : regOffset r' = regOffset r := by simp only [physAddr] at ha; omega
    rw [regOffset_injective h hm hr this]

theorem physAddr_aligned {c : Config} (h : configOk c = true) {r : Reg} (hr : r ∈ allRegs c) : physAddr c r % 4 = 0 := by
  have h1 := (configOk_inside h hr).1
  have h2 := (configOk_base h).1
  simp only [physAddr]; omega

theorem addrAdd_physAddr {c : Config} (h : configOk c = true) {r : Reg} (hr : r ∈ allRegs c) :
    addrAdd c c.periphBase (regOffset r) = physAddr c r := by
  have h1 := (configOk_inside h hr).2
  have h2 := (configOk_base h).2
  simp only [addrAdd, physAddr]
  exact Nat.mod_eq_of_lt (by omega)

theorem tableAddr_mapTables {c : Config} (h : configOk c = true) {r : Reg} (hr : r ∈ allRegs c) :
    tableAddr (mapTables c c.periphBase) r = some (physAddr c r) := by
  have e := addrAdd_physAddr h hr
  rw [mem_allRegs] at hr
  rcases hr with ⟨b, hb, rfl⟩ | ⟨b, hb, rfl⟩ | ⟨b, hb, rfl⟩ | ⟨b, hb, rfl⟩ | rfl | ⟨b, hb, rfl⟩ <;>
    simp [tableAddr, mapTables, *]

/-! ## What a write does to the pins -/

@[simp] theorem writeReg_pins_getElem? (c : Config) (x : WriteCtx) (r : Reg) (v : Word) (per : Periph) (q : Nat) :
    (writeReg c x r v per).pins[q]? = (per.pins[q]?).map (writePin c x r v per q) := by
  simp [writeReg]

@[simp] theorem writeReg_pins_length (c : Config) (x : WriteCtx) (r : Reg) (v : Word) (per : Periph) :
    (writeReg c x r v per).pins.length = per.pins.length := by
  simp [writeReg]

theorem writeReg_pudcode (c : Config) (x : WriteCtx) (r : Reg) (v : Word) (per : Periph) (h : r ≠ .pud) :
    (writeReg c x r v per).pudcode = per.pudcode := by
  simp [writeReg, h]

theorem writeReg_pudT (c : Config) (x : WriteCtx) (r : Reg) (v : Word) (per : Periph) (h : r ≠ .pud) :
    (writeReg c x r v per).pudT = per.pudT := by
  simp [writeReg, h]

@[simp] theorem writeReg_pud_pudcode (c : Config) (x : WriteCtx) (v : Word) (per : Periph) :
    (writeReg c x .pud v per).pudcode = v.extractLsb' 0 2 := rfl

@[simp] theorem writeReg_pud_pudT (c : Config) (x : WriteCtx) (v : Word) (per : Periph) :
    (writeReg c x .pud v per).pudT = some x.tick := rfl

/-- When a strobe that ends latches its code (20_memory R85, R87). -/
theorem strobeOk_iff (x : WriteCtx) (st : Strobe) :
    strobeOk x st = true ↔ st.settled = true ∧ st.held = true ∧ st.code ≠ 3#2
      ∧ (st.late = 0 ∨ (st.late = 1 ∧ ∃ t', st.lateT = some t' ∧ x.tick = t' + 1 ∧ x.lastPud = some t')) := by
  simp only [strobeOk]
  cases st.lateT <;> simp [and_assoc]

/-- A SET word names one pin (42_pin_ops R190). -/
theorem writePin_set_one (c : Config) (x : WriteCtx) (p q : Nat) (per : Periph) (pin : Pin) :
    writePin c x (.set (p / 32)) (1#32 <<< (p % 32)) per q pin = if q = p then { pin with latch := true } else pin := by
  simp only [writePin, one_shiftLeft_getLsbD _ _ (Nat.mod_lt p (by decide : 0 < 32)), decide_eq_true_eq]
  have : (q / 32 = p / 32 ∧ q % 32 = p % 32) ↔ q = p := by omega
  simp [this]

/-- A CLR word names one pin (42_pin_ops R193). -/
theorem writePin_clr_one (c : Config) (x : WriteCtx) (p q : Nat) (per : Periph) (pin : Pin) :
    writePin c x (.clr (p / 32)) (1#32 <<< (p % 32)) per q pin = if q = p then { pin with latch := false } else pin := by
  simp only [writePin, one_shiftLeft_getLsbD _ _ (Nat.mod_lt p (by decide : 0 < 32)), decide_eq_true_eq]
  have : (q / 32 = p / 32 ∧ q % 32 = p % 32) ↔ q = p := by omega
  simp [this]

/-- A write leaves the clock bits, and so the stale pins, as they are, but for the pins of a pull-clock bank it writes
(20_memory R83). -/
theorem strobeAsserted_writeReg (c : Config) (x : WriteCtx) (r : Reg) (v : Word) (per : Periph) (q : Nat) :
    strobeAsserted (writeReg c x r v per) q
      = if r = .pudclk (q / 32) then decide (q < per.pins.length) && v.getLsbD (q % 32) else strobeAsserted per q := by
  unfold strobeAsserted
  rw [writeReg_pins_getElem?]
  by_cases hq : q < per.pins.length
  · rw [List.getElem?_eq_getElem hq]
    generalize per.pins[q] = pin
    cases r <;> simp only [writePin, Option.map_some, Option.any_some, reduceCtorEq, if_false, Reg.pudclk.injEq, hq]
    case pudclk b =>
      by_cases hb : q / 32 = b
      · simp only [hb, if_true, decide_true, Bool.true_and]
        cases h1 : pin.clk <;> cases h2 : v.getLsbD (q % 32) <;> simp [writeClk, h1]
      · rw [if_neg hb, if_neg (fun h => hb h.symm)]
    all_goals (split <;> rfl)
  · have h0 : per.pins[q]? = none := List.getElem?_eq_none_iff.mpr (by omega)
    rw [h0]
    simp [hq]

/-! ## FSEL's merge -/

theorem seven_getLsbD (i : Nat) : (7#32).getLsbD i = decide (i < 3) := by
  by_cases h : i < 32
  · have : ∀ j : Fin 32, (7#32).getLsbD j.val = decide (j.val < 3) := by decide
    exact this ⟨i, h⟩
  · rw [BitVec.getLsbD_of_ge _ _ (by omega)]
    have : ¬ i < 3 := by omega
    simp [this]

/-- Bit i of the combined value: the new code inside the field, the old bit outside (42_pin_ops R200). -/
theorem mergeField_getLsbD (old : Word) (f : BitVec 3) (s i : Nat) (hi : i < 32) :
    (mergeField old f s).getLsbD i = if s ≤ i ∧ i < s + 3 then f.getLsbD (i - s) else old.getLsbD i := by
  simp only [mergeField, BitVec.getLsbD_or, BitVec.getLsbD_and, BitVec.getLsbD_not, BitVec.getLsbD_shiftLeft,
    BitVec.getLsbD_setWidth, seven_getLsbD, hi]
  by_cases h1 : i < s
  · have : ¬ s ≤ i := by omega
    simp [h1, this]
  · by_cases h2 : i - s < 3
    · have h3 : s ≤ i ∧ i < s + 3 := by omega
      have h4 : i - s < 32 := by omega
      simp [h1, h2, h3, h4]
    · have h3 : ¬ (s ≤ i ∧ i < s + 3) := by omega
      have h4 : f.getLsbD (i - s) = false := BitVec.getLsbD_of_ge _ _ (by omega)
      simp [h1, h2, h3, h4]

/-- The field of another pin of a bank in the combined value is the old one. -/
theorem mergeField_extract (old : Word) (f : BitVec 3) (p q : Nat) (hb : q / 10 = p / 10) :
    (mergeField old f (p % 10 * 3)).extractLsb' (q % 10 * 3) 3
      = if q = p then f else old.extractLsb' (q % 10 * 3) 3 := by
  have hp : p % 10 < 10 := Nat.mod_lt _ (by decide)
  have hq : q % 10 < 10 := Nat.mod_lt _ (by decide)
  apply BitVec.eq_of_getLsbD_eq
  intro j hj
  rw [BitVec.getLsbD_extractLsb', mergeField_getLsbD _ _ _ _ (by omega)]
  by_cases h : q = p
  · subst h
    have h1 : q % 10 * 3 ≤ q % 10 * 3 + j ∧ q % 10 * 3 + j < q % 10 * 3 + 3 := by omega
    have h2 : q % 10 * 3 + j - q % 10 * 3 = j := by omega
    rw [if_pos h1, if_pos rfl, h2]
    simp [hj]
  · have h1 : ¬ (p % 10 * 3 ≤ q % 10 * 3 + j ∧ q % 10 * 3 + j < p % 10 * 3 + 3) := by omega
    rw [if_neg h1, if_neg h, BitVec.getLsbD_extractLsb']

/-- A pin's field of its bank reads as its function code (20_memory R76). -/
theorem readReg_fsel_field (c : Config) (draw : Nat) (per : Periph) (b k : Nat) (pin : Pin) (hk : k < 10)
    (hp : per.pins[10 * b + k]? = some pin) :
    (readReg c draw per (.fsel b)).extractLsb' (k * 3) 3 = pin.func := by
  apply BitVec.eq_of_getLsbD_eq
  intro j hj
  have h1 : k * 3 + j < 30 := by omega
  have h2 : (k * 3 + j) / 3 = k := by omega
  have h3 : (k * 3 + j) % 3 = j := by omega
  have h4 : k * 3 + j < 32 := by omega
  rw [BitVec.getLsbD_extractLsb', readReg_getLsbD]
  simp only [readBit, h1, h2, h3, h4, hp, hj, decide_true, Bool.true_and, if_true]

end Sys2Proof.Machine
end

