-- ==== Sys2Proof/Laws/Ops.lean ====
section
/-! SUPPORT. What acceptance, a micro-step, the outside's part of a tick and a step can do, said once. -/

namespace Sys2Proof.Machine

/-! ## Acceptance -/

/-- The three ways an accepted word goes when the port is ready (10_state R31). -/
theorem accept_cases {w : Word} {check : Option FaultCode} {cur : Cur} {body : List MicroOp} {s t : State}
    (h : accept w check cur body s = .next t) :
    (s.ctl.status.busy = true ∧ t = s)
    ∨ (s.ctl.status.busy = false ∧ (s.ctl.status.fatal = true ∨ s.ctl.status.fault = true)
        ∧ t = rejectEntry (latchCommand w s))
    ∨ (s.ctl.status.busy = false ∧ s.ctl.status.fatal = false ∧ s.ctl.status.fault = false ∧
        ((∃ c, check = some c ∧ t = faultEntry c (latchCommand w s))
          ∨ (check = none ∧ t = startCommand cur body (latchCommand w s)))) := by
  unfold accept at h
  split at h
  · split at h
    · next hb => cases h; exact .inl ⟨hb, rfl⟩
    · next hb =>
      have hb : s.ctl.status.busy = false := by simpa using hb
      split at h
      · next hf =>
        cases h
        exact .inr (.inl ⟨hb, by simpa using hf, rfl⟩)
      · next hf =>
        have hf : s.ctl.status.fatal = false ∧ s.ctl.status.fault = false := by simpa using hf
        refine .inr (.inr ⟨hb, hf.1, hf.2, ?_⟩)
        cases check with
        | some c => cases h; exact .inl ⟨c, rfl, rfl⟩
        | none => cases h; exact .inr ⟨rfl, rfl⟩
  · cases h

theorem accept_ready {w : Word} {check : Option FaultCode} {cur : Cur} {body : List MicroOp} {s : State} (h : Ready s) :
    accept w check cur body s = match check with
      | some c => .next (faultEntry c (latchCommand w s))
      | none => .next (startCommand cur body (latchCommand w s)) := by
  obtain ⟨h1, h2, h3, h4⟩ := h
  cases check <;> simp [accept, h1, h2, h3, h4]

/-- Acceptance answers a next state whenever the configuration is well formed. -/
theorem accept_next {w : Word} {check : Option FaultCode} {cur : Cur} {body : List MicroOp} {s : State}
    (h : configOk s.cfg = true) : ∃ t, accept w check cur body s = .next t := by
  unfold accept
  rw [if_pos h]
  split
  · exact ⟨_, rfl⟩
  · split
    · exact ⟨_, rfl⟩
    · cases check <;> exact ⟨_, rfl⟩

/-- Every meaning is an acceptance: of the command's word, with its check, CUR and body. -/
theorem exec_eq_accept (i : Instr) (s : State) :
    ∃ check, exec i s = accept (encode i) check (curOf i) (bodyOf s.cfg (curOf i)) s
      ∧ (check = none ↔ operandsPass s.cfg i) := by
  cases i with
  | init => exact ⟨none, rfl, by simp [operandsPass]⟩
  | set pin => exact ⟨_, rfl, by simp [operandsPass, pinCheck]⟩
  | clr pin => exact ⟨_, rfl, by simp [operandsPass, pinCheck]⟩
  | get pin => exact ⟨_, rfl, by simp [operandsPass, pinCheck]⟩
  | fsel pin f => exact ⟨_, rfl, by simp [operandsPass, pinCheck]⟩
  | pull pin d =>
    refine ⟨pullCheck s.cfg pin d, ?_, ?_⟩
    · show execPull pin d s = _
      simp only [execPull, curOf, bodyOf, zero_append_extract]
    · simp only [pullCheck, pinCheck, operandsPass]
      by_cases h1 : d = 3#2 <;> simp [h1]

/-- The fields an accepted command wrote to CUR pass the checks (10_state R26, 60_exceptions R245). -/
theorem curOk_curOf {c : Config} {i : Instr} (h : operandsPass c i) : CurOk c (curOf i) := by
  cases i with
  | init => exact ⟨rfl, rfl⟩
  | set pin => exact ⟨h, rfl⟩
  | clr pin => exact ⟨h, rfl⟩
  | get pin => exact ⟨h, rfl⟩
  | fsel pin f => exact h
  | pull pin d =>
    refine ⟨h.1, zero_append_high d, ?_⟩
    simpa [curOf, zero_append_extract] using h.2

/-! ## Controller transactions -/

/-- In a mapped window the controller's address of a register reaches that register (41_decoder R172, R173). -/
theorem ctlTarget_mapped {s : State} (hc : configOk s.cfg = true) (hm : Mapped s) {r : Reg} (hr : r ∈ allRegs s.cfg) :
    ctlTarget r s = some (physAddr s.cfg r, r) := by
  simp [ctlTarget, hm.2.2, tableAddr_mapTables hc hr, regAt_physAddr hc hr]

theorem ctlTarget_mem {s : State} {r r' : Reg} {a : Nat} (h : ctlTarget r s = some (a, r')) :
    r' ∈ allRegs s.cfg ∧ physAddr s.cfg r' = a := by
  unfold ctlTarget at h
  split at h
  · simp only [Option.map_eq_some_iff, Prod.mk.injEq] at h
    obtain ⟨x, hx, rfl, rfl⟩ := h
    exact regAt_eq_some_mem hx
  · cases h

/-! ## The micro-step -/

/-- The four things a micro-step does (10_state R32). -/
theorem microStep_cases {s t : State} (h : microStep s = .next t) :
    (s.ctl.prog[s.ctl.uidx]? = some .map ∧ t = mapStep s)
    ∨ (∃ r a r', s.ctl.prog[s.ctl.uidx]? = some (.memRead r) ∧ ctlTarget r s = some (a, r')
        ∧ t = advance (getResult (loadTmp (readReg s.cfg s.draws s.periph r') (busRead .controller a r' s).2)))
    ∨ (∃ r v q a r', s.ctl.prog[s.ctl.uidx]? = some (.memWrite r v q) ∧ ctlTarget r s = some (a, r')
        ∧ t = advance (onStatus (enterSeq q) (busWrite .controller a r' (writeValue s.ctl v) s)))
    ∨ (∃ n, s.ctl.prog[s.ctl.uidx]? = some (.wait n) ∧ t = waitStep n s) := by
  unfold microStep at h
  split at h
  · cases h
  · next e => cases h; exact .inl ⟨e, rfl⟩
  · next r e =>
    unfold readStep at h
    split at h
    · next a r' e' => cases h; exact .inr (.inl ⟨r, a, r', e, e', rfl⟩)
    · cases h
  · next r v q e =>
    unfold writeStep at h
    split at h
    · next a r' e' => cases h; exact .inr (.inr (.inl ⟨r, v, q, a, r', e, e', rfl⟩))
    · cases h
  · next n e => cases h; exact .inr (.inr (.inr ⟨n, e, rfl⟩))

theorem microStep_map {s : State} (h : s.ctl.prog[s.ctl.uidx]? = some .map) : microStep s = .next (mapStep s) := by
  simp [microStep, h]

theorem microStep_wait {s : State} {n : Nat} (h : s.ctl.prog[s.ctl.uidx]? = some (.wait n)) :
    microStep s = .next (waitStep n s) := by
  simp [microStep, h]

theorem microStep_read {s : State} {r : Reg} (h : s.ctl.prog[s.ctl.uidx]? = some (.memRead r))
    (hc : configOk s.cfg = true) (hm : Mapped s) (hr : r ∈ allRegs s.cfg) :
    microStep s = .next (advance (getResult (loadTmp (readReg s.cfg s.draws s.periph r)
      (busRead .controller (physAddr s.cfg r) r s).2))) := by
  simp [microStep, h, readStep, ctlTarget_mapped hc hm hr]

theorem microStep_write {s : State} {r : Reg} {v : WriteValue} {q : Option Seq}
    (h : s.ctl.prog[s.ctl.uidx]? = some (.memWrite r v q))
    (hc : configOk s.cfg = true) (hm : Mapped s) (hr : r ∈ allRegs s.cfg) :
    microStep s = .next (advance (onStatus (enterSeq q)
      (busWrite .controller (physAddr s.cfg r) r (writeValue s.ctl v) s))) := by
  simp [microStep, h, writeStep, ctlTarget_mapped hc hm hr]

/-- A micro-step changes neither the configuration nor the schedule, the tick and the port. -/
theorem microStep_outside {s t : State} (h : microStep s = .next t) :
    t.cfg = s.cfg ∧ t.schedule = s.schedule ∧ t.tick = s.tick ∧ t.port = s.port := by
  rcases microStep_cases h with ⟨_, rfl⟩ | ⟨r, a, r', _, _, rfl⟩ | ⟨r, v, q, a, r', _, _, rfl⟩ | ⟨n, _, rfl⟩ <;> simp

/-! ## The controller's action -/

/-- The five things the controller does in a tick (10_state R31, R32; 70_reset R270). -/
theorem controllerAct_cases {s t : State} (h : controllerAct s = .next t) :
    ((tickInput s).reset = true ∧ t = controllerReset s)
    ∨ ((tickInput s).reset = false ∧ s.ctl.status.busy = true ∧ microStep s = .next t)
    ∨ ((tickInput s).reset = false ∧ s.ctl.status.busy = false ∧ s.port = [] ∧ t = s)
    ∨ (∃ w rest i, (tickInput s).reset = false ∧ s.ctl.status.busy = false ∧ s.port = w :: rest ∧ decode w = .ok i
        ∧ exec i (setPort rest s) = .next t)
    ∨ (∃ w rest e, (tickInput s).reset = false ∧ s.ctl.status.busy = false ∧ s.port = w :: rest ∧ decode w = .error e
        ∧ acceptIllegal w e (setPort rest s) = .next t) := by
  unfold controllerAct controllerTurn at h
  by_cases hr : (tickInput s).reset = true
  · simp only [hr, if_true] at h
    cases h
    exact .inl ⟨hr, rfl⟩
  · have hr : (tickInput s).reset = false := by simpa using hr
    refine .inr ?_
    by_cases hb : s.ctl.status.busy = true
    · simp only [hr, hb, if_true] at h
      exact .inl ⟨hr, hb, h⟩
    · have hb : s.ctl.status.busy = false := by simpa using hb
      refine .inr ?_
      cases hp : s.port with
      | nil =>
        simp only [hr, hb, hp] at h
        cases h
        exact .inl ⟨hr, hb, rfl, rfl⟩
      | cons w rest =>
        refine .inr ?_
        cases hd : decode w with
        | ok i =>
          simp only [hr, hb, hp, hd] at h
          exact .inl ⟨w, rest, i, hr, hb, rfl, hd, h⟩
        | error e =>
          simp only [hr, hb, hp, hd] at h
          exact .inr ⟨w, rest, e, hr, hb, rfl, hd, h⟩

/-- Acceptance changes only the controller. -/
theorem accept_outside {w : Word} {check : Option FaultCode} {cur : Cur} {body : List MicroOp} {s t : State}
    (h : accept w check cur body s = .next t) :
    t.cfg = s.cfg ∧ t.periph = s.periph ∧ t.grant = s.grant ∧ t.port = s.port ∧ t.schedule = s.schedule
    ∧ t.tick = s.tick ∧ t.draws = s.draws ∧ t.trace = s.trace := by
  rcases accept_cases h with ⟨_, rfl⟩ | ⟨_, _, rfl⟩ | ⟨_, _, _, ⟨c, _, rfl⟩ | ⟨_, rfl⟩⟩ <;> simp

theorem exec_outside {i : Instr} {s t : State} (h : exec i s = .next t) :
    t.cfg = s.cfg ∧ t.periph = s.periph ∧ t.grant = s.grant ∧ t.port = s.port ∧ t.schedule = s.schedule
    ∧ t.tick = s.tick ∧ t.draws = s.draws ∧ t.trace = s.trace := by
  obtain ⟨check, e, _⟩ := exec_eq_accept i s
  rw [e] at h
  exact accept_outside h

/-- Acceptance leaves the stale pins. -/
theorem accept_stale {w : Word} {check : Option FaultCode} {cur : Cur} {body : List MicroOp} {s t : State}
    (h : accept w check cur body s = .next t) : t.stale = s.stale := by
  rcases accept_cases h with ⟨_, rfl⟩ | ⟨_, _, rfl⟩ | ⟨_, _, _, ⟨c, _, rfl⟩ | ⟨_, rfl⟩⟩ <;> simp

theorem exec_stale {i : Instr} {s t : State} (h : exec i s = .next t) : t.stale = s.stale := by
  obtain ⟨check, e, _⟩ := exec_eq_accept i s
  rw [e] at h
  exact accept_stale h

/-- A micro-step leaves the stale pins, but for those whose strobe its write ends. -/
theorem microStep_stale {s t : State} (h : microStep s = .next t) :
    (t.periph = s.periph ∧ t.stale = s.stale) ∨ t.stale = s.stale.filter (strobeAsserted t.periph) := by
  rcases microStep_cases h with ⟨_, rfl⟩ | ⟨r, a, r', _, _, rfl⟩ | ⟨r, v, q, a, r', _, _, rfl⟩ | ⟨n, _, rfl⟩ <;> simp

theorem controllerAct_outside {s t : State} (h : controllerAct s = .next t) :
    t.cfg = s.cfg ∧ t.schedule = s.schedule ∧ t.tick = s.tick := by
  rcases controllerAct_cases h with ⟨_, rfl⟩ | ⟨_, _, hm⟩ | ⟨_, _, _, rfl⟩ | ⟨w, rest, i, _, _, _, _, he⟩
    | ⟨w, rest, e, _, _, _, _, he⟩
  · simp
  · have := microStep_outside hm; exact ⟨this.1, this.2.1, this.2.2.1⟩
  · exact ⟨rfl, rfl, rfl⟩
  · have := exec_outside he
    exact ⟨this.1, this.2.2.2.2.1, this.2.2.2.2.2.1⟩
  · have := accept_outside he
    exact ⟨this.1, this.2.2.2.2.1, this.2.2.2.2.2.1⟩

/-! ## Other masters -/

/-- What one access of an other master does (20_memory R101). -/
theorem otherAccess_cases {a : Access} {s t : State} (h : otherAccess a s = .next t) :
    s.cfg.otherMasters = true ∧ ∃ r, r ∈ allRegs s.cfg ∧ physAddr s.cfg r = a.addr ∧ a.addr % 4 = 0 ∧
      ((∃ v, a.value = some v ∧ t = busWrite (.other a.id) a.addr r v s)
        ∨ (a.value = none ∧ t = (busRead (.other a.id) a.addr r s).2)) := by
  unfold otherAccess at h
  split at h
  · next ho =>
    split at h
    · next ha =>
      split at h
      · next r hr =>
        have hm := regAt_eq_some_mem hr
        refine ⟨ho, r, hm.1, hm.2, ha, ?_⟩
        cases hv : a.value with
        | none =>
          simp only [hv] at h
          cases h
          exact .inr ⟨rfl, rfl⟩
        | some v =>
          simp only [hv] at h
          cases h
          exact .inl ⟨v, rfl, rfl⟩
      · cases h
    · cases h
  · cases h

/-- A property that every access of an other master keeps is kept by a list of them. -/
theorem otherAccesses_induct {P : State → Prop}
    (hstep : ∀ a s t, P s → otherAccess a s = .next t → P t) :
    ∀ (as : List Access) (s t : State), P s → otherAccesses as s = .next t → P t := by
  intro as
  induction as with
  | nil => intro s t hs h; cases h; exact hs
  | cons a as ih =>
    intro s t hs h
    obtain ⟨s', h1, h2⟩ := andThen_eq_next h
    exact ih s' t (hstep a s s' hs h1) h2

/-- Other masters touch the peripheral, TRACE and the draws, nothing else (20_memory R101). -/
theorem otherAccesses_outside {as : List Access} {s t : State} (h : otherAccesses as s = .next t) :
    t.cfg = s.cfg ∧ t.ctl = s.ctl ∧ t.grant = s.grant ∧ t.port = s.port ∧ t.schedule = s.schedule ∧ t.tick = s.tick := by
  refine otherAccesses_induct
    (P := fun u => u.cfg = s.cfg ∧ u.ctl = s.ctl ∧ u.grant = s.grant ∧ u.port = s.port ∧ u.schedule = s.schedule ∧ u.tick = s.tick)
    ?_ as s t ⟨rfl, rfl, rfl, rfl, rfl, rfl⟩ h
  intro a u v hu hv
  obtain ⟨_, r, _, _, _, ⟨w, _, rfl⟩ | ⟨_, rfl⟩⟩ := otherAccess_cases hv <;> simpa using hu

/-- A list of accesses of other masters never faults. -/
theorem otherAccesses_noFault (as : List Access) (s : State) (e : Fault) : otherAccesses as s ≠ .fault e := by
  induction as generalizing s with
  | nil => intro h; cases h
  | cons a as ih =>
    intro h
    unfold otherAccesses at h
    cases ho : otherAccess a s with
    | next s' => rw [ho] at h; exact ih s' h
    | fault e' =>
      unfold otherAccess at ho
      split at ho
      · split at ho
        · split at ho
          · split at ho <;> cases ho
          · cases ho
        · cases ho
      · cases ho
    | refused e' => rw [ho] at h; cases h

/-! ## A step -/

/-- The three parts of a step (10_state R20, R32; 20_memory R101). -/
theorem step_parts {s t : State} (h : step s = .next t) :
    configOk s.cfg = true ∧ ∃ s1 s2 s3,
      otherAccesses (tickInput s).before (hostArrivals s) = .next s1
      ∧ controllerAct s1 = .next s2
      ∧ otherAccesses (tickInput s).after s2 = .next s3
      ∧ t = nextTick s3
      ∧ s1.schedule = s.schedule ∧ s2.schedule = s.schedule ∧ s3.schedule = s.schedule := by
  unfold step at h
  split at h
  · next hc =>
    obtain ⟨s1, h1, g1⟩ := andThen_eq_next h
    obtain ⟨s2, h2, g2⟩ := andThen_eq_next g1
    unfold closeTick at g2
    obtain ⟨s3, h3, g3⟩ := andThen_eq_next g2
    cases g3
    have e1 : s1.schedule = s.schedule := by
      have := (otherAccesses_outside (show otherAccesses _ _ = _ from h1)).2.2.2.2.1
      simpa using this
    have e2 : s2.schedule = s.schedule := by rw [(controllerAct_outside h2).2.1, e1]
    have e3 : s3.schedule = s.schedule := by rw [(otherAccesses_outside h3).2.2.2.2.1, e2]
    have et : tickInput s2 = tickInput s := by simp [tickInput, e2]
    rw [et] at h3
    exact ⟨hc, s1, s2, s3, h1, h2, h3, rfl, e1, e2, e3⟩
  · cases h

theorem tickInput_of_undisturbed {n : Nat} {s : State} (h : Undisturbed (n + 1) s) :
    (tickInput s).reset = false ∧ (tickInput s).before = [] ∧ (tickInput s).after = [] := by
  unfold tickInput
  cases hs : s.schedule with
  | nil => simp [TickInput.quiet]
  | cons i rest =>
    have := h i (by simp [hs])
    simpa [disturbs, and_assoc] using this

theorem Undisturbed.mono {m n : Nat} {s : State} (h : Undisturbed n s) (hmn : m ≤ n) : Undisturbed m s := by
  intro i hi
  exact h i ((List.take_subset_take_left _ hmn) hi)

theorem Undisturbed.tail {n : Nat} {s t : State} (h : Undisturbed (n + 1) s) (ht : t.schedule = s.schedule.tail) :
    Undisturbed n t := by
  intro i hi
  apply h i
  rw [ht] at hi
  cases hs : s.schedule with
  | nil => simp [hs] at hi
  | cons j rest =>
    rw [hs] at hi
    simp only [List.tail_cons] at hi
    rw [List.take_succ_cons]
    exact List.mem_cons_of_mem _ hi

theorem Undisturbed.congr {n : Nat} {s t : State} (h : Undisturbed n s) (ht : t.schedule = s.schedule) : Undisturbed n t := by
  intro i hi
  exact h i (by rwa [ht] at hi)

/-- A tick in which no other master acts: the controller's action on the words that have arrived, and the tick is over. -/
theorem step_noOthers {s : State} (hc : configOk s.cfg = true) (hb : (tickInput s).before = [])
    (ha : (tickInput s).after = []) :
    step s = andThen (controllerAct (hostArrivals s)) (fun t => .next (nextTick t)) := by
  unfold step openTick
  rw [if_pos hc, hb]
  simp only [otherAccesses, andThen_next]
  cases h : controllerAct (hostArrivals s) with
  | fault e => rfl
  | refused e => rfl
  | next t =>
    have et : tickInput t = tickInput s := by
      have := (controllerAct_outside h).2.1
      simp [tickInput, this]
    simp [closeTick, et, ha, otherAccesses]

/-- An undisturbed busy tick is one micro-step (10_state R32). -/
theorem step_micro {s t : State} (hc : configOk s.cfg = true) (hu : Undisturbed 1 s) (hb : s.ctl.status.busy = true)
    (h : microStep (hostArrivals s) = .next t) : step s = .next (nextTick t) := by
  obtain ⟨h1, h2, h3⟩ := tickInput_of_undisturbed hu
  rw [step_noOthers hc h2 h3]
  have : controllerAct (hostArrivals s) = .next t := by
    have e : tickInput (hostArrivals s) = tickInput s := by simp [tickInput]
    unfold controllerAct controllerTurn
    simp [e, h1, hb, h]
  rw [this]
  rfl

/-! ## Runs -/

theorem Runs.zero (s : State) : Runs 0 s s := rfl

theorem run_succ_next {n : Nat} {s t : State} (h : step s = .next t) :
    Host.Core.run Sys2Proof.core (n + 1) s = Host.Core.run Sys2Proof.core n t := by
  have h' : Sys2Proof.core.step s = .next t := h
  simp only [Host.Core.run, h']

theorem Runs.succ {n : Nat} {s t u : State} (h : step s = .next t) (h' : Runs n t u) : Runs (n + 1) s u := by
  unfold Runs
  rw [run_succ_next h]
  exact h'

theorem Runs.one {s t : State} (h : step s = .next t) : Runs 1 s t := Runs.succ h (Runs.zero t)

/-- The first tick of a run is a step. -/
theorem Runs.uncons {n : Nat} {s u : State} (h : Runs (n + 1) s u) : ∃ t, step s = .next t ∧ Runs n t u := by
  cases hs : step s with
  | next t =>
    refine ⟨t, rfl, ?_⟩
    unfold Runs at h
    rwa [run_succ_next hs] at h
  | fault e =>
    have h' : Sys2Proof.core.step s = .fault e := hs
    simp only [Runs, Host.Core.run, h'] at h
    cases h
  | refused e =>
    have h' : Sys2Proof.core.step s = .refused e := hs
    simp only [Runs, Host.Core.run, h'] at h
    cases h

theorem Runs.trans {m n : Nat} {s t u : State} (h : Runs m s t) (h' : Runs n t u) : Runs (m + n) s u := by
  induction m generalizing s with
  | zero =>
    have : s = t := by cases h; rfl
    subst this
    simpa using h'
  | succ m ih =>
    obtain ⟨v, hv, hr⟩ := h.uncons
    have := Runs.succ hv (ih hr)
    rwa [Nat.add_right_comm] at this

end Sys2Proof.Machine
end

