-- ==== Sys2Proof/Laws/Commands.lean ====
section
/-! SUPPORT. A command from its acceptance to the first micro-operation of its body, and the ticks of its body one by one:
what the statements about whole commands are put together from. -/

namespace Sys2Proof.Machine

/-- A command whose checks pass starts (10_state R31). -/
theorem exec_pass {i : Instr} {s : State} (h : Ready s) (hp : operandsPass s.cfg i) :
    exec i s = .next (startCommand (curOf i) (bodyOf s.cfg (curOf i)) (latchCommand (encode i) s)) := by
  obtain ⟨check, e, hk⟩ := exec_eq_accept i s
  rw [e, accept_ready h, hk.mpr hp]

/-- A running command at position u of its micro-program, its window mapped, k ticks after the acceptance of i in s: the
controller is as a completed command leaves it (`doneCtl`), but for its position. -/
structure AtBody (i : Instr) (s v : State) (k u : Nat) (prog : List MicroOp) : Prop where
  ctl : v.ctl = { doneCtl i s with
    prog := prog, uidx := u, status := { s.ctl.status with mapped := true, busy := true, resultValid := false } }
  cfg : v.cfg = s.cfg
  grant : v.grant = grantAfter s
  periph : v.periph = s.periph
  trace : v.trace = s.trace
  tick : v.tick = s.tick + 1 + k
  draws : v.draws = s.draws + k
  port : s.port <+: v.port
  stale : v.stale = s.stale

theorem AtBody.mapped {i : Instr} {s v : State} {k u : Nat} {prog : List MicroOp} (h : AtBody i s v k u prog) : Mapped v := by
  simp [Mapped, h.ctl, h.cfg, doneCtl]

theorem AtBody.busy {i : Instr} {s v : State} {k u : Nat} {prog : List MicroOp} (h : AtBody i s v k u prog) :
    v.ctl.status.busy = true := by
  simp [h.ctl]

/-- Acceptance and the Map prefix, if any: the machine stands before the first micro-operation of the body, if there is one
(10_state R30, R31; 40_window_init R152, R154). -/
theorem accept_to_body {i : Instr} {s : State} {n : Nat} (h : Ready s) (hm : CanMap s) (hp : operandsPass s.cfg i)
    (hb : bodyOf s.cfg (curOf i) ≠ []) (hu : Undisturbed (mapTicks s + n + 1) s) :
    ∃ t v, exec i s = .next t ∧ Runs (mapTicks s) (nextTick t) v
      ∧ AtBody i s v (mapTicks s) (mapTicks s) (mapFirst s ++ bodyOf s.cfg (curOf i)) ∧ Undisturbed n v := by
  obtain ⟨hc, hbusy, hfa, hfl⟩ := h
  have he := exec_pass ⟨hc, hbusy, hfa, hfl⟩ hp
  rcases hm with hm | ⟨hm, hok⟩
  · have ht : mapTicks s = 0 := by simp [mapTicks, hm.1]
    refine ⟨_, _, he, by rw [ht]; exact Runs.zero _, ?_, ?_⟩
    · constructor <;>
        simp [ht, doneCtl, hm.1, hm.2.1, hm.2.2, mapFirst, setBusy, clearResult, hb, grantAfter]
    · rw [ht] at hu
      have hu : Undisturbed (n + 1) s := by simpa using hu
      exact hu.tail (by simp)
  · have ht : mapTicks s = 1 := by simp [mapTicks, hm]
    rw [ht] at hu
    have hu' : Undisturbed (n + 1) (nextTick (startCommand (curOf i) (bodyOf s.cfg (curOf i)) (latchCommand (encode i) s))) := by
      have hu : Undisturbed (n + 1 + 1) s := by rw [Nat.add_comm 1 n] at hu; exact hu
      exact hu.tail (by simp)
    have hs : step (nextTick (startCommand (curOf i) (bodyOf s.cfg (curOf i)) (latchCommand (encode i) s)))
        = .next (nextTick (mapStep (hostArrivals
            (nextTick (startCommand (curOf i) (bodyOf s.cfg (curOf i)) (latchCommand (encode i) s)))))) := by
      refine step_micro (by simpa using hc) (hu'.mono (by omega)) ?_ (microStep_map ?_)
      · simp [mapFirst, hm, setBusy, clearResult]
      · simp [mapFirst, hm, clearResult]
    refine ⟨_, _, he, by rw [ht]; exact Runs.one hs, ?_, ?_⟩
    · have hl : ∀ b : List MicroOp, b ≠ [] → ¬ (0 + 1 = b.length + 1) := by
        intro b hb' he'
        exact hb' (List.length_eq_zero_iff.mp (by omega))
      constructor
      · simp only [nextTick_fields, mapStep, hostArrivals_fields, startCommand_outside, latchCommand_outside, hok, if_true]
        rw [advance_notLast]
        · simp [mapSuccess, doneCtl, ht, mapFirst, hm, clearResult, setBusy, recordMapped]
        · simpa [mapSuccess, mapFirst, hm, clearResult] using hb
      · simp
      · simp [mapStep, hok, mapSuccess, grantAfter, hm]
      · simp
      · simp
      · simp [ht]
      · simp [ht]
      · simp
      · simp
    · exact hu'.tail (by simp)

/-- Micro-operation j of a body, behind the Map prefix (10_state R30). -/
theorem prog_getElem? (s : State) (body : List MicroOp) (j : Nat) : (mapFirst s ++ body)[mapTicks s + j]? = body[j]? := by
  cases hm : s.ctl.status.mapped <;> simp [mapFirst, mapTicks, hm, Nat.add_comm 1 j]

theorem prog_length (s : State) (body : List MicroOp) : (mapFirst s ++ body).length = mapTicks s + body.length := by
  cases hm : s.ctl.status.mapped <;> simp [mapFirst, mapTicks, hm, Nat.add_comm]

/-! ## The ticks of a body -/

@[simp] theorem writeCtx_hostArrivals (ag : Agent) (s : State) : writeCtx ag (hostArrivals s) = writeCtx ag s := rfl

/-- An undisturbed tick at a MemWrite of a mapped window (10_state R32). -/
theorem step_write {s : State} {r : Reg} {v : WriteValue} {q : Option Seq} (hc : configOk s.cfg = true) (hm : Mapped s)
    (hu : Undisturbed 1 s) (hb : s.ctl.status.busy = true) (hp : s.ctl.prog[s.ctl.uidx]? = some (.memWrite r v q))
    (hr : r ∈ allRegs s.cfg) :
    step s = .next (nextTick (advance (onStatus (enterSeq q)
      (busWrite .controller (physAddr s.cfg r) r (writeValue s.ctl v) (hostArrivals s))))) := by
  refine step_micro hc hu hb ?_
  exact microStep_write (s := hostArrivals s) hp hc hm hr

/-- An undisturbed tick at a MemRead of a mapped window (10_state R32, 42_pin_ops R197). -/
theorem step_read {s : State} {r : Reg} (hc : configOk s.cfg = true) (hm : Mapped s)
    (hu : Undisturbed 1 s) (hb : s.ctl.status.busy = true) (hp : s.ctl.prog[s.ctl.uidx]? = some (.memRead r))
    (hr : r ∈ allRegs s.cfg) :
    step s = .next (nextTick (advance (getResult (loadTmp (readReg s.cfg s.draws s.periph r)
      (busRead .controller (physAddr s.cfg r) r (hostArrivals s)).2)))) := by
  refine step_micro hc hu hb ?_
  exact microStep_read (s := hostArrivals s) hp hc hm hr

/-- n undisturbed ticks of a Wait(n) that is not the last micro-operation: uidx moves by one, n ticks pass, no transaction
is issued and nothing else changes (10_state R32). -/
theorem run_wait {n : Nat} (k : Nat) : ∀ (s : State), configOk s.cfg = true → Undisturbed k s → s.ctl.status.busy = true →
    s.ctl.prog[s.ctl.uidx]? = some (.wait n) → s.ctl.uidx + 1 < s.ctl.prog.length → s.ctl.waitcnt + k = n → 1 ≤ k →
    ∃ t, Runs k s t ∧ t.ctl = { s.ctl with uidx := s.ctl.uidx + 1, waitcnt := 0 }
      ∧ t.cfg = s.cfg ∧ t.grant = s.grant ∧ t.periph = s.periph ∧ t.trace = s.trace ∧ t.tick = s.tick + k
      ∧ t.draws = s.draws ∧ t.schedule = s.schedule.drop k ∧ s.port <+: t.port ∧ t.stale = s.stale := by
  induction k with
  | zero => intro s _ _ _ _ _ _ h1; omega
  | succ k ih =>
    intro s hc hu hb hp hl hw _
    have hs : step s = .next (nextTick (waitStep n (hostArrivals s))) :=
      step_micro hc (hu.mono (by omega)) hb (microStep_wait (s := hostArrivals s) hp)
    by_cases hk : k = 0
    · subst hk
      have hw' : s.ctl.waitcnt + 1 = n := hw
      refine ⟨_, Runs.one hs, ?_, by simp, ?_, by simp, by simp, by simp, by simp, by simp, by simp, by simp⟩
      · simp only [nextTick_fields, waitStep, hostArrivals_fields, hw', if_true]
        rw [advance_notLast _ (by simpa using Nat.ne_of_lt hl)]
      · simp
    · have hw' : s.ctl.waitcnt + 1 ≠ n := by omega
      have e : (nextTick (waitStep n (hostArrivals s))).ctl = { s.ctl with waitcnt := s.ctl.waitcnt + 1 } := by
        simp [waitStep, hw']
      obtain ⟨t, hr, h1, h2, h3, h4, h5, h6, h7, h8, h9, h10⟩ := ih (nextTick (waitStep n (hostArrivals s))) (by simpa using hc)
        (hu.tail (by simp)) (by rw [e]; exact hb) (by rw [e]; exact hp) (by rw [e]; exact hl)
        (by rw [e]; show s.ctl.waitcnt + 1 + k = n; omega) (by omega)
      refine ⟨t, Runs.succ hs hr, by rw [h1, e], by simpa using h2, by simpa using h3, by simpa using h4, by simpa using h5,
        ?_, by simpa using h7, by simpa using h8, List.IsPrefix.trans (by simp) h9, by simpa using h10⟩
      rw [h6]; simp; omega

end Sys2Proof.Machine
end

