-- ==== Sys2Proof/Laws/Invariant.lean ====
section
/-! SUPPORT. What the invariant of the machine rests on: the shape of every micro-program, SEQ along it, and the strobe records
under every write. -/

namespace Sys2Proof.Machine

/-- The invariant is about the configuration, the controller, the peripheral, the grant and the stale pins. -/
theorem Invariant.congr {s t : State} (h : Invariant s) (hc : t.cfg = s.cfg) (hk : t.ctl = s.ctl)
    (hp : t.periph = s.periph) (hg : t.grant = s.grant) (hst : t.stale = s.stale) : Invariant t := by
  constructor
  · rw [hc]; exact h.config
  · unfold Sized; rw [hc, hp]; exact h.sized
  · rw [hp]; exact h.pins
  · rw [hk]; exact h.flags
  · rw [hc, hk]; exact h.running
  · rw [hk]; exact h.stopped
  · unfold Mapped; rw [hc, hk]; exact h.mapped
  · rw [hk, hg]; exact h.grantTrue
  · rw [hk, hg]; exact h.grantFalse
  · rw [hst, hp]; exact h.stale

/-- A changed peripheral keeps of the stale pins those whose strobe is asserted (70_reset R284). -/
theorem setPeriph_stale {per : Periph} {s : State} (h : s.stale.Nodup) :
    (setPeriph per s).stale.Nodup ∧ ∀ p ∈ (setPeriph per s).stale, strobeAsserted (setPeriph per s).periph p = true :=
  ⟨h.filter _, fun _ hp => (List.mem_filter.mp hp).2⟩

/-- The stale pins after a reset (70_reset R284). -/
theorem mem_staleAfterReset {s : State} {q : Nat} : q ∈ staleAfterReset s ↔
    q ∈ s.stale ∨ (s.ctl.status.seq ≠ .idle ∧ strobeAsserted s.periph s.ctl.cur.pin = true ∧ q = s.ctl.cur.pin) := by
  unfold staleAfterReset
  split
  · next h => rw [List.mem_insert_iff]; simp [h, or_comm]
  · next h => constructor <;> intro hq <;> first | exact .inl hq | exact hq.elim id (fun g => absurd ⟨g.1, g.2.1⟩ h)

/-- A reset keeps the stale pins in order. -/
theorem staleAfterReset_ok {s : State} (h : s.stale.Nodup ∧ ∀ p ∈ s.stale, strobeAsserted s.periph p = true) :
    (staleAfterReset s).Nodup ∧ ∀ p ∈ staleAfterReset s, strobeAsserted s.periph p = true := by
  refine ⟨?_, fun p hp => ?_⟩
  · unfold staleAfterReset
    split
    · exact h.1.insert
    · exact h.1
  · rcases mem_staleAfterReset.mp hp with hp | ⟨_, ha, rfl⟩
    · exact h.2 p hp
    · exact ha

/-- Every write, by any agent, keeps the strobe records (10_state R45; 20_memory R84, R85). -/
theorem writeReg_pinOk {c : Config} {x : WriteCtx} {r : Reg} {v : Word} {per : Periph} (h : ∀ pin ∈ per.pins, PinOk pin) :
    ∀ pin ∈ (writeReg c x r v per).pins, PinOk pin := by
  intro pin' hm
  obtain ⟨q, hq⟩ := List.mem_iff_getElem?.mp hm
  rw [writeReg_pins_getElem?] at hq
  obtain ⟨pin, hp, rfl⟩ := Option.map_eq_some_iff.mp hq
  have hk := h pin (List.mem_of_getElem? hp)
  unfold writePin
  split
  · split <;> exact hk
  · split <;> exact hk
  · split <;> exact hk
  · exact hk
  · split
    · refine ⟨by simpa using hk.1, ?_⟩
      intro st hst
      obtain ⟨st', h', rfl⟩ := Option.map_eq_some_iff.mp hst
      unfold strobeSeesPud
      split
      · exact hk.2 st' h'
      · simp
    · exact hk
  · split
    · unfold writeClk
      split
      · refine ⟨rfl, ?_⟩
        intro st hst
        cases hst
        simp [newStrobe]
      · exact ⟨rfl, by simp⟩
      · exact hk
    · exact hk

/-- SEQ after one more micro-operation (43_pull R217). -/
theorem seqAt_succ {prog : List MicroOp} {u : Nat} {m : MicroOp} (h : prog[u]? = some m) :
    seqAt prog (u + 1) = match (generalizing := false) m with
      | .memWrite _ _ (some q) => q
      | _ => seqAt prog u := by
  unfold seqAt
  rw [List.take_add_one, h]
  simp only [List.foldl_append, Option.toList_some, List.foldl_cons, List.foldl_nil]
  all_goals rcases m with _ | _ | ⟨r, v, _ | q⟩ | _ <;> rfl

/-- SEQ is Idle at the end of every micro-program (10_state R33). -/
theorem seqAt_end {c : Config} {cur : Cur} {pre : List MicroOp} (hp : pre = [] ∨ pre = [.map]) :
    seqAt (pre ++ bodyOf c cur) (pre ++ bodyOf c cur).length = .idle := by
  unfold seqAt
  rw [List.take_length]
  obtain ⟨op, pin, arg⟩ := cur
  rcases hp with rfl | rfl <;> cases op <;> rfl

/-- Where each micro-operation stands: a GET's read is its last; a Wait is T_SETTLE long and never the last; the Map is the
first (10_state R30). -/
theorem prog_shape {c : Config} {cur : Cur} {pre : List MicroOp} {u : Nat} (hp : pre = [] ∨ pre = [.map]) :
    (∀ r, (pre ++ bodyOf c cur)[u]? = some (.memRead r) → cur.op = .get → u + 1 = (pre ++ bodyOf c cur).length)
    ∧ (∀ n, (pre ++ bodyOf c cur)[u]? = some (.wait n) → u + 1 < (pre ++ bodyOf c cur).length ∧ n = c.tSettle)
    ∧ ((pre ++ bodyOf c cur)[u]? = some .map → pre = [.map] ∧ u = 0) := by
  obtain ⟨op, pin, arg⟩ := cur
  have hlen : ∀ m, (pre ++ bodyOf c ⟨op, pin, arg⟩)[u]? = some m → u < 7 := by
    intro m hm
    have := (List.getElem?_eq_some_iff.mp hm).1
    rcases hp with rfl | rfl <;> cases op <;>
      simp [bodyOf, bodyInit, bodySet, bodyClr, bodyGet, bodyFsel, bodyPull, decodePin] at this <;> omega
  refine ⟨?_, ?_, ?_⟩
  all_goals
    intros
    have h7 := hlen _ (by assumption)
    rcases hp with rfl | rfl <;> cases op <;> interval_cases u <;>
      simp_all [bodyOf, bodyInit, bodySet, bodyClr, bodyGet, bodyFsel, bodyPull, decodePin]

/-- Every register a checked command reads or writes is one of the window's (41_decoder R172, R173). -/
theorem body_regs {c : Config} {cur : Cur} (h : CurOk c cur) {m : MicroOp} (hm : m ∈ bodyOf c cur) {r : Reg}
    (hr : m = .memRead r ∨ ∃ v q, m = .memWrite r v q) : r ∈ allRegs c := by
  rw [mem_allRegs]
  obtain ⟨op, pin, arg⟩ := cur
  have h32 := @div32_lt_nbank c pin
  have h10 := @div10_lt_nfsel c pin
  rcases hr with rfl | ⟨v, q, rfl⟩ <;> cases op <;>
    simp [bodyOf, bodyInit, bodySet, bodyClr, bodyGet, bodyFsel, bodyPull, decodePin] at hm <;> simp [CurOk] at h
  all_goals grind

end Sys2Proof.Machine
end

