-- ==== Sys2Proof/Laws/Outside.lean ====
section
/-! SUPPORT. What the controller and other masters do in a tick depends neither on the words held at the port nor on the
schedule, but for this tick's reset: each operation commutes with a change of both. -/

namespace Sys2Proof.Machine

/-- The machine with other words held at the port and another schedule. -/
def withOutside (ws : List Word) (is : List TickInput) (s : State) : State := { s with port := ws, schedule := is }

/-- An outcome with its next state changed. -/
def onNext (f : State → State) (o : Result) : Result := andThen o (fun s => .next (f s))

theorem andThen_onNext (f : State → State) (g : State → Result) (o : Result) :
    andThen (onNext f o) g = andThen o (fun s => g (f s)) := by
  cases o <;> rfl

/-- Where every next state holds the words ws at the port, only the schedule changes. -/
theorem onNext_withOutside {ws : List Word} {is : List TickInput} {o : Result} (h : ∀ t, o = .next t → t.port = ws) :
    onNext (withOutside ws is) o = onNext (fun t => { t with schedule := is }) o := by
  cases o with
  | next t => rw [← h t rfl]; rfl
  | fault e => rfl
  | refused e => rfl

theorem advance_withOutside (ws : List Word) (is : List TickInput) (s : State) :
    advance (withOutside ws is s) = withOutside ws is (advance s) := by
  by_cases h : s.ctl.uidx + 1 = s.ctl.prog.length
  · rw [show advance s = complete { s with ctl := { s.ctl with uidx := s.ctl.uidx + 1 } } from if_pos h]
    exact if_pos h
  · rw [show advance s = { s with ctl := { s.ctl with uidx := s.ctl.uidx + 1 } } from if_neg h]
    exact if_neg h

theorem getResult_withOutside (ws : List Word) (is : List TickInput) (s : State) :
    getResult (withOutside ws is s) = withOutside ws is (getResult s) := by
  by_cases h : s.ctl.cur.op = .get
  · rw [show getResult s = onStatus (recordLevel (s.ctl.tmp.getLsbD (s.ctl.cur.pin % 32))) s from if_pos h]
    exact if_pos h
  · rw [show getResult s = s from if_neg h]
    exact if_neg h

theorem mapStep_withOutside (ws : List Word) (is : List TickInput) (s : State) :
    mapStep (withOutside ws is s) = withOutside ws is (mapStep s) := by
  have e : (withOutside ws is s).draws = s.draws := rfl
  simp only [mapStep, e]
  split
  · rw [← advance_withOutside]; rfl
  · rfl

theorem waitStep_withOutside (n : Nat) (ws : List Word) (is : List TickInput) (s : State) :
    waitStep n (withOutside ws is s) = withOutside ws is (waitStep n s) := by
  by_cases h : s.ctl.waitcnt + 1 = n
  · rw [show waitStep n s = advance { s with ctl := { s.ctl with waitcnt := 0 } } from if_pos h, ← advance_withOutside]
    exact if_pos h
  · rw [show waitStep n s = { s with ctl := { s.ctl with waitcnt := s.ctl.waitcnt + 1 } } from if_neg h]
    exact if_neg h

/-- A micro-operation (10_state R32, R34). -/
theorem microStep_withOutside (ws : List Word) (is : List TickInput) (s : State) :
    microStep (withOutside ws is s) = onNext (withOutside ws is) (microStep s) := by
  have e : (withOutside ws is s).ctl = s.ctl := rfl
  have ec : ∀ r, ctlTarget r (withOutside ws is s) = ctlTarget r s := fun _ => rfl
  simp only [microStep, e]
  split
  · rfl
  · simp [mapStep_withOutside, onNext, andThen]
  · simp only [readStep, ec]
    split
    · simp only [onNext, andThen, ← advance_withOutside, ← getResult_withOutside]; rfl
    · rfl
  · simp only [writeStep, ec]
    split
    · simp only [onNext, andThen, ← advance_withOutside]; rfl
    · rfl
  · simp only [onNext, andThen, waitStep_withOutside]

/-- Acceptance of any word (10_state R31). -/
theorem accept_withOutside (w : Word) (check : Option FaultCode) (cur : Cur) (body : List MicroOp) (ws : List Word)
    (is : List TickInput) (s : State) :
    accept w check cur body (withOutside ws is s) = onNext (withOutside ws is) (accept w check cur body s) := by
  have e : (withOutside ws is s).ctl = s.ctl := rfl
  have e' : (withOutside ws is s).cfg = s.cfg := rfl
  simp only [accept, e, e']
  split
  · split
    · rfl
    · split
      · rfl
      · cases check <;> rfl
  · rfl

theorem exec_withOutside (i : Instr) (ws : List Word) (is : List TickInput) (s : State) :
    exec i (withOutside ws is s) = onNext (withOutside ws is) (exec i s) := by
  cases i <;> simp only [exec, execInit, execSet, execClr, execGet, execFsel, execPull] <;> exact accept_withOutside ..

/-- Other masters' accesses (20_memory R101). -/
theorem otherAccesses_withOutside (as : List Access) (ws : List Word) (is : List TickInput) (s : State) :
    otherAccesses as (withOutside ws is s) = onNext (withOutside ws is) (otherAccesses as s) := by
  have one : ∀ a s, otherAccess a (withOutside ws is s) = onNext (withOutside ws is) (otherAccess a s) := by
    intro a s
    have e' : (withOutside ws is s).cfg = s.cfg := rfl
    simp only [otherAccess, e']
    split
    · split
      · split
        · cases a.value <;> rfl
        · rfl
      · rfl
    · rfl
  induction as generalizing s with
  | nil => rfl
  | cons a as ih =>
    simp only [otherAccesses, one]
    cases otherAccess a s with
    | next t => exact ih t
    | fault e => rfl
    | refused e => rfl

/-- The controller's action under another schedule with the same reset in this tick (10_state R31, R32; 70_reset R270). -/
theorem controllerAct_withSchedule {is : List TickInput} {s : State} (h : (is.headD TickInput.quiet).reset = (tickInput s).reset) :
    controllerAct { s with schedule := is } = onNext (fun t => { t with schedule := is }) (controllerAct s) := by
  have h' : (tickInput { s with schedule := is }).reset = (tickInput s).reset := h
  simp only [controllerAct, show controllerTurn { s with schedule := is } = controllerTurn s by simp only [controllerTurn, h']]
  split
  · rfl
  · rw [← onNext_withOutside (fun t ht => (microStep_outside ht).2.2.2)]
    exact microStep_withOutside s.port is s
  · rfl
  · next i rest _ =>
    rw [← onNext_withOutside (fun t ht => (exec_outside ht).2.2.2.1)]
    exact exec_withOutside i rest is (setPort rest s)
  · next w e rest _ =>
    simp only [acceptIllegal]
    rw [← onNext_withOutside (fun t ht => (accept_outside ht).2.2.2.1)]
    exact accept_withOutside w (some (decodeFault e)) s.ctl.cur [] rest is (setPort rest s)

/-- A write to STATUS among the hosts' writes brings no command word (10_state R23). -/
theorem commandWords_status (earlier later : List HostWrite) (w : Word) :
    commandWords (earlier ++ .status w :: later) = commandWords (earlier ++ later) := by
  induction earlier with
  | nil => rfl
  | cons h t ih => cases h <;> simp [commandWords, ih]

end Sys2Proof.Machine
end

