-- ==== Sys2Proof/Laws/PerInstr.lean ====
section
/-! SUPPORT. One family of statements about every command as syntax: its word belongs to its row of R126 (30_encoding). -/

namespace Sys2Proof.Laws.RowOfWord

/-- The word of a well-formed command matches its row of the table of bit patterns (R126): masked, it is the row's match; and
both reserved fields are 0 (R121). -/
def Statement (i : Instr) : Prop :=
  WellFormed i = true → encode i &&& (rowOf i).2 = (rowOf i).1 ∧ rsv0Field (encode i) = 0 ∧ rsv1Field (encode i) = 0

/-- The mask of SET, CLR and GET clears the PIN field and nothing else of a packed command without argument. -/
theorem mask_pin (op : BitVec 4) (pin : Nat) :
    packCommand op pin 0#3 &&& 0xFFFF00FF#32 = packCommand op 0 0#3 := by
  unfold packCommand
  generalize BitVec.ofNat 8 pin = p
  revert p op
  decide +kernel

/-- The mask of FSEL clears PIN and ARG. -/
theorem mask_arg (pin : Nat) (arg : BitVec 3) :
    packCommand 0x5#4 pin arg &&& 0xFFF800FF#32 = packCommand 0x5#4 0 0#3 := by
  unfold packCommand
  generalize BitVec.ofNat 8 pin = p
  revert p arg
  decide +kernel

/-- The mask of PULL clears PIN and the direction. -/
theorem mask_dir (pin : Nat) (d : BitVec 2) :
    packCommand 0x6#4 pin (0#1 ++ d) &&& 0xFFFC00FF#32 = packCommand 0x6#4 0 0#3 := by
  unfold packCommand
  generalize BitVec.ofNat 8 pin = p
  revert p d
  decide +kernel

theorem reserved (op : BitVec 4) (pin : Nat) (arg : BitVec 3) :
    rsv0Field (packCommand op pin arg) = 0 ∧ rsv1Field (packCommand op pin arg) = 0 :=
  ⟨(packCommand_fields op pin arg).2.1, (packCommand_fields op pin arg).2.2.2.2⟩

theorem init : Statement .init := fun _ => ⟨by decide, reserved _ _ _⟩

theorem set (pin : Nat) : Statement (.set pin) := fun _ => ⟨(mask_pin 0x2#4 pin).trans rfl, reserved _ _ _⟩

theorem clr (pin : Nat) : Statement (.clr pin) := fun _ => ⟨(mask_pin 0x3#4 pin).trans rfl, reserved _ _ _⟩

theorem get (pin : Nat) : Statement (.get pin) := fun _ => ⟨(mask_pin 0x4#4 pin).trans rfl, reserved _ _ _⟩

theorem fsel (pin : Nat) (f : BitVec 3) : Statement (.fsel pin f) :=
  fun _ => ⟨(mask_arg pin f).trans rfl, reserved _ _ _⟩

theorem pull (pin : Nat) (d : BitVec 2) : Statement (.pull pin d) :=
  fun _ => ⟨(mask_dir pin d).trans rfl, reserved _ _ _⟩

end Sys2Proof.Laws.RowOfWord
end

