-- ==== Sys2Proof/Laws/Pull.lean ====
section
/-! SUPPORT. The run of a PULL from its acceptance to its end: its six micro-operations one after the other (43_pull R215). -/

namespace Sys2Proof.Machine

/-- A write that is the last transaction of TRACE is seen by the adjacency test exactly when it is to PUD (20_memory R85). -/
theorem lastPudWrite_append (c : Config) (tr : List TraceEntry) (e : TraceEntry) :
    lastPudWrite c (tr ++ [e]) = if e.kind = .write ∧ e.addr = physAddr c .pud then some e.tick else none := by
  simp [lastPudWrite]

/-- The pull-control register's address is no pull-clock bank's (20_memory R74). -/
theorem physAddr_pudclk_ne (c : Config) (b : Nat) : physAddr c (.pudclk b) ≠ physAddr c .pud := by
  simp only [physAddr, regOffset]; omega

/-- The peripheral after the four writes of a PULL of pin p, direction d, whose first write is at tick τ with draw D and sees
`last` as the PUD write before it; T is T_SETTLE (43_pull R215, R218). -/
def pullPeriph (c : Config) (p : Nat) (d : BitVec 2) (τ D : Nat) (last : Option Nat) (per : Periph) : Periph :=
  writeReg c ⟨τ + 2 * c.tSettle + 3, D + 3, some (τ + 2 * c.tSettle + 2), []⟩ (.pudclk (p / 32)) 0
    (writeReg c ⟨τ + 2 * c.tSettle + 2, D + 2, none, []⟩ .pud 0
      (writeReg c ⟨τ + c.tSettle + 1, D + 1, some τ, []⟩ (.pudclk (p / 32)) (1#32 <<< (p % 32))
        (writeReg c ⟨τ, D, last, []⟩ .pud (d.setWidth 32) per)))

/-- A tick at a MemWrite that is not the last micro-operation: everything of the state after it. -/
theorem tick_write {s : State} {r : Reg} {v : Word} {q : Option Seq} (hc : configOk s.cfg = true) (hm : Mapped s)
    (hu : Undisturbed 1 s) (hb : s.ctl.status.busy = true) (hp : s.ctl.prog[s.ctl.uidx]? = some (.memWrite r (.imm v) q))
    (hr : r ∈ allRegs s.cfg) (hl : s.ctl.uidx + 1 < s.ctl.prog.length) :
    ∃ t, step s = .next t ∧ t.ctl = { s.ctl with uidx := s.ctl.uidx + 1, status := enterSeq q s.ctl.status }
      ∧ t.cfg = s.cfg ∧ t.grant = s.grant ∧ t.periph = writeReg s.cfg (writeCtx .controller s) r v s.periph
      ∧ t.trace = s.trace ++ [⟨.controller, s.tick, .write, physAddr s.cfg r, v⟩]
      ∧ t.tick = s.tick + 1 ∧ t.draws = s.draws + 1 ∧ t.schedule = s.schedule.tail
      ∧ s.port <+: t.port ∧ t.stale = s.stale.filter (strobeAsserted t.periph) := by
  refine ⟨_, step_write hc hm hu hb hp hr, ?_, by simp, by simp, by simp [writeValue], by simp [writeValue], by simp,
    by simp, by simp, by simp, by simp⟩
  rw [(nextTick_fields _).2.1, advance_notLast]
  · simp
  · simpa using Nat.ne_of_lt hl

/-- A tick at a MemWrite that is the last micro-operation: the command completes. -/
theorem tick_write_last {s : State} {r : Reg} {v : Word} {q : Option Seq} (hc : configOk s.cfg = true) (hm : Mapped s)
    (hu : Undisturbed 1 s) (hb : s.ctl.status.busy = true) (hp : s.ctl.prog[s.ctl.uidx]? = some (.memWrite r (.imm v) q))
    (hr : r ∈ allRegs s.cfg) (hl : s.ctl.uidx + 1 = s.ctl.prog.length) :
    ∃ t, step s = .next t
      ∧ t.ctl = { s.ctl with prog := [], uidx := 0, status := setBusy false (enterSeq q s.ctl.status) }
      ∧ t.cfg = s.cfg ∧ t.grant = s.grant ∧ t.periph = writeReg s.cfg (writeCtx .controller s) r v s.periph
      ∧ t.trace = s.trace ++ [⟨.controller, s.tick, .write, physAddr s.cfg r, v⟩]
      ∧ t.tick = s.tick + 1 ∧ t.draws = s.draws + 1 ∧ t.schedule = s.schedule.tail
      ∧ s.port <+: t.port ∧ t.stale = s.stale.filter (strobeAsserted t.periph) := by
  refine ⟨_, step_write hc hm hu hb hp hr, ?_, by simp, by simp, by simp [writeValue], by simp [writeValue], by simp,
    by simp, by simp, by simp, by simp⟩
  rw [(nextTick_fields _).2.1, advance_last]
  · simp
  · simpa using hl

theorem Undisturbed.drop {k n : Nat} {s t : State} (h : Undisturbed (k + n) s) (ht : t.schedule = s.schedule.drop k) :
    Undisturbed n t := by
  induction k generalizing s with
  | zero => exact (h.congr (by simpa using ht)).mono (by omega)
  | succ k ih =>
    have h' : Undisturbed (k + n + 1) s := by rwa [Nat.add_right_comm]
    refine ih (s := { s with schedule := s.schedule.tail }) (h'.tail rfl) ?_
    rw [ht, List.drop_tail]

/-- The whole run of a PULL whose checks pass. -/
theorem pull_run {s : State} {p n : Nat} {d : BitVec 2} (h : Ready s) (hm : CanMap s) (hp : p < s.cfg.npins) (hd : d ≠ 3#2)
    (hu : Undisturbed (mapTicks s + 5 + 2 * s.cfg.tSettle + n) s) :
    ∃ t u, exec (.pull p d) s = .next t ∧ Runs (mapTicks s + 4 + 2 * s.cfg.tSettle) (nextTick t) u
      ∧ u.ctl = { doneCtl (.pull p d) s with status := { (doneCtl (.pull p d) s).status with seq := .idle } }
      ∧ u.cfg = s.cfg ∧ u.grant = grantAfter s
      ∧ u.periph = pullPeriph s.cfg p d (s.tick + mapTicks s + 1) (s.draws + mapTicks s) (lastPudWrite s.cfg s.trace) s.periph
      ∧ u.trace = s.trace ++
          [⟨.controller, s.tick + mapTicks s + 1, .write, physAddr s.cfg .pud, d.setWidth 32⟩,
           ⟨.controller, s.tick + mapTicks s + 2 + s.cfg.tSettle, .write, physAddr s.cfg (.pudclk (p / 32)), 1#32 <<< (p % 32)⟩,
           ⟨.controller, s.tick + mapTicks s + 3 + 2 * s.cfg.tSettle, .write, physAddr s.cfg .pud, 0⟩,
           ⟨.controller, s.tick + mapTicks s + 4 + 2 * s.cfg.tSettle, .write, physAddr s.cfg (.pudclk (p / 32)), 0⟩]
      ∧ Undisturbed n u ∧ s.port <+: u.port
      ∧ u.stale = s.stale.filter (fun q => strobeAsserted s.periph q && decide (q / 32 ≠ p / 32)) := by
  have hT : 1 ≤ s.cfg.tSettle := by simp only [Config.tSettle, Config.tHwMin]; omega
  have hbody : bodyOf s.cfg (curOf (.pull p d)) = bodyPull s.cfg p d := by
    simp [bodyOf, curOf, zero_append_extract]
  obtain ⟨t, v, he, hr, ha, hv⟩ := accept_to_body (i := .pull p d) (n := 4 + 2 * s.cfg.tSettle + n) h hm ⟨hp, hd⟩
    (by rw [hbody]; simp [bodyPull, decodePin]) (hu.mono (by omega))
  rw [hbody] at ha
  generalize hP : mapFirst s ++ bodyPull s.cfg p d = P at ha
  have hat : ∀ j, P[mapTicks s + j]? = (bodyPull s.cfg p d)[j]? := by
    intro j; rw [← hP]; exact prog_getElem? s _ j
  have hlen : P.length = mapTicks s + 6 := by rw [← hP, prog_length]; rfl
  have mpud : Reg.pud ∈ allRegs s.cfg := by simp [mem_allRegs]
  have mclk : Reg.pudclk (p / 32) ∈ allRegs s.cfg := by simp [mem_allRegs, div32_lt_nbank hp]
  -- step 1
  obtain ⟨v1, s1, c1, g1, gr1, p1, t1, k1, d1, sc1, pt1, st1⟩ := tick_write (s := v) (r := .pud) (v := d.setWidth 32) (q := some .loaded)
    (by rw [ha.cfg]; exact h.1) ha.mapped (hv.mono (by omega)) ha.busy (by rw [ha.ctl]; exact hat 0)
    (by rw [ha.cfg]; exact mpud) (by simp only [ha.ctl, hlen]; omega)
  rw [ha.ctl] at c1
  rw [ha.cfg] at g1
  have u1 : Undisturbed (3 + 2 * s.cfg.tSettle + n) v1 := by
    refine Undisturbed.tail (s := v) ?_ sc1
    exact hv.mono (by omega)
  -- step 2
  obtain ⟨v2, r2, c2, g2, gr2, p2, t2, k2, d2, sc2, pt2, st2⟩ := run_wait (n := s.cfg.tSettle) s.cfg.tSettle v1 (by rw [g1]; exact h.1)
    (u1.mono (by omega)) (by simp [c1, enterSeq]) (by rw [c1]; exact hat 1) (by simp only [c1, hlen]; omega)
    (by simp [c1, doneCtl]) hT
  rw [c1] at c2
  rw [g1] at g2
  have u2 : Undisturbed (3 + s.cfg.tSettle + n) v2 := by
    refine Undisturbed.drop (s := v1) (k := s.cfg.tSettle) ?_ sc2
    exact u1.mono (by omega)
  -- step 3
  obtain ⟨v3, s3, c3, g3, gr3, p3, t3, k3, d3, sc3, pt3, st3⟩ := tick_write (s := v2) (r := .pudclk (p / 32)) (v := 1#32 <<< (p % 32))
    (q := some .clocked) (by rw [g2]; exact h.1) (by simp [Mapped, c2, g2, doneCtl, enterSeq]) (u2.mono (by omega))
    (by simp [c2, enterSeq]) (by rw [c2]; exact hat 2) (by rw [g2]; exact mclk) (by simp only [c2, hlen]; omega)
  rw [c2] at c3
  rw [g2] at g3
  have u3 : Undisturbed (2 + s.cfg.tSettle + n) v3 := by
    refine Undisturbed.tail (s := v2) ?_ sc3
    exact u2.mono (by omega)
  -- step 4
  obtain ⟨v4, r4, c4, g4, gr4, p4, t4, k4, d4, sc4, pt4, st4⟩ := run_wait (n := s.cfg.tSettle) s.cfg.tSettle v3 (by rw [g3]; exact h.1)
    (u3.mono (by omega)) (by simp [c3, enterSeq]) (by rw [c3]; exact hat 3) (by simp only [c3, hlen]; omega)
    (by simp [c3, doneCtl]) hT
  rw [c3] at c4
  rw [g3] at g4
  have u4 : Undisturbed (2 + n) v4 := by
    refine Undisturbed.drop (s := v3) (k := s.cfg.tSettle) ?_ sc4
    exact u3.mono (by omega)
  -- step 5a
  obtain ⟨v5, s5, c5, g5, gr5, p5, t5, k5, d5, sc5, pt5, st5⟩ := tick_write (s := v4) (r := .pud) (v := 0)
    (q := none) (by rw [g4]; exact h.1) (by simp [Mapped, c4, g4, doneCtl, enterSeq]) (u4.mono (by omega))
    (by simp [c4, enterSeq]) (by rw [c4]; exact hat 4) (by rw [g4]; exact mpud) (by simp only [c4, hlen]; omega)
  rw [c4] at c5
  rw [g4] at g5
  have u5 : Undisturbed (1 + n) v5 := by
    refine Undisturbed.tail (s := v4) ?_ sc5
    exact u4.mono (by omega)
  -- step 5b
  obtain ⟨v6, s6, c6, g6, gr6, p6, t6, k6, d6, sc6, pt6, st6⟩ := tick_write_last (s := v5) (r := .pudclk (p / 32)) (v := 0)
    (q := some .idle) (by rw [g5]; exact h.1) (by simp [Mapped, c5, g5, doneCtl, enterSeq]) (u5.mono (by omega))
    (by simp [c5, enterSeq]) (by rw [c5]; exact hat 5) (by rw [g5]; exact mclk) (by simp only [c5, hlen])
  rw [c5] at c6
  have htr1 : v1.trace = s.trace ++ [⟨.controller, s.tick + mapTicks s + 1, .write, physAddr s.cfg .pud, d.setWidth 32⟩] := by
    rw [t1, ha.trace, ha.tick, ha.cfg, Nat.add_right_comm]
  have htk : v.tick = s.tick + mapTicks s + 1 := by rw [ha.tick]; omega
  have htr3 : v3.trace = v2.trace ++
      [⟨.controller, s.tick + mapTicks s + 2 + s.cfg.tSettle, .write, physAddr s.cfg (.pudclk (p / 32)), 1#32 <<< (p % 32)⟩] := by
    rw [t3, g2, k2, k1, htk]
  have htr5 : v5.trace = v4.trace ++ [⟨.controller, s.tick + mapTicks s + 3 + 2 * s.cfg.tSettle, .write, physAddr s.cfg .pud, 0⟩] := by
    rw [t5, g4, k4, k3, k2, k1, htk]
    congr 3
    omega
  refine ⟨t, v6, he, ?_, ?_, ?_, ?_, ?_, ?_, ?_, ?_, ?_⟩
  · have := hr.trans (Runs.succ s1 (r2.trans (Runs.succ s3 (r4.trans (Runs.succ s5 (Runs.one s6))))))
    have e : mapTicks s + (s.cfg.tSettle + (s.cfg.tSettle + (1 + 1) + 1) + 1) = mapTicks s + 4 + 2 * s.cfg.tSettle := by omega
    rwa [e] at this
  · rw [c6]; simp [doneCtl, setBusy, enterSeq]
  · rw [g6, g5]
  · rw [gr6, gr5, gr4, gr3, gr2, gr1, ha.grant]
  · rw [p6, g5, p5, g4, p4, p3, g2, p2, p1, ha.cfg, ha.periph]
    simp only [pullPeriph, writeCtx, openPins_controller]
    rw [g5, g4, g2, ha.cfg, htr5, t4, htr3, t2, htr1, ha.trace]
    simp only [lastPudWrite_append, physAddr_pudclk_ne, and_false, if_false, true_and, if_true]
    rw [k5, k4, k3, k2, k1, htk, d5, d4, d3, d2, d1, ha.draws]
    have e1 : s.tick + mapTicks s + 1 + 1 + s.cfg.tSettle + 1 + s.cfg.tSettle + 1 = s.tick + mapTicks s + 1 + 2 * s.cfg.tSettle + 3 := by omega
    have e2 : s.tick + mapTicks s + 1 + 1 + s.cfg.tSettle + 1 + s.cfg.tSettle = s.tick + mapTicks s + 1 + 2 * s.cfg.tSettle + 2 := by omega
    have e3 : s.tick + mapTicks s + 1 + 1 + s.cfg.tSettle = s.tick + mapTicks s + 1 + s.cfg.tSettle + 1 := by omega
    have e4 : s.tick + mapTicks s + 3 + 2 * s.cfg.tSettle = s.tick + mapTicks s + 1 + 2 * s.cfg.tSettle + 2 := by omega
    rw [e1, e2, e3, e4]
  · rw [t6, g5, htr5, t4, htr3, t2, htr1, k5, k4, k3, k2, k1, htk]
    simp
    omega
  · exact Undisturbed.tail (s := v5) (u5.mono (by omega)) sc6
  · exact ha.port.trans (pt1.trans (pt2.trans (pt3.trans (pt4.trans (pt5.trans pt6)))))
  · rw [st6, st5, st4, st3, st2, st1, ha.stale]
    simp only [List.filter_filter]
    congr 1
    funext q
    rw [p6, p5, p4, p3, p2, p1, ha.periph]
    simp only [strobeAsserted_writeReg, writeReg_pins_length, Reg.pudclk.injEq, reduceCtorEq, if_false]
    by_cases hq : p / 32 = q / 32
    · simp [hq]
    · have hq' : ¬ q / 32 = p / 32 := fun h => hq h.symm
      simp [hq, hq']

end Sys2Proof.Machine
end

