-- ==== Sys2Proof/Tests/Slice0.lean ====
section
/-! SUPPORT. The model's own tests: encodings written out from 30_encoding, vectors of 95_test_vectors, and a witness for the
hypotheses of every statement that has some. -/

namespace Sys2Proof.Tests

open Sys2Proof Sys2Proof.Machine

/-! ## Well-formedness: a pin must fit 8 bits (R122) -/

theorem test_wf_set_256 : WellFormed (.set 256) = false := by decide
theorem test_wf_clr_256 : WellFormed (.clr 256) = false := by decide
theorem test_wf_get_256 : WellFormed (.get 256) = false := by decide
theorem test_wf_fsel_256 : WellFormed (.fsel 256 7#3) = false := by decide
theorem test_wf_pull_256 : WellFormed (.pull 256 1#2) = false := by decide
theorem test_wf_accepts : WellFormed .init = true ∧ WellFormed (.set 255) = true := by decide

/-! ## Words written out from the bit patterns of R126: RSV1 ARG PIN RSV0 OP -/

theorem test_decode_init : decode 0b0000000000000_000_00000000_0000_0001#32 = .ok .init := by decide
theorem test_decode_set : decode 0b0000000000000_000_00010110_0000_0010#32 = .ok (.set 22) := by decide
theorem test_decode_clr : decode 0b0000000000000_000_11111111_0000_0011#32 = .ok (.clr 255) := by decide
theorem test_decode_get : decode 0b0000000000000_000_00100000_0000_0100#32 = .ok (.get 32) := by decide
theorem test_decode_fsel : decode 0b0000000000000_100_00010001_0000_0101#32 = .ok (.fsel 17 0b100#3) := by decide
theorem test_decode_pull : decode 0b0000000000000_001_00110101_0000_0110#32 = .ok (.pull 53 0b01#2) := by decide

/-- 95_test_vectors 2.2, the words that are no command (R127, R128; the order of R245). -/
theorem test_decode_illegal :
    decode 0x00000000#32 = .error .badOpcode ∧ decode 0x00000007#32 = .error .badOpcode
    ∧ decode 0xFFFFFFFF#32 = .error .badOpcode ∧ decode 0x00000011#32 = .error .badEncoding
    ∧ decode 0x00000101#32 = .error .badEncoding ∧ decode 0x00011602#32 = .error .badEncoding
    ∧ decode 0x000000F2#32 = .error .badEncoding ∧ decode 0x80000002#32 = .error .badEncoding
    ∧ decode 0x00080005#32 = .error .badEncoding ∧ decode 0x00051606#32 = .error .badEncoding
    ∧ decode 0x00043606#32 = .error .badEncoding := by decide

/-- 95_test_vectors 2.2, the words that decode and fault later. -/
theorem test_decode_faulting :
    decode 0x0000FF04#32 = .ok (.get 255) ∧ decode 0x00031606#32 = .ok (.pull 22 3#2)
    ∧ decode 0x00033606#32 = .ok (.pull 54 3#2) ∧ decode 0x00023606#32 = .ok (.pull 54 2#2) := by decide

/-- The encoder on R134's examples. -/
theorem test_encode :
    encode .init = 0x00000001#32 ∧ encode (.set 53) = 0x00003502#32 ∧ encode (.clr 22) = 0x00001603#32
    ∧ encode (.get 22) = 0x00001604#32 ∧ encode (.fsel 9 7#3) = 0x00070905#32 ∧ encode (.pull 22 2#2) = 0x00021606#32 := by
  decide

theorem test_table_word : decodeTableWord 32 0x00070905 = some (.fsel 9 7#3) ∧ decodeTableWord 33 1 = none := by decide

/-! ## The register decoder: rows of R177 and 95_test_vectors 2.3 -/

theorem test_decoder_rows :
    decodePin 53 .lev = (1, 21) ∧ decodePin 32 .clr = (1, 0) ∧ decodePin 22 .fsel = (2, 6) ∧ decodePin 9 .fsel = (0, 27)
    ∧ decodePin 53 .fsel = (5, 9) ∧ bitmask 31 = 0x80000000#32 ∧ bitmask 39 = 0x00000080#32
    ∧ fieldmask 9 = 0x38000000#32 ∧ fieldmask 17 = 0x00E00000#32 := by decide

/-- FSEL's combined values, rows of R204. -/
theorem test_merge_rows :
    mergeField 0x3FFFFFFF#32 0b001#3 6 = 0x3FFFFE7F#32 ∧ mergeField 0x00000249#32 0b100#3 21 = 0x00800249#32
    ∧ mergeField 0xC0000000#32 0b010#3 9 = 0xC0000400#32 ∧ mergeField 0x00000007#32 0b101#3 0 = 0x00000005#32 := by decide

/-! ## Small machines -/

/-- The default configuration with T_SETTLE = T_HW_MIN = 2 and no other masters, as 95_test_vectors takes it. -/
def cfg : Config := { Config.default with hwMinPred := 1, settleSlack := 0, otherMasters := false }

/-- The same with other masters. -/
def cfgShared : Config := { cfg with otherMasters := true }

/-- Right after reset. -/
def fresh : State := State.launch cfg (Periph.powerOn cfg)

/-- Right after a successful INIT: STATUS = 0x00000001. -/
def mapped : State := { fresh with
  grant := some true
  ctl := { fresh.ctl with
    wbase := cfg.periphBase, tables := mapTables cfg cfg.periphBase, status := { Status.reset with mapped := true } } }

/-- A machine with one pin's state changed. -/
def withPin (p : Nat) (f : Pin → Pin) (s : State) : State := { s with periph := { s.periph with pins := s.periph.pins.modify p f } }

/-- A machine whose pin p is an output with the given latch. -/
def withOutput (p : Nat) (high : Bool) (s : State) : State := withPin p (fun pin => { pin with func := 0b001#3, latch := high }) s

/-- A machine with words held at the command port. -/
def offering (ws : List Word) (s : State) : State := { s with port := ws }

/-- A mapped machine that runs a command, before micro-operation u of its body. -/
def running (i : Instr) (u : Nat) (s : State) : State := { s with
  ctl := { s.ctl with
    cur := curOf i, prog := bodyOf s.cfg (curOf i), uidx := u
    status := { s.ctl.status with busy := true, seq := seqAt (bodyOf s.cfg (curOf i)) u } } }

/-- STATUS as the host reads it after one step. -/
def statusAfter (s : State) : Option Word :=
  match step s with
  | .next t => some (hostReadStatus t)
  | _ => none

/-- The last transaction's kind, address and value after one step. -/
def accessAfter (s : State) : Option (Kind × Nat × Word) :=
  match step s with
  | .next t => (t.trace.getLast?).map (fun e => (e.kind, e.addr, e.value))
  | _ => none

/-- A pin after one step. -/
def pinAfter (p : Nat) (s : State) : Option Pin :=
  match step s with
  | .next t => t.periph.pins[p]?
  | _ => none

/-! ## One step each: 95_test_vectors 2.1 to 2.8 -/

/-- V-INIT-6. -/
theorem test_init_mapped :
    statusAfter (offering [0x00000001#32] { mapped with ctl := { mapped.ctl with
      status := { mapped.ctl.status with resultValid := true, level := true } } }) = some 0x00000021#32 := by decide +kernel

/-- V-INIT-1: the tables, and INIT from reset starts the Map. -/
theorem test_init_tables :
    statusAfter (offering [0x00000001#32] fresh) = some 0x00000002#32
    ∧ mapped.ctl.tables.fselAddr = [0x20200000, 0x20200004, 0x20200008, 0x2020000C, 0x20200010, 0x20200014]
    ∧ mapped.ctl.tables.setAddr = [0x2020001C, 0x20200020] ∧ mapped.ctl.tables.clrAddr = [0x20200028, 0x2020002C]
    ∧ mapped.ctl.tables.levAddr = [0x20200034, 0x20200038] ∧ mapped.ctl.tables.pudclkAddr = [0x20200098, 0x2020009C]
    ∧ mapped.ctl.tables.pudAddr = 0x20200094 := by decide +kernel

/-- V-SC-4 and V-SC-3: bank 1 begins at pin 32. -/
theorem test_set_write :
    accessAfter (running (.set 32) 0 mapped) = some (.write, 0x20200020, 0x00000001#32)
    ∧ accessAfter (running (.set 31) 0 mapped) = some (.write, 0x2020001C, 0x80000000#32) := by decide +kernel

/-- V-SC-12: no cross-pin interference; and the latch is set. -/
theorem test_set_latch :
    (pinAfter 22 (running (.set 22) 0 (withOutput 21 true mapped))).map Pin.latch = some true
    ∧ (pinAfter 21 (running (.set 22) 0 (withOutput 21 true mapped))).map Pin.latch = some true
    ∧ (pinAfter 23 (running (.set 22) 0 mapped)).map Pin.latch = some false := by decide +kernel

/-- V-SC-7. -/
theorem test_clr_write :
    accessAfter (running (.clr 53) 0 mapped) = some (.write, 0x2020002C, 0x00200000#32)
    ∧ statusAfter (running (.clr 53) 0 mapped) = some 0x00000001#32 := by decide +kernel

theorem test_clr_latch :
    (pinAfter 53 (running (.clr 53) 0 (withOutput 53 true mapped))).map Pin.latch = some false := by decide +kernel

/-- A machine all of whose pins are outputs, pin p high and the others low: every bit of its level bank 0 is known. -/
def onlyHigh (p : Nat) (s : State) : State := { s with periph := { s.periph with
  pins := s.periph.pins.mapIdx (fun q pin => { pin with func := 0b001#3, latch := q == p }) } }

/-- V-GET-1 and V-GET-2. -/
theorem test_get_status :
    statusAfter (running (.get 22) 0 (onlyHigh 22 mapped)) = some 0x00000031#32
    ∧ accessAfter (running (.get 22) 0 (onlyHigh 22 mapped)) = some (.read, 0x20200034, 0x00400000#32)
    ∧ statusAfter (running (.get 22) 0 (onlyHigh 21 mapped)) = some 0x00000011#32 := by decide +kernel

/-- V-GET-7: the acceptance of the next command clears RESULT_VALID and keeps LEVEL. -/
theorem test_get_then_set :
    statusAfter (offering [0x00001502#32] { mapped with ctl := { mapped.ctl with
      status := { mapped.ctl.status with resultValid := true, level := true } } }) = some 0x00000023#32 := by decide +kernel

/-- V-FS-1 and V-FS-4: the written word, from what the read left in TMP. -/
theorem test_fsel_write :
    accessAfter (let s := running (.fsel 9 0#3) 1 mapped; { s with ctl := { s.ctl with tmp := 0xFFFFFFFF#32 } })
      = some (.write, 0x20200000, 0xC7FFFFFF#32)
    ∧ accessAfter (running (.fsel 29 7#3) 1 mapped) = some (.write, 0x20200008, 0x38000000#32) := by decide +kernel

/-- V-FS-5: FSEL of pin 50 with FUNC[51] = 111 read as 7 in bits 5:3. -/
theorem test_fsel_func :
    (pinAfter 50 (let s := running (.fsel 50 1#3) 1 mapped; { s with ctl := { s.ctl with tmp := 0xFFFFF038#32 } })).map Pin.func
      = some 1#3
    ∧ (pinAfter 51 (let s := running (.fsel 50 1#3) 1 mapped; { s with ctl := { s.ctl with tmp := 0xFFFFF038#32 } })).map Pin.func
      = some 7#3 := by decide +kernel

/-- V-PULL-5, steps 1 and 3. -/
theorem test_pull_writes :
    accessAfter (running (.pull 32 1#2) 0 mapped) = some (.write, 0x20200094, 0x00000001#32)
    ∧ accessAfter (running (.pull 32 1#2) 2 mapped) = some (.write, 0x2020009C, 0x00000001#32)
    ∧ accessAfter (running (.pull 32 1#2) 4 mapped) = some (.write, 0x20200094, 0x00000000#32)
    ∧ accessAfter (running (.pull 32 1#2) 5 mapped) = some (.write, 0x2020009C, 0x00000000#32) := by decide +kernel

/-- 95_test_vectors 2.7: STATUS during steps 2 and 4, and after step 5b. -/
theorem test_pull_status :
    statusAfter (running (.pull 22 2#2) 0 mapped) = some 0x00000043#32
    ∧ statusAfter (running (.pull 22 2#2) 2 mapped) = some 0x00000083#32
    ∧ statusAfter (running (.pull 22 2#2) 5 mapped) = some 0x00000001#32 := by decide +kernel

/-- V-F-1 to V-F-4. -/
theorem test_faults :
    statusAfter (offering [0x00000000#32] fresh) = some 0x00000208#32
    ∧ statusAfter (offering [0x00011602#32] mapped) = some 0x00000309#32
    ∧ statusAfter (offering [0x00031606#32] mapped) = some 0x00000409#32
    ∧ statusAfter (offering [0x00003602#32] fresh) = some 0x00000508#32 := by decide +kernel

/-- A machine that has faulted with PIN_RANGE. -/
def faulted : State := { fresh with ctl := { fresh.ctl with status := { Status.reset with fault := true, faultCode := .pinRange } } }

/-- V-F-5, and V-F-9. -/
theorem test_reject_and_reset :
    statusAfter (offering [0x00001602#32] faulted) = some 0x00001508#32
    ∧ statusAfter { faulted with schedule := [⟨[], [], true, []⟩] } = some 0x00000000#32 := by decide +kernel

/-- Lines of 95_test_vectors 2.2, and R131's refusals. -/
theorem test_assembler :
    assembleLine cfg "FSEL 17, ALT0" = some 0x00041105#32 ∧ assembleLine cfg "output 14" = some 0x00010E05#32
    ∧ assembleLine cfg "PULLDOWN 0x35" = some 0x00013506#32 ∧ assembleLine cfg "LOW 12" = some 0x00000C03#32
    ∧ assembleLine cfg "SET 54" = some 0x00003602#32 ∧ assembleLine cfg "SET 256" = none
    ∧ assembleLine cfg "FSEL 1, 8" = none ∧ assembleLine cfg "PULL 1, LEFT" = none := by decide +kernel

/-! ## The strobe rule: 95_test_vectors 2.7, peripheral only, T_HW_MIN = 2 -/

/-- Writes to the peripheral, each at its tick; the last field says whether the transaction just before it was the PUD write
of the given tick. -/
def strobeRun : Periph → List (Nat × Reg × Word × Option Nat) → Periph
  | per, [] => per
  | per, (t, r, v, last) :: rest => strobeRun (writeReg cfg ⟨t, t, last, []⟩ r v per) rest

/-- The cell of pin 22 afterwards, with PUD written at tick 10. -/
def cell22 (code : Word) (ws : List (Nat × Reg × Word × Option Nat)) : Option Pull :=
  ((strobeRun (Periph.powerOn cfg) ((10, .pud, code, none) :: ws)).pins[22]?).map Pin.pcell

/-- PUDCLK0 with the bit of pin 22 set. -/
def clk22 : Word := 0x00400000#32

/-- V-STB-1 and V-STB-7: the strobe latches. -/
theorem test_strobe_up :
    cell22 2 [(13, .pudclk 0, clk22, some 10), (16, .pud, 0, none), (17, .pudclk 0, 0, some 16)] = some .up
    ∧ cell22 2 [(13, .pudclk 0, clk22, some 10), (16, .pudclk 0, 0, none)] = some .up := by decide +kernel

/-- V-STB-2 to V-STB-6 and V-STB-8: the cell is left unknown by the strobe's end, a draw numbered by its tick here. -/
theorem test_strobe_unknown :
    cell22 2 [(12, .pudclk 0, clk22, none), (15, .pud, 0, none), (16, .pudclk 0, 0, some 15)] = some (Config.freePull 16 22)
    ∧ cell22 2 [(13, .pudclk 0, clk22, none), (15, .pud, 0, none), (16, .pudclk 0, 0, some 15)] = some (Config.freePull 16 22)
    ∧ cell22 2 [(13, .pudclk 0, clk22, none), (16, .pud, 0, none), (18, .pudclk 0, 0, some 16)] = some (Config.freePull 18 22)
    ∧ cell22 2 [(13, .pudclk 0, clk22, none), (16, .pud, 0, none), (17, .pudclk 0, 0, none)] = some (Config.freePull 17 22)
    ∧ cell22 2 [(13, .pudclk 0, clk22, none), (16, .pud, 0, none), (17, .pud, 0, none), (18, .pudclk 0, 0, some 17)]
        = some (Config.freePull 18 22)
    ∧ cell22 3 [(13, .pudclk 0, clk22, none), (16, .pud, 0, none), (17, .pudclk 0, 0, some 16)] = some (Config.freePull 17 22) := by
  exact ⟨rfl, rfl, rfl, rfl, rfl, rfl⟩

/-- R85 alone: a settled, held strobe with late = 0 latches its code however soon it ends. -/
theorem test_strobe_short : cell22 2 [(13, .pudclk 0, clk22, some 10), (15, .pudclk 0, 0, none)] = some .up := rfl

/-- A configuration that R7 admits: PAGE_SIZE 2 with the default base; and one whose base is no multiple of 4 (R92, log 15). -/
theorem test_config_base :
    configOk { cfg with pageSize := 2 } = true ∧ configOk { cfg with pageSize := 2, periphBase := 0x20200002 } = false := by decide

/-! ## Witnesses: for each statement with hypotheses, a state and operands that meet all of them, at the edge of their range -/

theorem quiet {n : Nat} {s : State} (h : s.schedule = []) : Undisturbed n s := by
  simp [Undisturbed, h]

theorem config_ok : configOk cfg = true ∧ configOk cfgShared = true := by decide

theorem ready_mapped : Ready mapped := by unfold Ready; decide

theorem ready_fresh : Ready fresh := by unfold Ready; decide

theorem mapped_mapped : Mapped mapped := ⟨rfl, rfl, rfl⟩

theorem quiescent_mapped : Quiescent mapped := ⟨rfl, by decide⟩

/-- A pin's strobe records are in order when its clock bit says so and no late write is counted. -/
theorem pinOk_of {pin : Pin} (h : pin.clk = pin.strobe.isSome) (h' : ∀ st ∈ pin.strobe, st.late = 0 ∧ st.lateT = none) :
    PinOk pin := ⟨h, fun st hst => by simp [h' st hst]⟩

/-- A machine whose pin 22 has a strobe since tick 0. -/
def strobed : State := withPin 22 (fun pin => { pin with clk := true, strobe := some ⟨0, 2#2, true, true, 0, none⟩ }) mapped

/-- A machine with other masters present. -/
def shared : State := { mapped with cfg := cfgShared }

/-- A PULL of pin 22 in step 4 at tick 3, its strobe since tick 0, with other masters present. -/
def strobedInPull : State := running (.pull 22 2#2) 3 { strobed with cfg := cfgShared, tick := 3 }

/-- The machine after a reset in step 4 of a PULL of pin 22, whose strobe is asserted (R284). -/
def interrupted : State :=
  match step { strobedInPull with schedule := [⟨[], [], true, []⟩] } with
  | .next t => t
  | _ => strobedInPull

/-- R284, U11: pin 22 is stale then; an other master's write that ends its strobe leaves the cell free, and the pin is stale no longer. -/
theorem test_interrupted_pull :
    interrupted.stale = [22] ∧ interrupted.ctl.status.seq = .idle
    ∧ (pinAfter 22 { interrupted with schedule := [⟨[⟨7, 0x20200098, some 0#32⟩], [], false, []⟩] }).map Pin.pcell
      = some (Config.freePull 0 22)
    ∧ (match step { interrupted with schedule := [⟨[⟨7, 0x20200098, some 0#32⟩], [], false, []⟩] } with
        | .next t => t.stale
        | _ => [22]) = [] := ⟨rfl, rfl, rfl, by decide +kernel⟩

/-- R223 (log 32): an other master's write that ends the strobe leaves the cell free during a PULL of the pin, and latches the
code (R85) during a PULL of an other pin and when no PULL runs. -/
theorem test_other_ends_strobe :
    (pinAfter 22 { strobedInPull with schedule := [⟨[⟨7, 0x20200098, some 0#32⟩], [], false, []⟩] }).map Pin.pcell
      = some (Config.freePull 0 22)
    ∧ (pinAfter 22 { running (.pull 53 2#2) 3 { strobed with cfg := cfgShared, tick := 3 } with
        schedule := [⟨[⟨7, 0x20200098, some 0#32⟩], [], false, []⟩] }).map Pin.pcell = some .up
    ∧ (pinAfter 22 { { strobed with cfg := cfgShared, tick := 3 } with
        schedule := [⟨[⟨7, 0x20200098, some 0#32⟩], [], false, []⟩] }).map Pin.pcell = some .up := ⟨rfl, rfl, rfl⟩

/-! ### Encoding and decoder -/

theorem witness_DecodeOfEncode : WellFormed (.pull 255 3#2) = true := by decide

theorem witness_DecodedWordIsAnEncoding : decode 0x00073505#32 = .ok (.fsel 53 7#3) := by decide

theorem witness_PinsNeverShareABit : (31 : Nat) ≠ 0 ∧ 31 / 32 = 0 / 32 ∧ (9 : Nat) ≠ 0 ∧ 9 / 10 = 0 / 10 := by decide

theorem witness_TableAddresses : configOk cfg = true ∧ 53 < cfg.npins := by decide

theorem witness_RegistersAreDistinct : configOk cfg = true ∧ regAt cfg 0x2020009C = some (.pudclk 1) := by decide

/-! ### Acceptance and faults -/

theorem witness_StepRunsDecodedCommand :
    configOk cfg = true ∧ Undisturbed 1 (offering [0x00003502#32] mapped) ∧ mapped.ctl.status.busy = false
    ∧ (offering [0x00003502#32] mapped).port = 0x00003502#32 :: [] ∧ decode 0x00003502#32 = .ok (.set 53) :=
  ⟨by decide, quiet rfl, rfl, rfl, by decide⟩

theorem witness_StepRunsOneMicroOperation :
    configOk (running (.set 53) 0 mapped).cfg = true ∧ Undisturbed 1 (running (.set 53) 0 mapped)
    ∧ (running (.set 53) 0 mapped).ctl.status.busy = true := ⟨by decide, quiet rfl, rfl⟩

/-- A machine whose hosts write in the coming tick, and nothing else acts. -/
def hostWrites (hs : List HostWrite) (s : State) : State := { s with schedule := [⟨[], hs, false, []⟩] }

/-- The port clauses of StepRunsOneMicroOperation: a command word is held, a write to STATUS is not. -/
theorem witness_StepRunsOneMicroOperation_port :
    Undisturbed 1 (hostWrites [.cmd 1#32] (running (.set 53) 0 mapped))
    ∧ (∃ t, step (hostWrites [.cmd 1#32] (running (.set 53) 0 mapped)) = .next t ∧ t.port = [1#32])
    ∧ Undisturbed 1 (hostWrites [.status 1#32] (running (.set 53) 0 mapped))
    ∧ (∃ t, step (hostWrites [.status 1#32] (running (.set 53) 0 mapped)) = .next t ∧ t.port = []) := by
  refine ⟨?_, ⟨_, rfl, rfl⟩, ?_, ⟨_, rfl, rfl⟩⟩ <;> simp [Undisturbed, disturbs, hostWrites]

theorem witness_AcceptanceBuildsProgram :
    Ready mapped ∧ Ready fresh ∧ operandsPass cfg .init ∧ operandsPass cfg (.set 53) ∧ operandsPass cfg (.clr 53)
    ∧ operandsPass cfg (.get 53) ∧ operandsPass cfg (.fsel 53 7#3) ∧ operandsPass cfg (.pull 53 2#2) := by
  refine ⟨ready_mapped, ready_fresh, ?_⟩
  unfold operandsPass
  decide

theorem witness_BusyPortHoldsCommand :
    configOk (running (.get 0) 0 mapped).cfg = true ∧ (running (.get 0) 0 mapped).ctl.status.busy = true := by decide

/-- Both kinds of fault. -/
theorem witness_RejectionAfterFault :
    configOk faulted.cfg = true ∧ faulted.ctl.status.busy = false ∧ faulted.ctl.status.fault = true
    ∧ (mapFailure fresh).ctl.status.busy = false ∧ (mapFailure fresh).ctl.status.fatal = true := by decide

theorem witness_PinRangeFaultEntry : Ready mapped ∧ mapped.cfg.npins ≤ 54 := ⟨ready_mapped, by decide⟩

theorem witness_IllegalWordFaultEntry :
    Ready (offering [0x00000007#32] mapped) ∧ Undisturbed 1 (offering [0x00000007#32] mapped)
    ∧ decode 0x00000007#32 = .error .badOpcode ∧ decode 0x00080005#32 = .error .badEncoding :=
  ⟨by unfold Ready; decide, quiet rfl, by decide, by decide⟩

/-! ### Whole commands: the last pin and the last direction -/

theorem witness_MapAnswer :
    Ready fresh ∧ operandsPass cfg (.pull 53 2#2) ∧ fresh.ctl.status.mapped = false ∧ Undisturbed 2 fresh :=
  ⟨ready_fresh, ⟨by decide, by decide⟩, rfl, quiet rfl⟩

/-- The hypotheses of InitMapsTheWindow, SetDrivesLatchHigh, ClrDrivesLatchLow, FselSelectsFunction,
PullWritesTheProtocol, PullSetsTheCell, PullQuiescesItsBank and PullTimetable, all on one state. -/
theorem witness_wholeCommand (n : Nat) :
    Ready mapped ∧ CanMap mapped ∧ 53 < mapped.cfg.npins ∧ (2#2 : BitVec 2) ≠ 3#2 ∧ Quiescent mapped
    ∧ mapped.ctl.status.seq = .idle ∧ 8 ≤ 4 + 2 * mapped.cfg.tSettle ∧ Undisturbed n mapped :=
  ⟨ready_mapped, .inl mapped_mapped, by decide, by decide, quiescent_mapped, rfl, by decide, quiet rfl⟩

theorem witness_GetReportsLevel :
    Ready (withOutput 53 true mapped) ∧ CanMap (withOutput 53 true mapped)
    ∧ 53 < cfg.npins ∧ (withOutput 53 true mapped).periph.pins[53]? = some ⟨1#3, true, false, .none, none⟩
    ∧ Undisturbed 2 (withOutput 53 true mapped) :=
  ⟨by unfold Ready; decide, .inl ⟨rfl, rfl, rfl⟩, by decide, by decide, quiet rfl⟩

theorem witness_StaleStrobeIsNotRecovered :
    Ready strobed ∧ CanMap strobed ∧ 22 < cfg.npins ∧ (2#2 : BitVec 2) ≠ 3#2 ∧ (∀ pin ∈ strobed.periph.pins, PinOk pin) ∧ Undisturbed 9 strobed
    ∧ (strobed.periph.pins[22]?).map Pin.clk = some true := by
  refine ⟨by unfold Ready; decide, .inl ⟨rfl, rfl, rfl⟩, by decide, by decide, ?_, quiet rfl, by decide⟩
  have h : ∀ pin ∈ strobed.periph.pins, pin.clk = pin.strobe.isSome ∧ ∀ st ∈ pin.strobe, st.late = 0 ∧ st.lateT = none := by
    decide
  exact fun pin hp => pinOk_of (h pin hp).1 (h pin hp).2

theorem witness_BusyForTheTabulatedTicks :
    Ready mapped ∧ CanMap mapped ∧ operandsPass cfg (.pull 53 2#2) ∧ 8 ≤ mapTicks mapped + commandTicks cfg (.pull 53 2#2)
    ∧ Undisturbed 9 mapped :=
  ⟨ready_mapped, .inl mapped_mapped, ⟨by decide, by decide⟩, by decide, quiet rfl⟩

theorem witness_LevelReadsBackTheLatch :
    Ready (offering [encode (.set 53), encode (.get 53)] (withOutput 53 false mapped))
    ∧ CanMap (offering [encode (.set 53), encode (.get 53)] (withOutput 53 false mapped))
    ∧ 53 < cfg.npins ∧ (withOutput 53 false mapped).periph.pins[53]? = some ⟨cfg.fselOutput, false, false, .none, none⟩
    ∧ Undisturbed 4 (offering [encode (.set 53), encode (.get 53)] (withOutput 53 false mapped)) :=
  ⟨by unfold Ready; decide, .inl ⟨rfl, rfl, rfl⟩, by decide, by decide, quiet rfl⟩

theorem witness_FselReadsBack :
    Ready (offering [encode (.fsel 53 7#3)] mapped) ∧ CanMap (offering [encode (.fsel 53 7#3)] mapped)
    ∧ 53 < cfg.npins ∧ Sized (offering [encode (.fsel 53 7#3)] mapped) ∧ Undisturbed 3 (offering [encode (.fsel 53 7#3)] mapped) :=
  ⟨by unfold Ready; decide, .inl ⟨rfl, rfl, rfl⟩, by decide, by unfold Sized; decide, quiet rfl⟩

theorem witness_FinalPullWins :
    Ready (offering [encode (.pull 22 2#2), encode (.pull 22 1#2)] mapped)
    ∧ CanMap (offering [encode (.pull 22 2#2), encode (.pull 22 1#2)] mapped)
    ∧ Quiescent (offering [encode (.pull 22 2#2), encode (.pull 22 1#2)] mapped)
    ∧ 22 < cfg.npins ∧ mapped.periph.pins[22]? = some Pin.powerOn ∧ (2#2 : BitVec 2) ≠ 3#2 ∧ (1#2 : BitVec 2) ≠ 3#2
    ∧ Undisturbed 18 (offering [encode (.pull 22 2#2), encode (.pull 22 1#2)] mapped) :=
  ⟨by unfold Ready; decide, .inl ⟨rfl, rfl, rfl⟩, ⟨rfl, by decide⟩, by decide, by decide, by decide, by decide, quiet rfl⟩

/-! ### The peripheral and other masters -/

theorem witness_LevelBankRead : 21 < 32 ∧ mapped.periph.pins[32 * 1 + 21]? = some Pin.powerOn := by decide

theorem witness_FunctionAndPullRegisterReads :
    21 < 32 ∧ strobed.periph.pins[32 * 1 + 21]? = some Pin.powerOn ∧ 3 < 10 ∧ strobed.periph.pins[10 * 5 + 3]? = some Pin.powerOn
    ∧ (strobed.periph.pins[32 * 0 + 22]?).map Pin.clk = some true := by decide

theorem witness_FselBankWriteThenRead : 3 < 10 ∧ 10 * 5 + 3 < mapped.periph.pins.length := by decide

theorem witness_PullControlWrite :
    strobed.periph.pins[22]? = some ⟨0#3, false, true, .none, some ⟨0, 2#2, true, true, 0, none⟩⟩ := by decide

/-- A pin of another bank, a strobe's start, its end, and a bit written as it is. -/
theorem witness_PullClockWrite :
    mapped.periph.pins[22]? = some Pin.powerOn ∧ 22 / 32 ≠ 1 ∧ 22 / 32 = 0
    ∧ Pin.powerOn.clk = false ∧ clk22.getLsbD (22 % 32) = true
    ∧ (strobed.periph.pins[22]?).map Pin.clk = some true ∧ (0#32).getLsbD (22 % 32) = false
    ∧ (strobed.periph.pins[22]?).map Pin.strobe = some (some ⟨0, 2#2, true, true, 0, none⟩) := by decide

theorem witness_OtherMasterAccessIsPerformed :
    configOk shared.cfg = true ∧ shared.cfg.otherMasters = true ∧ Reg.pudclk 1 ∈ allRegs shared.cfg := by decide

theorem witness_OtherMasterEndsAStrobeDuringPull :
    configOk strobedInPull.cfg = true ∧ strobedInPull.cfg.otherMasters = true ∧ strobedInPull.ctl.status.seq ≠ .idle
    ∧ Reg.pudclk 0 ∈ allRegs strobedInPull.cfg ∧ 22 / 32 = 0 ∧ (0#32).getLsbD (22 % 32) = false
    ∧ strobedInPull.periph.pins[22]? = some ⟨0#3, false, true, .none, some ⟨0, 2#2, true, true, 0, none⟩⟩
    ∧ 22 = strobedInPull.ctl.cur.pin ∧ 22 ∉ strobedInPull.stale
    ∧ 22 ≠ (running (.pull 53 2#2) 3 { strobed with cfg := cfgShared, tick := 3 }).ctl.cur.pin := by decide

theorem witness_OtherMasterEndsAStaleStrobe :
    configOk interrupted.cfg = true ∧ interrupted.cfg.otherMasters = true ∧ Reg.pudclk 0 ∈ allRegs interrupted.cfg
    ∧ interrupted.periph.pins[22]? = some ⟨0#3, false, true, .none, some ⟨0, 2#2, true, true, 0, none⟩⟩
    ∧ 22 ∈ interrupted.stale
    ∧ 22 ∉ ({ strobed with cfg := cfgShared } : State).stale ∧ ({ strobed with cfg := cfgShared } : State).ctl.status.seq = .idle
    ∧ ({ strobed with cfg := cfgShared } : State).periph.pins[22]? = some ⟨0#3, false, true, .none, some ⟨0, 2#2, true, true, 0, none⟩⟩ := by decide +kernel

/-! ### Invariants -/

/-- A running, mapped machine with a quiet peripheral meets the invariant, wherever its micro-program stands. -/
theorem invariant_running {i : Instr} {u : Nat} {s : State} (hs : s.cfg = cfg) (hm : Mapped s) (hg : s.grant = some true)
    (hz : Sized s) (hp : ∀ pin ∈ s.periph.pins, pin.clk = false ∧ pin.strobe = none)
    (hst : s.ctl.status = { Status.reset with mapped := true }) (hw : s.ctl.waitcnt = 0) (hi : operandsPass cfg i)
    (hu : u < (bodyOf cfg (curOf i)).length)
    (hs0 : s.stale = []) (hq : seqAt (bodyOf cfg (curOf i)) u ≠ .idle → (curOf i).op = .pull) : Invariant (running i u s) := by
  constructor
  · show configOk s.cfg = true
    rw [hs]; exact config_ok.1
  · exact hz
  · intro pin hpin
    have h := hp pin hpin
    simp [PinOk, h]
  · constructor <;> simp [running, hst, Status.reset]
    rw [hs]; exact hq
  · intro _
    refine ⟨[], .inl rfl, rfl, ?_, ?_, ?_, rfl, .inl hw⟩
    · show CurOk s.cfg (curOf i)
      rw [hs]; exact curOk_curOf hi
    · show u < (bodyOf s.cfg (curOf i)).length
      rw [hs]; exact hu
    · simp [running, hst]
  · simp [running]
  · intro _; exact hm
  · simp [running, hg, hst]
  · simp [running, hg, hst, Status.reset]
  · simp [running, hs0]

/-- A PULL between its steps 3 and 4. -/
theorem invariant_pull : Invariant (running (.pull 22 2#2) 3 mapped) :=
  invariant_running rfl mapped_mapped rfl (by unfold Sized; decide) (by decide) rfl rfl ⟨by decide, by decide⟩ (by decide)
    rfl (by decide)

/-- An FSEL before its write. -/
theorem invariant_fsel : Invariant (running (.fsel 53 7#3) 1 mapped) :=
  invariant_running rfl mapped_mapped rfl (by unfold Sized; decide) (by decide) rfl rfl (by unfold operandsPass; decide)
    (by decide) rfl (by decide)

/-- A GET before its read, of the high pin 22. -/
theorem invariant_get : Invariant (running (.get 22) 0 (onlyHigh 22 mapped)) :=
  invariant_running rfl mapped_mapped rfl (by unfold Sized; decide) (by decide) rfl rfl (by unfold operandsPass; decide)
    (by decide) rfl (by decide)

theorem witness_FselWriteLosesOtherUpdates :
    Invariant (running (.fsel 53 7#3) 1 mapped) ∧ (running (.fsel 53 7#3) 1 mapped).ctl.status.busy = true
    ∧ (running (.fsel 53 7#3) 1 mapped).ctl.cur.op = .fsel
    ∧ (running (.fsel 53 7#3) 1 mapped).ctl.uidx + 1 = (running (.fsel 53 7#3) 1 mapped).ctl.prog.length :=
  ⟨invariant_fsel, rfl, rfl, rfl⟩

theorem witness_ResetTick :
    configOk faulted.cfg = true ∧ (tickInput { strobed with schedule := [⟨[], [], true, []⟩] }).reset = true
    ∧ (tickInput { strobed with schedule := [⟨[], [], true, []⟩] }).before = []
    ∧ (tickInput { strobed with schedule := [⟨[], [], true, []⟩] }).after = []
    ∧ strobedInPull.ctl.status.seq ≠ .idle ∧ 22 = strobedInPull.ctl.cur.pin
    ∧ (strobedInPull.periph.pins[22]?).map Pin.clk = some true := by decide

/-- A powered-on peripheral whose latches are 1: R52 leaves them free. -/
theorem witness_LaunchMeetsInvariant :
    configOk cfg = true ∧ PowerOn cfg ⟨List.replicate 54 { Pin.powerOn with latch := true, pcell := .up }, 0, none⟩ :=
  ⟨by decide, by simp [PowerOn, Pin.powerOn, cfg, Config.default]⟩

/-- The hypotheses of StepKeepsInvariant, StepNeverFails and MappingNeverChanges. -/
theorem witness_StepKeepsInvariant :
    Invariant (running (.pull 22 2#2) 3 mapped) ∧ (running (.pull 22 2#2) 3 mapped).ctl.status.mapped = true
    ∧ (tickInput (running (.pull 22 2#2) 3 mapped)).reset = false ∧ ∃ t, step (running (.pull 22 2#2) 3 mapped) = .next t :=
  ⟨invariant_pull, rfl, rfl, ⟨_, rfl⟩⟩

theorem witness_StepKeepsTraceInvariant : TraceOk (running (.pull 22 2#2) 3 mapped) := by
  constructor <;> simp [running, mapped, fresh, State.launch]

theorem invariant_faulted : Invariant faulted := by
  constructor
  · exact config_ok.1
  · unfold Sized; decide
  · intro pin hp
    have h : ∀ pin ∈ faulted.periph.pins, pin.clk = false ∧ pin.strobe = none := by decide
    simp [PinOk, h pin hp]
  · constructor <;> simp [faulted, Status.reset]
  · simp [faulted, Status.reset]
  · intro _; exact ⟨rfl, rfl, rfl, rfl⟩
  · simp [faulted, Status.reset]
  · simp [faulted, fresh, State.launch, Status.reset]
  · simp [faulted, fresh, State.launch, Status.reset]
  · simp [faulted, fresh, State.launch]

theorem witness_FaultIsSticky :
    Invariant (offering [0x00001602#32] faulted) ∧ (offering [0x00001602#32] faulted).ctl.status.fault = true
    ∧ (tickInput (offering [0x00001602#32] faulted)).reset = false ∧ ∃ t, step (offering [0x00001602#32] faulted) = .next t :=
  ⟨invariant_faulted.congr rfl rfl rfl rfl rfl, rfl, rfl, ⟨_, rfl⟩⟩

theorem witness_OnlyGetWritesLevel :
    Invariant (running (.get 22) 0 (onlyHigh 22 mapped))
    ∧ (running (.get 22) 0 (onlyHigh 22 mapped)).ctl.status.level = false
    ∧ (match step (running (.get 22) 0 (onlyHigh 22 mapped)) with
        | .next t => t.ctl.status.level
        | _ => false) = true :=
  ⟨invariant_get, rfl, by decide +kernel⟩

/-- A PULL before its step 1, a PULL before its step 3 and a SET before its write. -/
theorem invariant_changes :
    Invariant (running (.pull 22 2#2) 0 mapped) ∧ Invariant (running (.pull 22 2#2) 2 mapped)
    ∧ Invariant (running (.set 53) 0 mapped) :=
  ⟨invariant_running rfl mapped_mapped rfl (by unfold Sized; decide) (by decide) rfl rfl ⟨by decide, by decide⟩ (by decide)
      rfl (by decide),
    invariant_running rfl mapped_mapped rfl (by unfold Sized; decide) (by decide) rfl rfl ⟨by decide, by decide⟩ (by decide)
      rfl (by decide),
    invariant_running rfl mapped_mapped rfl (by unfold Sized; decide) (by decide) rfl rfl (by unfold operandsPass; decide)
      (by decide) rfl (by decide)⟩

theorem witness_SetAndClrLoseNoUpdate :
    Invariant (running (.set 53) 0 mapped) ∧ (running (.set 53) 0 mapped).ctl.status.busy = true
    ∧ (running (.set 53) 0 mapped).ctl.cur.op = .set
    ∧ (running (.set 53) 0 mapped).ctl.uidx + 1 = (running (.set 53) 0 mapped).ctl.prog.length
    ∧ (running (.set 53) 0 mapped).ctl.status.mapped = true := ⟨invariant_changes.2.2, rfl, rfl, rfl, rfl⟩

/-- Each clause's change happens, in a step from a state with the invariant (`invariant_changes`, `invariant_fsel`) and no other
master: a latch by SET, a function by FSEL, a clock bit and PUDCODE by PULL. -/
theorem witness_WhoMayChangeAPin :
    (pinAfter 53 (running (.set 53) 0 mapped)).map Pin.latch = some true
    ∧ (pinAfter 53 (running (.fsel 53 7#3) 1 mapped)).map Pin.func = some 7#3
    ∧ (pinAfter 22 (running (.pull 22 2#2) 2 mapped)).map Pin.clk = some true
    ∧ (match step (running (.pull 22 2#2) 0 mapped) with
        | .next t => t.periph.pudcode
        | _ => 0) = 2#2 := by decide +kernel

/-- The hypotheses of IdleControllerIssuesNothing and of ConfigurationIsFixed. -/
theorem witness_IdleControllerIssuesNothing :
    mapped.ctl.status.busy = false ∧ (tickInput mapped).before = [] ∧ (tickInput mapped).after = []
    ∧ ∃ t, step mapped = .next t := ⟨rfl, rfl, rfl, ⟨_, rfl⟩⟩

theorem witness_HostCannotDisturbARunningCommand :
    (running (.set 53) 0 mapped).ctl.status.busy = true ∧ (tickInput (running (.set 53) 0 mapped)).reset = false
    ∧ ∃ t, step (running (.set 53) 0 mapped) = .next t := ⟨rfl, rfl, ⟨_, rfl⟩⟩

theorem witness_PseudoInstructions : parsePin "0xFF".toList = some 255 := by decide +kernel

/-- Lost update, in the model: between an FSEL's read and its write an other master writes FSEL2 (V-FS-7). -/
theorem test_lost_update :
    (pinAfter 20 (let s := running (.fsel 22 1#3) 1 shared
      { s with schedule := [⟨[⟨7, 0x20200008, some 1#32⟩], [], false, []⟩] })).map Pin.func = some 0#3 := by decide +kernel

end Sys2Proof.Tests
end

/-! # Proofs: the scope of the model (00_scope), its registers and its parameters -/

namespace Sys2Proof.Machine

/-- In a well-formed configuration the register at an address is the one whose address it is (00_scope R7; 20_memory R74, R75). -/
theorem regAt_eq_some_iff {c : Config} {a : Nat} {r : Reg} (hc : configOk c = true) :
    regAt c a = some r ↔ r ∈ allRegs c ∧ a = physAddr c r := by
  constructor
  · intro hfound
    obtain ⟨hmem, haddr⟩ := regAt_eq_some_mem hfound
    exact ⟨hmem, haddr.symm⟩
  · rintro ⟨hmem, rfl⟩
    exact regAt_physAddr hc hmem

/-- Settles O10: what is found at an address is a register at that address, and distinct registers have distinct offsets. -/
theorem registersAreDistinct : Obligations.RegistersAreDistinct :=
  fun _ _ _ hc => regAt_eq_some_iff hc

/-- A step keeps the configuration: other masters, the controller and the other masters again each keep it (00_scope R6). -/
theorem step_cfg {s t : State} (h : step s = .next t) : t.cfg = s.cfg := by
  obtain ⟨_, s1, s2, s3, hbefore, hact, hafter, rfl, _⟩ := step_parts h
  calc (nextTick s3).cfg
      _ = s3.cfg := (nextTick_fields s3).1
      _ = s2.cfg := (otherAccesses_outside hafter).1
      _ = s1.cfg := (controllerAct_outside hact).1
      _ = (hostArrivals s).cfg := (otherAccesses_outside hbefore).1
      _ = s.cfg := (hostArrivals_fields s).1

/-- Settles O58, by the parts of a step. -/
theorem configurationIsFixed : Obligations.ConfigurationIsFixed :=
  fun _ _ => step_cfg

end Sys2Proof.Machine

/-! # Proofs: every step keeps the invariant of the machine (10_state R24 to R53)

The invariant falls into the peripheral's half and the controller's half. Window transactions touch the first only, acceptance the
second only, and a micro-operation is one window transaction at most and then an update of the controller. -/

namespace Sys2Proof.Machine

/-! ## The two halves of the invariant -/

/-- The peripheral's half of the invariant. -/
structure PeriphOk (s : State) : Prop where
  config : configOk s.cfg = true
  sized : Sized s
  pins : ∀ pin ∈ s.periph.pins, PinOk pin
  stale : s.stale.Nodup ∧ ∀ p ∈ s.stale, strobeAsserted s.periph p = true

/-- The controller's half of the invariant, with the platform's grant. -/
structure ControlOk (c : Config) (ctl : Controller) (grant : Option Bool) : Prop where
  flags : FlagsOk ctl
  running : ctl.status.busy = true → RunningOk c ctl
  stopped : ctl.status.busy = false → StoppedOk ctl
  mapped : ctl.status.mapped = true → ctl.wbase = c.periphBase ∧ ctl.tables = mapTables c c.periphBase
  grantTrue : grant = some true ↔ ctl.status.mapped = true
  grantFalse : grant = some false ↔ ctl.status.fatal = true

theorem invariant_iff (s : State) : Invariant s ↔ PeriphOk s ∧ ControlOk s.cfg s.ctl s.grant := by
  constructor
  · intro h
    exact ⟨⟨h.config, h.sized, h.pins, h.stale⟩,
      ⟨h.flags, h.running, h.stopped, fun hm => (h.mapped hm).2, h.grantTrue, h.grantFalse⟩⟩
  · rintro ⟨hp, hc⟩
    exact ⟨hp.config, hp.sized, hp.pins, hc.flags, hc.running, hc.stopped, fun hm => ⟨hm, hc.mapped hm⟩,
      hc.grantTrue, hc.grantFalse, hp.stale⟩

/-! ## The peripheral's half -/

theorem PeriphOk.congr {s t : State} (h : PeriphOk s) (hc : t.cfg = s.cfg) (hp : t.periph = s.periph)
    (hst : t.stale = s.stale) : PeriphOk t := by
  constructor
  · rw [hc]; exact h.config
  · unfold Sized; rw [hc, hp]; exact h.sized
  · rw [hp]; exact h.pins
  · rw [hst, hp]; exact h.stale

/-- A write by any agent keeps the number of pins, the strobe records and the stale pins (10_state R45, 70_reset R284). -/
theorem PeriphOk.busWrite {s : State} (h : PeriphOk s) (ag : Agent) (a : Nat) (r : Reg) (v : Word) :
    PeriphOk (busWrite ag a r v s) where
  config := h.config
  sized := by simpa [Sized] using h.sized
  pins := by simpa using writeReg_pinOk h.pins
  stale := setPeriph_stale h.stale.1

theorem PeriphOk.controllerReset {s : State} (h : PeriphOk s) : PeriphOk (controllerReset s) :=
  ⟨h.config, h.sized, h.pins, staleAfterReset_ok h.stale⟩

theorem PeriphOk.otherAccess {a : Access} {s t : State} (h : PeriphOk s) (ht : otherAccess a s = .next t) : PeriphOk t := by
  obtain ⟨_, r, _, _, _, ⟨v, _, rfl⟩ | ⟨_, rfl⟩⟩ := otherAccess_cases ht
  · exact h.busWrite _ _ _ _
  · exact h.congr (by simp) (by simp) (by simp)

theorem PeriphOk.microStep {s t : State} (h : PeriphOk s) (ht : microStep s = .next t) : PeriphOk t := by
  rcases microStep_cases ht with ⟨_, rfl⟩ | ⟨r, a, r', _, _, rfl⟩ | ⟨r, v, q, a, r', _, _, rfl⟩ | ⟨n, _, rfl⟩
  · exact h.congr (by simp) (by simp) (by simp)
  · exact h.congr (by simp) (by simp) (by simp)
  · exact (h.busWrite .controller a r' (writeValue s.ctl v)).congr (by simp) (by simp) (by simp)
  · exact h.congr (by simp) (by simp) (by simp)

theorem PeriphOk.accept {w : Word} {check : Option FaultCode} {cur : Cur} {body : List MicroOp} {s t : State} (h : PeriphOk s)
    (ht : accept w check cur body s = .next t) : PeriphOk t := by
  obtain ⟨hc, hp, _⟩ := accept_outside ht
  exact h.congr hc hp (accept_stale ht)

/-! ## The controller's half: reset and acceptance -/

theorem StoppedOk.seq {ctl : Controller} (h : StoppedOk ctl) : ctl.status.seq = .idle := by
  obtain ⟨_, _, _, hseq⟩ := h
  exact hseq

/-- The controller's half holds right after reset (10_state R50, R53). -/
theorem controlOk_reset (c : Config) : ControlOk c (Controller.reset c) none := by
  constructor
  · constructor <;> simp [Controller.reset, Status.reset]
  · simp [Controller.reset, Status.reset]
  · intro _; exact ⟨rfl, rfl, rfl, rfl⟩
  all_goals simp [Controller.reset, Status.reset]

/-- A fault code a checked word can be answered with: MAP_FAIL is the Map step's alone (60_exceptions R240, R245). -/
def ContractFault (f : FaultCode) : Prop := f ≠ .none ∧ f ≠ .mapFail

theorem contractFault_decodeFault (e : DecodeError) : ContractFault (decodeFault e) := by
  cases e <;> exact ⟨nofun, nofun⟩

/-- A rejected command changes CMD, RESULT_VALID and REJECTED only (60_exceptions R248). -/
theorem ControlOk.reject {c : Config} {ctl : Controller} {grant : Option Bool} {w : Word} (h : ControlOk c ctl grant)
    (hb : ctl.status.busy = false) (hf : ctl.status.fatal = true ∨ ctl.status.fault = true) :
    ControlOk c { ctl with cmd := w, status := recordReject (clearResult ctl.status) } grant where
  flags := { h.flags with
    result := nofun
    rejected := fun _ => hf }
  running hb' := absurd hb' (by simp [recordReject, clearResult, hb])
  stopped _ := h.stopped hb
  mapped := h.mapped
  grantTrue := h.grantTrue
  grantFalse := h.grantFalse

/-- A contract violation of a command taken without an earlier fault (60_exceptions R246). -/
theorem ControlOk.fault {c : Config} {ctl : Controller} {grant : Option Bool} {w : Word} {f : FaultCode}
    (h : ControlOk c ctl grant) (hb : ctl.status.busy = false) (hfa : ctl.status.fatal = false) (hf : ContractFault f) :
    ControlOk c { ctl with cmd := w, status := recordFault f (clearResult ctl.status) } grant where
  flags := by
    have hseq := (h.stopped hb).seq
    constructor <;> simp [recordFault, clearResult, hfa, hf.1, hf.2, hseq]
  running := nofun
  stopped _ := h.stopped hb
  mapped := h.mapped
  grantTrue := h.grantTrue
  grantFalse := h.grantFalse

/-- A started command stands before the first micro-operation of its micro-program (10_state R30, R31). -/
theorem ControlOk.start {s : State} {w : Word} {cur : Cur} (h : ControlOk s.cfg s.ctl s.grant)
    (hb : s.ctl.status.busy = false) (hfa : s.ctl.status.fatal = false) (hfl : s.ctl.status.fault = false) (hcur : CurOk s.cfg cur) :
    ControlOk s.cfg (startCommand cur (bodyOf s.cfg cur) (latchCommand w s)).ctl s.grant where
  flags := by
    have hseq := (h.stopped hb).seq
    have hcode := h.flags.code.mpr ⟨hfa, hfl⟩
    have hrej : s.ctl.status.rejected = false := by
      simpa [hfa, hfl] using h.flags.rejected
    constructor <;> simp [setBusy, clearResult, hfa, hfl, hseq, hcode, hrej]
  running hbusy := by
    refine ⟨mapFirst s, ?_, rfl, hcur, ?_, ?_, (h.stopped hb).seq, .inl rfl⟩
    · cases hm : s.ctl.status.mapped <;> simp [mapFirst, hm]
    · have hne : mapFirst (latchCommand w s) ++ bodyOf s.cfg cur ≠ [] := by simpa [setBusy, -List.append_eq_nil_iff] using hbusy
      exact List.length_pos_iff.mpr hne
    · cases hm : s.ctl.status.mapped <;> simp [mapFirst, setBusy, clearResult, hm]
  stopped hbusy := by
    refine ⟨?_, rfl, rfl, (h.stopped hb).seq⟩
    simpa [setBusy] using hbusy
  mapped := h.mapped
  grantTrue := h.grantTrue
  grantFalse := h.grantFalse

theorem ControlOk.accept {w : Word} {check : Option FaultCode} {cur : Cur} {s t : State} {body : List MicroOp}
    (h : ControlOk s.cfg s.ctl s.grant) (hf : ∀ f, check = some f → ContractFault f)
    (hpass : check = none → CurOk s.cfg cur ∧ body = bodyOf s.cfg cur)
    (ht : accept w check cur body s = .next t) : ControlOk t.cfg t.ctl t.grant := by
  rcases accept_cases ht with ⟨_, rfl⟩ | ⟨hb, hfault, rfl⟩ | ⟨hb, hfa, hfl, ⟨f, hcheck, rfl⟩ | ⟨hcheck, rfl⟩⟩
  · exact h
  · exact h.reject hb hfault
  · exact h.fault hb hfa (hf f hcheck)
  · obtain ⟨hcur, rfl⟩ := hpass hcheck
    exact h.start hb hfa hfl hcur

/-- The first of R245's checks on a command's operands that fails. -/
def operandFault (c : Config) : Instr → Option FaultCode
  | .init => none
  | .set pin => pinCheck c pin
  | .clr pin => pinCheck c pin
  | .get pin => pinCheck c pin
  | .fsel pin _ => pinCheck c pin
  | .pull pin d => pullCheck c pin d

theorem exec_eq_accept_operandFault (i : Instr) (s : State) :
    exec i s = accept (encode i) (operandFault s.cfg i) (curOf i) (bodyOf s.cfg (curOf i)) s := by
  cases i with
  | pull pin d => simp only [exec, execPull, operandFault, curOf, bodyOf, zero_append_extract]
  | _ => rfl

theorem contractFault_pinCheck {c : Config} {pin : Nat} {f : FaultCode} (h : pinCheck c pin = some f) : ContractFault f := by
  unfold pinCheck at h
  split at h <;> cases h
  exact ⟨nofun, nofun⟩

theorem contractFault_operandFault {c : Config} {i : Instr} {f : FaultCode} (h : operandFault c i = some f) :
    ContractFault f := by
  cases i with
  | init => cases h
  | pull pin d =>
    simp only [operandFault, pullCheck] at h
    split at h
    · cases h; exact ⟨nofun, nofun⟩
    · exact contractFault_pinCheck h
  | _ => exact contractFault_pinCheck h

theorem operandFault_eq_none {c : Config} {i : Instr} : operandFault c i = none ↔ operandsPass c i := by
  cases i with
  | init => simp [operandFault, operandsPass]
  | pull pin d => by_cases hd : d = 3#2 <;> simp [operandFault, operandsPass, pullCheck, pinCheck, hd]
  | _ => simp [operandFault, operandsPass, pinCheck]

theorem Invariant.exec {i : Instr} {s t : State} (h : Invariant s) (ht : exec i s = .next t) : Invariant t := by
  rw [exec_eq_accept_operandFault] at ht
  obtain ⟨hp, hc⟩ := (invariant_iff s).mp h
  exact (invariant_iff t).mpr ⟨hp.accept ht, hc.accept (fun _ => contractFault_operandFault)
    (fun hnone => ⟨curOk_curOf (operandFault_eq_none.mp hnone), rfl⟩) ht⟩

theorem Invariant.acceptIllegal {w : Word} {e : DecodeError} {s t : State} (h : Invariant s)
    (ht : acceptIllegal w e s = .next t) : Invariant t := by
  unfold Machine.acceptIllegal at ht
  obtain ⟨hp, hc⟩ := (invariant_iff s).mp h
  refine (invariant_iff t).mpr ⟨hp.accept ht, hc.accept ?_ (fun hnone => absurd hnone (by simp)) ht⟩
  rintro f hf
  cases hf
  exact contractFault_decodeFault e

/-! ## The controller's half: the micro-step -/

/-- A micro-program none of whose operations enters a state of the sequencer leaves it Idle (43_pull R217). -/
theorem seqAt_eq_idle {prog : List MicroOp} (h : ∀ r v q, MicroOp.memWrite r v (some q) ∉ prog) (u : Nat) :
    seqAt prog u = .idle := by
  induction u with
  | zero => rfl
  | succ u ih =>
    cases hm : prog[u]? with
    | none =>
      have hlen : prog.length ≤ u := List.getElem?_eq_none_iff.mp hm
      rw [← ih]
      simp only [seqAt, List.take_of_length_le hlen, List.take_of_length_le (Nat.le_succ_of_le hlen)]
    | some m =>
      rw [seqAt_succ hm]
      split
      · next r v q => exact absurd (List.mem_of_getElem? hm) (h r v q)
      · exact ih

/-- Only a PULL's micro-program takes the sequencer out of Idle (10_state R24, 43_pull R217). -/
theorem op_eq_pull_of_seqAt {c : Config} {cur : Cur} {pre : List MicroOp} {u : Nat} (hp : pre = [] ∨ pre = [.map])
    (h : seqAt (pre ++ bodyOf c cur) u ≠ .idle) : cur.op = .pull := by
  by_contra hop
  refine h (seqAt_eq_idle (fun r v q hmem => ?_) u)
  obtain ⟨op, pin, arg⟩ := cur
  rcases hp with rfl | rfl <;> cases op <;>
    simp [bodyOf, bodyInit, bodySet, bodyClr, bodyGet, bodyFsel, decodePin] at hmem hop

/-- The controller inside a tick: the micro-operation at uidx has had its effect, and uidx is still to move on (10_state R32). -/
structure OpDone (c : Config) (ctl : Controller) (grant : Option Bool) : Prop where
  busy : ctl.status.busy = true
  faultless : ctl.status.fatal = false ∧ ctl.status.fault = false ∧ ctl.status.faultCode = .none ∧ ctl.status.rejected = false
  mapped : ctl.status.mapped = true ∧ ctl.wbase = c.periphBase ∧ ctl.tables = mapTables c c.periphBase
  grant : grant = some true
  prog : ∃ pre : List MicroOp, (pre = [] ∨ pre = [.map]) ∧ ctl.prog = pre ++ bodyOf c ctl.cur
  cur : CurOk c ctl.cur
  inside : ctl.uidx < ctl.prog.length
  seq : ctl.status.seq = seqAt ctl.prog (ctl.uidx + 1)
  waitcnt : ctl.waitcnt = 0
  result : ctl.status.resultValid = true → ctl.cur.op = .get ∧ ctl.uidx + 1 = ctl.prog.length

/-- When uidx moves on, the invariant holds again: completion leaves SEQ Idle (10_state R32, R33). -/
theorem OpDone.advance {c : Config} {grant : Option Bool} {s : State} (h : OpDone c s.ctl grant) :
    ControlOk c (advance s).ctl grant := by
  obtain ⟨hbusy, ⟨hfa, hfl, hcode, hrej⟩, ⟨hmapped, htables⟩, hgrant, ⟨pre, hpre, hprog⟩, hcur, hinside, hseq, hwait, hresult⟩ := h
  by_cases hlast : s.ctl.uidx + 1 = s.ctl.prog.length
  · have hidle : s.ctl.status.seq = .idle := by
      rw [hseq, hlast, hprog, seqAt_end hpre]
    rw [advance_last s hlast]
    constructor
    · constructor <;> simp [setBusy, hfa, hfl, hcode, hrej, hidle]
      exact fun hr => (hresult hr).1
    · simp [setBusy]
    · intro _; exact ⟨rfl, rfl, hwait, hidle⟩
    · intro _; exact htables
    · simp [setBusy, hgrant, hmapped]
    · simp [setBusy, hgrant, hfa]
  · have hnone : s.ctl.status.resultValid = false := by
      by_contra hr
      exact hlast (hresult (by simpa using hr)).2
    rw [advance_notLast s hlast]
    constructor
    · constructor <;> simp [hfa, hfl, hcode, hrej, hbusy, hnone]
      rw [hseq, hprog]
      exact op_eq_pull_of_seqAt hpre
    · intro _
      exact ⟨pre, hpre, hprog, hcur, by show s.ctl.uidx + 1 < s.ctl.prog.length; omega, by simp [hmapped], hseq, .inl hwait⟩
    · simp [hbusy]
    · intro _; exact htables
    · simp [hgrant, hmapped]
    · simp [hgrant, hfa]

section

variable {c : Config} {ctl : Controller} {grant : Option Bool} {m : MicroOp}

/-- A running command has no fault recorded and no result yet (10_state R24). -/
theorem ControlOk.faultless (h : ControlOk c ctl grant) (hb : ctl.status.busy = true) :
    (ctl.status.fatal = false ∧ ctl.status.fault = false ∧ ctl.status.faultCode = .none ∧ ctl.status.rejected = false)
    ∧ ctl.status.resultValid = false := by
  have hfa : ctl.status.fatal = false := by simpa [hb] using h.flags.fatal
  have hfl : ctl.status.fault = false := by simpa [hb] using h.flags.fault
  exact ⟨⟨hfa, hfl, h.flags.code.mpr ⟨hfa, hfl⟩, by simpa [hfa, hfl] using h.flags.rejected⟩, by simpa [hb] using h.flags.result⟩

/-- WAITCNT counts in a Wait only (10_state R29). -/
theorem RunningOk.waitcnt_eq_zero (h : RunningOk c ctl) (hm : ctl.prog[ctl.uidx]? = some m) (hw : ∀ n, m ≠ .wait n) :
    ctl.waitcnt = 0 := by
  obtain ⟨_, _, _, _, _, _, _, hzero | ⟨n, hn, _⟩⟩ := h
  · exact hzero
  · exact absurd (Option.some.inj (hm.symm.trans hn)) (hw n)

/-- A running command has its Map behind it, unless it stands at it (10_state R30). -/
theorem RunningOk.mapped_iff (h : RunningOk c ctl) (hm : ctl.prog[ctl.uidx]? = some m) :
    ctl.status.mapped = true ↔ m ≠ .map := by
  obtain ⟨pre, hpre, hprog, _, _, hmapped, _⟩ := h
  rw [← not_iff_not, Bool.not_eq_true, hmapped, not_not]
  constructor
  · rintro ⟨rfl, hu⟩
    rw [hprog, hu] at hm
    exact (Option.some.inj hm).symm
  · rintro rfl
    rw [hprog] at hm
    exact (prog_shape hpre).2.2 hm

/-- A running command whose micro-operation m, which is no Map, has had its effect: SEQ is where m takes it, WAITCNT is 0, and
a result there may be at the end of a GET only. -/
theorem ControlOk.opDone {ctl' : Controller} (h : ControlOk c ctl grant) (hb : ctl.status.busy = true)
    (hm : ctl.prog[ctl.uidx]? = some m) (hmap : m ≠ .map)
    (hctl : ctl' = { ctl with tmp := ctl'.tmp, waitcnt := 0, status := { ctl.status with
      seq := ctl'.status.seq, level := ctl'.status.level, resultValid := ctl'.status.resultValid } })
    (hseq : ctl'.status.seq = seqAt ctl.prog (ctl.uidx + 1))
    (hresult : ctl'.status.resultValid = true → ctl.cur.op = .get ∧ ctl.uidx + 1 = ctl.prog.length) :
    OpDone c ctl' grant := by
  have hr := h.running hb
  have hmapped := (hr.mapped_iff hm).mpr hmap
  obtain ⟨pre, hpre, hprog, hcur, hinside, _⟩ := hr
  have hf := (h.faultless hb).1
  rw [hctl]
  exact ⟨hb, hf, ⟨hmapped, h.mapped hmapped⟩, h.grantTrue.mpr hmapped, ⟨pre, hpre, hprog⟩, hcur, hinside, hseq, rfl, hresult⟩

/-- SEQ of a running command follows its position (43_pull R217). -/
theorem RunningOk.seq (h : RunningOk c ctl) : ctl.status.seq = seqAt ctl.prog ctl.uidx := by
  obtain ⟨_, _, _, _, _, _, hseq, _⟩ := h
  exact hseq

/-- A successful Map, before uidx moves on (40_window_init R152). -/
theorem ControlOk.mapDone (h : ControlOk c ctl grant) (hb : ctl.status.busy = true) (hm : ctl.prog[ctl.uidx]? = some .map) :
    OpDone c { ctl with wbase := c.periphBase, tables := mapTables c c.periphBase, status := recordMapped ctl.status }
      (some true) := by
  have hr := h.running hb
  have hwait := hr.waitcnt_eq_zero hm nofun
  have hseq : ctl.status.seq = seqAt ctl.prog (ctl.uidx + 1) := by rw [seqAt_succ hm, hr.seq]
  obtain ⟨pre, hpre, hprog, hcur, hinside, _⟩ := hr
  obtain ⟨hf, hresult⟩ := h.faultless hb
  exact ⟨hb, hf, ⟨rfl, rfl, rfl⟩, rfl, ⟨pre, hpre, hprog⟩, hcur, hinside, hseq, hwait, by simp [recordMapped, hresult]⟩

/-- A failed Map: the machine stops with FATAL and is not mapped (40_window_init R153). -/
theorem ControlOk.mapFailed (h : ControlOk c ctl grant) (hb : ctl.status.busy = true) (hm : ctl.prog[ctl.uidx]? = some .map) :
    ControlOk c { ctl with prog := [], uidx := 0, status := recordMapFail ctl.status } (some false) := by
  have hr := h.running hb
  have hwait := hr.waitcnt_eq_zero hm nofun
  have hmapped : ctl.status.mapped = false := by simpa using hr.mapped_iff hm
  have hidle : ctl.status.seq = .idle := by
    have hseq := hr.seq
    obtain ⟨pre, hpre, hprog, _⟩ := hr
    rw [hprog] at hm
    rw [hseq, ((prog_shape hpre).2.2 hm).2]
    rfl
  obtain ⟨⟨hfa, hfl, hcode, hrej⟩, hresult⟩ := h.faultless hb
  constructor
  · constructor <;> simp [recordMapFail, hmapped, hfl, hidle, hresult]
  · simp [recordMapFail]
  · intro _; exact ⟨rfl, rfl, hwait, hidle⟩
  all_goals simp [recordMapFail, hmapped]

/-- A tick inside a Wait that does not end it (10_state R29, R32). -/
theorem ControlOk.waiting {n : Nat} (h : ControlOk c ctl grant) (hb : ctl.status.busy = true)
    (hm : ctl.prog[ctl.uidx]? = some (.wait n)) (hn : ctl.waitcnt + 1 ≠ n) :
    ControlOk c { ctl with waitcnt := ctl.waitcnt + 1 } grant where
  flags := { h.flags with }
  running _ := by
    obtain ⟨pre, hpre, hprog, hcur, hinside, hmapped, hseq, hwait⟩ := h.running hb
    refine ⟨pre, hpre, hprog, hcur, hinside, hmapped, hseq, .inr ⟨n, hm, ?_⟩⟩
    show ctl.waitcnt + 1 < n
    rcases hwait with hzero | ⟨k, hk, hlt⟩
    · rw [hprog] at hm
      have hlen := ((prog_shape hpre).2.1 n hm).2
      simp only [Config.tSettle, Config.tHwMin] at hlen
      omega
    · cases hm.symm.trans hk
      omega
  stopped hb' := absurd hb (by simpa using hb')
  mapped := h.mapped
  grantTrue := h.grantTrue
  grantFalse := h.grantFalse

end

theorem ControlOk.mapStep {s : State} (h : ControlOk s.cfg s.ctl s.grant) (hb : s.ctl.status.busy = true)
    (hm : s.ctl.prog[s.ctl.uidx]? = some .map) : ControlOk s.cfg (mapStep s).ctl (mapStep s).grant := by
  unfold Machine.mapStep
  dsimp only
  split
  · have hdone : OpDone s.cfg (mapSuccess { s with draws := s.draws + 1 }).ctl (some true) := h.mapDone hb hm
    simpa [mapSuccess] using hdone.advance
  · exact h.mapFailed hb hm

theorem ControlOk.readStep {s : State} {r r' : Reg} {a : Nat} {v : Word} (h : ControlOk s.cfg s.ctl s.grant)
    (hb : s.ctl.status.busy = true) (hm : s.ctl.prog[s.ctl.uidx]? = some (.memRead r)) :
    ControlOk s.cfg (advance (getResult (loadTmp v (busRead .controller a r' s).2))).ctl s.grant := by
  have hr := h.running hb
  have hwait := hr.waitcnt_eq_zero hm nofun
  have hlast : s.ctl.cur.op = .get → s.ctl.uidx + 1 = s.ctl.prog.length := by
    obtain ⟨pre, hpre, hprog, _⟩ := hr
    rw [hprog] at hm ⊢
    exact (prog_shape hpre).1 r hm
  refine OpDone.advance ?_
  rw [getResult_ctl, loadTmp_ctl, (busRead_fields _ _ _ _).2.1]
  refine h.opDone hb hm nofun ?_ ?_ ?_
  · by_cases hop : s.ctl.cur.op = .get <;> simp [hop, hwait, recordLevel]
  · rw [seqAt_succ hm, ← hr.seq]
    dsimp only
    split <;> rfl
  · by_cases hop : s.ctl.cur.op = .get <;> simp [hop, hlast, (h.faultless hb).2]

theorem ControlOk.writeStep {s : State} {r r' : Reg} {wv : WriteValue} {q : Option Seq} {a : Nat} {v : Word}
    (h : ControlOk s.cfg s.ctl s.grant) (hb : s.ctl.status.busy = true)
    (hm : s.ctl.prog[s.ctl.uidx]? = some (.memWrite r wv q)) :
    ControlOk s.cfg (advance (onStatus (enterSeq q) (busWrite .controller a r' v s))).ctl s.grant := by
  have hr := h.running hb
  have hwait := hr.waitcnt_eq_zero hm nofun
  refine OpDone.advance ?_
  rw [onStatus_ctl, (busWrite_fields _ _ _ _ _).2.1]
  refine h.opDone hb hm nofun ?_ ?_ ?_
  · simp [enterSeq, hwait]
  · rw [seqAt_succ hm, ← hr.seq]
    cases q <;> rfl
  · simp [enterSeq, (h.faultless hb).2]

theorem ControlOk.waitStep {s : State} {n : Nat} (h : ControlOk s.cfg s.ctl s.grant) (hb : s.ctl.status.busy = true)
    (hm : s.ctl.prog[s.ctl.uidx]? = some (.wait n)) : ControlOk s.cfg (waitStep n s).ctl s.grant := by
  unfold Machine.waitStep
  split
  · refine OpDone.advance (h.opDone hb hm nofun rfl ?_ ?_)
    · rw [seqAt_succ hm]
      exact (h.running hb).seq
    · simp [(h.faultless hb).2]
  · next hn => exact h.waiting hb hm hn

/-- The four micro-operations of 10_state R27. -/
theorem ControlOk.microStep {s t : State} (h : ControlOk s.cfg s.ctl s.grant) (hb : s.ctl.status.busy = true)
    (ht : microStep s = .next t) : ControlOk t.cfg t.ctl t.grant := by
  rcases microStep_cases ht with ⟨hm, rfl⟩ | ⟨r, a, r', hm, _, rfl⟩ | ⟨r, v, q, a, r', hm, _, rfl⟩ | ⟨n, hm, rfl⟩
  · rw [(mapStep_outside s).1]
    exact h.mapStep hb hm
  · simpa using h.readStep hb hm
  · simpa using h.writeStep hb hm
  · simpa using h.waitStep hb hm

/-! ## A step -/

theorem Invariant.otherAccesses {as : List Access} {s t : State} (h : Invariant s) (ht : otherAccesses as s = .next t) :
    Invariant t := by
  refine otherAccesses_induct (P := Invariant) (fun a u v hu hv => ?_) as s t h ht
  obtain ⟨hp, hc⟩ := (invariant_iff u).mp hu
  refine (invariant_iff v).mpr ⟨hp.otherAccess hv, ?_⟩
  obtain ⟨_, r, _, _, _, ⟨w, _, rfl⟩ | ⟨_, rfl⟩⟩ := otherAccess_cases hv <;> simpa using hc

theorem Invariant.controllerAct {s t : State} (h : Invariant s) (ht : controllerAct s = .next t) : Invariant t := by
  obtain ⟨hp, hc⟩ := (invariant_iff s).mp h
  have hport : ∀ ws, Invariant (setPort ws s) := fun _ => h.congr rfl rfl rfl rfl rfl
  rcases controllerAct_cases ht with ⟨_, rfl⟩ | ⟨_, hb, hmicro⟩ | ⟨_, _, _, rfl⟩ | ⟨w, rest, i, _, _, _, _, hexec⟩
    | ⟨w, rest, e, _, _, _, _, hillegal⟩
  · exact (invariant_iff _).mpr ⟨hp.controllerReset, controlOk_reset s.cfg⟩
  · exact (invariant_iff t).mpr ⟨hp.microStep hmicro, hc.microStep hb hmicro⟩
  · exact h
  · exact (hport rest).exec hexec
  · exact (hport rest).acceptIllegal hillegal

/-- Settles O50: other masters, the controller and the other masters again each keep both halves of the invariant. -/
theorem stepKeepsInvariant : Obligations.StepKeepsInvariant := by
  intro s t h ht
  obtain ⟨_, s1, s2, s3, hbefore, hact, hafter, rfl, _⟩ := step_parts ht
  have h0 : Invariant (hostArrivals s) := h.congr rfl rfl rfl rfl rfl
  have h3 : Invariant s3 := ((h0.otherAccesses hbefore).controllerAct hact).otherAccesses hafter
  exact h3.congr rfl rfl rfl rfl rfl

end Sys2Proof.Machine

/-! # Proofs: every step keeps the invariant of the window's traffic (10_state R46; 20_memory R90, R101; 41_decoder R172)

A tick appends transactions of its own number to TRACE, each at the address of a register; when the tick is over, its number is
past. -/

namespace Sys2Proof.Machine

/-- TRACE during a tick: in order, with no transaction after this tick, each at a register's address, and the controller's alone
when there are no other masters. -/
structure TraceInTick (s : State) : Prop where
  order : s.trace.Pairwise (fun e e' => e.tick ≤ e'.tick)
  untilNow : ∀ e ∈ s.trace, e.tick ≤ s.tick
  address : ∀ e ∈ s.trace, ∃ r ∈ allRegs s.cfg, e.addr = physAddr s.cfg r
  agents : s.cfg.otherMasters = false → ∀ e ∈ s.trace, e.agent = .controller

/-- A tick starts with TRACE in order. -/
theorem TraceOk.inTick {s : State} (h : TraceOk s) : TraceInTick s :=
  ⟨h.order, fun e he => Nat.le_of_lt (h.past e he), fun e he => (h.address e he).1, h.agents⟩

/-- A tick ends with TRACE in order and aligned: every register of a well-formed configuration is (20_memory R92). -/
theorem TraceInTick.nextTick {s : State} (h : TraceInTick s) (hc : configOk s.cfg = true) : TraceOk (nextTick s) := by
  refine ⟨h.order, fun e he => Nat.lt_succ_of_le (h.untilNow e he), fun e he => ?_, h.agents⟩
  obtain ⟨r, hr, haddr⟩ := h.address e he
  exact ⟨⟨r, hr, haddr⟩, by rw [haddr]; exact physAddr_aligned hc hr⟩

theorem TraceInTick.congr {s t : State} (h : TraceInTick s) (hcfg : t.cfg = s.cfg) (htick : t.tick = s.tick)
    (htrace : t.trace = s.trace) : TraceInTick t := by
  constructor
  · rw [htrace]; exact h.order
  · rw [htrace, htick]; exact h.untilNow
  · rw [htrace, hcfg]; exact h.address
  · rw [htrace, hcfg]; exact h.agents

/-- One more transaction in this tick, at a register's address, by an agent that there is. -/
theorem TraceInTick.append {s t : State} {ag : Agent} {k : Kind} {a : Nat} {v : Word} (h : TraceInTick s)
    (hreg : ∃ r ∈ allRegs s.cfg, a = physAddr s.cfg r) (hag : s.cfg.otherMasters = false → ag = .controller)
    (hcfg : t.cfg = s.cfg) (htick : t.tick = s.tick) (htrace : t.trace = s.trace ++ [⟨ag, s.tick, k, a, v⟩]) :
    TraceInTick t := by
  have hmem : ∀ e, e ∈ t.trace ↔ e ∈ s.trace ∨ e = ⟨ag, s.tick, k, a, v⟩ := by simp [htrace]
  constructor
  · rw [htrace, List.pairwise_append]
    refine ⟨h.order, List.pairwise_singleton _ _, fun e he e' he' => ?_⟩
    rw [List.mem_singleton.mp he']
    exact h.untilNow e he
  · intro e he
    rw [htick]
    rcases (hmem e).mp he with he | rfl
    · exact h.untilNow e he
    · exact Nat.le_refl _
  · intro e he
    rw [hcfg]
    rcases (hmem e).mp he with he | rfl
    · exact h.address e he
    · exact hreg
  · intro hno e he
    rw [hcfg] at hno
    rcases (hmem e).mp he with he | rfl
    · exact h.agents hno e he
    · exact hag hno

/-- An other master acts at registers only, and only where there are other masters (20_memory R75, R101). -/
theorem TraceInTick.otherAccesses {as : List Access} {s t : State} (h : TraceInTick s) (ht : otherAccesses as s = .next t) :
    TraceInTick t := by
  refine otherAccesses_induct (P := TraceInTick) (fun a u v hu hv => ?_) as s t h ht
  obtain ⟨hothers, r, hr, haddr, _, hcases⟩ := otherAccess_cases hv
  have hreg : ∃ r ∈ allRegs u.cfg, a.addr = physAddr u.cfg r := ⟨r, hr, haddr.symm⟩
  have hag : u.cfg.otherMasters = false → Agent.other a.id = .controller := fun hno => absurd hothers (by simp [hno])
  rcases hcases with ⟨w, _, rfl⟩ | ⟨_, rfl⟩
  · exact hu.append hreg hag rfl rfl rfl
  · exact hu.append hreg hag rfl rfl rfl

/-- The controller's transaction goes to the register it looked up (41_decoder R172, R173). -/
theorem TraceInTick.microStep {s t : State} (h : TraceInTick s) (ht : microStep s = .next t) : TraceInTick t := by
  have hreg : ∀ {r r' : Reg} {a : Nat}, ctlTarget r s = some (a, r') → ∃ r ∈ allRegs s.cfg, a = physAddr s.cfg r :=
    fun hfound => ⟨_, (ctlTarget_mem hfound).1, (ctlTarget_mem hfound).2.symm⟩
  rcases microStep_cases ht with ⟨_, rfl⟩ | ⟨r, a, r', _, hfound, rfl⟩ | ⟨r, v, q, a, r', _, hfound, rfl⟩ | ⟨n, _, rfl⟩
  · exact h.congr (by simp) (by simp) (by simp)
  · have hread : TraceInTick (busRead .controller a r' s).2 := h.append (hreg hfound) (fun _ => rfl) rfl rfl rfl
    exact hread.congr (by simp) (by simp) (by simp)
  · have hwrite : TraceInTick (busWrite .controller a r' (writeValue s.ctl v) s) :=
      h.append (hreg hfound) (fun _ => rfl) rfl rfl rfl
    exact hwrite.congr (by simp) (by simp) (by simp)
  · exact h.congr (by simp) (by simp) (by simp)

theorem TraceInTick.controllerAct {s t : State} (h : TraceInTick s) (ht : controllerAct s = .next t) : TraceInTick t := by
  rcases controllerAct_cases ht with ⟨_, rfl⟩ | ⟨_, _, hmicro⟩ | ⟨_, _, _, rfl⟩ | ⟨w, rest, i, _, _, _, _, hexec⟩
    | ⟨w, rest, e, _, _, _, _, hillegal⟩
  · exact h.congr rfl rfl rfl
  · exact h.microStep hmicro
  · exact h
  · obtain ⟨hcfg, _, _, _, _, htick, _, htrace⟩ := exec_outside hexec
    exact h.congr hcfg htick htrace
  · obtain ⟨hcfg, _, _, _, _, htick, _, htrace⟩ := accept_outside hillegal
    exact h.congr hcfg htick htrace

/-- Settles O51: each part of a tick appends transactions of this tick at registers, and the tick's end makes them past. -/
theorem stepKeepsTraceInvariant : Obligations.StepKeepsTraceInvariant := by
  intro s t hinv h ht
  have hcfg := step_cfg ht
  obtain ⟨_, s1, s2, s3, hbefore, hact, hafter, rfl, _⟩ := step_parts ht
  have h0 : TraceInTick (hostArrivals s) := h.inTick.congr rfl rfl rfl
  refine (((h0.otherAccesses hbefore).controllerAct hact).otherAccesses hafter).nextTick ?_
  rw [show s3.cfg = s.cfg from hcfg]
  exact hinv.config

end Sys2Proof.Machine

/-! # Proofs: reset and launch (10_state R50 to R53; 70_reset R270, R271, R284) -/

namespace Sys2Proof.Machine

/-- The power-on peripheral of the model meets the power-on predicate (10_state R52). -/
theorem powerOn_powerOn (c : Config) : PowerOn c (Periph.powerOn c) := by
  refine ⟨List.length_replicate, rfl, rfl, fun pin hpin => ?_⟩
  obtain rfl := List.eq_of_mem_replicate hpin
  exact ⟨rfl, rfl, rfl⟩

theorem configOk_default : configOk Config.default = true := by decide

/-- A powered-on peripheral holds no strobe, and no pin is stale at launch (10_state R52). -/
theorem periphOk_launch {c : Config} {per : Periph} (hc : configOk c = true) (hp : PowerOn c per) :
    PeriphOk (State.launch c per) := by
  obtain ⟨hlength, _, _, hpins⟩ := hp
  refine ⟨hc, hlength, fun pin hpin => ?_, List.nodup_nil, nofun⟩
  obtain ⟨_, hclk, hstrobe⟩ := hpins pin hpin
  simp [PinOk, hclk, hstrobe]

/-- Nothing was recorded before launch. -/
theorem traceOk_launch (c : Config) (per : Periph) : TraceOk (State.launch c per) :=
  ⟨.nil, nofun, nofun, fun _ => nofun⟩

/-- Settles O49: the peripheral's half by the power-on predicate, the controller's by reset. -/
theorem launchMeetsInvariant : Obligations.LaunchMeetsInvariant :=
  fun c per hc hp => ⟨(invariant_iff _).mpr ⟨periphOk_launch hc hp, controlOk_reset c⟩, traceOk_launch c per⟩

/-- Settles O48: reset is the launch of the default configuration with the power-on peripheral. -/
theorem resetMeetsInvariant : Obligations.ResetMeetsInvariant :=
  launchMeetsInvariant _ _ configOk_default (powerOn_powerOn _)

/-- Settles O46. -/
theorem resetValues : Obligations.ResetValues :=
  ⟨rfl, rfl, rfl, rfl, rfl, rfl, rfl, powerOn_powerOn _⟩

theorem strobeAsserted_iff {per : Periph} {p : Nat} :
    strobeAsserted per p = true ↔ ∃ pin, per.pins[p]? = some pin ∧ pin.clk = true := by
  simp [strobeAsserted, Option.any_eq_true]

theorem controllerAct_reset {s : State} (h : (tickInput s).reset = true) : controllerAct s = .next (controllerReset s) := by
  simp [controllerAct, controllerTurn, h]

/-- Settles O47: with no other master, a reset tick is `controllerReset` of the state in which the hosts' words have arrived. -/
theorem resetTick : Obligations.ResetTick := by
  intro s hc hreset hbefore hafter
  have hstep : step s = .next (nextTick (controllerReset (hostArrivals s))) := by
    rw [step_noOthers hc hbefore hafter, controllerAct_reset (s := hostArrivals s) hreset, andThen_next]
  refine ⟨_, hstep, rfl, rfl, rfl, rfl, rfl, rfl, rfl, rfl, rfl, rfl, fun q => ?_⟩
  rw [nextTick_stale, controllerReset_stale, mem_staleAfterReset, strobeAsserted_iff]
  constructor
  · rintro (hq | ⟨hseq, hpin, rfl⟩)
    · exact .inl hq
    · exact .inr ⟨hseq, rfl, hpin⟩
  · rintro (hq | ⟨hseq, rfl, hpin⟩)
    · exact .inl hq
    · exact .inr ⟨hseq, hpin, rfl⟩

end Sys2Proof.Machine

/-! # Proofs: STATUS (10_state R23, R25; 42_pin_ops R197) -/

namespace Sys2Proof.Machine

/-- STATUS as a number: the sum of its fields at their places (10_state R23). -/
def statusNat (st : Status) : Nat :=
  st.mapped.toNat + 2 * st.busy.toNat + 4 * st.fatal.toNat + 8 * st.fault.toNat + 16 * st.resultValid.toNat
    + 32 * st.level.toNat + 64 * seqNat st.seq + 256 * faultCodeNat st.faultCode + 4096 * st.rejected.toNat

theorem seqNat_lt (q : Seq) : seqNat q < 4 := by cases q <;> decide

theorem faultCodeNat_lt (f : FaultCode) : faultCodeNat f < 16 := by cases f <;> decide

/-- The fields of STATUS, as digits of the sum (10_state R23). -/
theorem statusNat_digits (st : Status) :
    statusNat st / 2 ^ 0 % 2 = st.mapped.toNat ∧ statusNat st / 2 ^ 1 % 2 = st.busy.toNat
    ∧ statusNat st / 2 ^ 2 % 2 = st.fatal.toNat ∧ statusNat st / 2 ^ 3 % 2 = st.fault.toNat
    ∧ statusNat st / 2 ^ 4 % 2 = st.resultValid.toNat ∧ statusNat st / 2 ^ 5 % 2 = st.level.toNat
    ∧ statusNat st / 2 ^ 6 % 2 ^ 2 = seqNat st.seq ∧ statusNat st / 2 ^ 8 % 2 ^ 4 = faultCodeNat st.faultCode
    ∧ statusNat st / 2 ^ 12 % 2 = st.rejected.toNat ∧ statusNat st < 2 ^ 13 := by
  have hseq := seqNat_lt st.seq
  have hcode := faultCodeNat_lt st.faultCode
  have hmapped := st.mapped.toNat_le
  have hbusy := st.busy.toNat_le
  have hfatal := st.fatal.toNat_le
  have hfault := st.fault.toNat_le
  have hresult := st.resultValid.toNat_le
  have hlevel := st.level.toNat_le
  have hrejected := st.rejected.toNat_le
  unfold statusNat
  refine ⟨?_, ?_, ?_, ?_, ?_, ?_, ?_, ?_, ?_, ?_⟩ <;> omega

/-- A field of STATUS is the sum's digits at its place. -/
theorem statusWord_extract {st : Status} {i n k : Nat} (h : statusNat st / 2 ^ i % 2 ^ n = k) :
    (statusWord st).extractLsb' i n = BitVec.ofNat n k := by
  have hlt : statusNat st < 2 ^ 32 := by
    obtain ⟨_, _, _, _, _, _, _, _, _, hlt⟩ := statusNat_digits st
    omega
  apply BitVec.eq_of_toNat_eq
  rw [show statusWord st = BitVec.ofNat 32 (statusNat st) from rfl, BitVec.extractLsb'_toNat, BitVec.toNat_ofNat,
    BitVec.toNat_ofNat, Nat.mod_eq_of_lt hlt, Nat.shiftRight_eq_div_pow, ← h, Nat.mod_mod]

/-- A bit of STATUS is the flag that is the sum's digit at its place. -/
theorem statusWord_getLsbD {st : Status} {i : Nat} {b : Bool} (hi : i < 32) (h : statusNat st / 2 ^ i % 2 = b.toNat) :
    (statusWord st).getLsbD i = b := by
  rw [show statusWord st = BitVec.ofNat 32 (statusNat st) from rfl, BitVec.getLsbD_ofNat,
    Nat.testBit_eq_decide_div_mod_eq, h, decide_eq_true hi]
  cases b <;> rfl

/-- Settles O6: STATUS is the sum of its fields at their places, and no field is wider than its place. -/
theorem statusWordLayout : Obligations.StatusWordLayout := by
  intro st
  obtain ⟨hmapped, hbusy, hfatal, hfault, hresult, hlevel, hseq, hcode, hrejected, hlt⟩ := statusNat_digits st
  refine ⟨statusWord_getLsbD (by decide) hmapped, statusWord_getLsbD (by decide) hbusy, statusWord_getLsbD (by decide) hfatal,
    statusWord_getLsbD (by decide) hfault, statusWord_getLsbD (by decide) hresult, statusWord_getLsbD (by decide) hlevel,
    ?_, ?_, statusWord_getLsbD (by decide) hrejected, statusWord_extract (k := 0) (by omega)⟩
  · rw [statusWord_extract hseq]
    cases st.seq <;> rfl
  · rw [statusWord_extract hcode]
    cases st.faultCode <;> rfl

/-! ## LEVEL -/

theorem otherAccesses_ctl {as : List Access} {s t : State} (h : otherAccesses as s = .next t) : t.ctl = s.ctl := by
  obtain ⟨_, hctl, _⟩ := otherAccesses_outside h
  exact hctl

theorem openTick_ctl {s t : State} (h : openTick s = .next t) : t.ctl = s.ctl :=
  otherAccesses_ctl (s := hostArrivals s) h

/-- Acceptance leaves LEVEL, whatever becomes of the word (10_state R31). -/
theorem accept_level {w : Word} {check : Option FaultCode} {cur : Cur} {body : List MicroOp} {s t : State}
    (h : accept w check cur body s = .next t) : t.ctl.status.level = s.ctl.status.level := by
  rcases accept_cases h with ⟨_, rfl⟩ | ⟨_, _, rfl⟩ | ⟨_, _, _, ⟨f, _, rfl⟩ | ⟨_, rfl⟩⟩ <;> rfl

theorem exec_level {i : Instr} {s t : State} (h : exec i s = .next t) : t.ctl.status.level = s.ctl.status.level := by
  rw [exec_eq_accept_operandFault] at h
  exact accept_level h

@[simp] theorem advance_level (s : State) : (advance s).ctl.status.level = s.ctl.status.level := by
  by_cases hlast : s.ctl.uidx + 1 = s.ctl.prog.length
  · rw [advance_last s hlast]; rfl
  · rw [advance_notLast s hlast]

/-- A micro-step that changes LEVEL is the read of a GET (42_pin_ops R197). -/
theorem microStep_level {s t : State} (h : microStep s = .next t) (hlevel : t.ctl.status.level ≠ s.ctl.status.level) :
    s.ctl.cur.op = .get ∧ ∃ r a r', s.ctl.prog[s.ctl.uidx]? = some (.memRead r)
      ∧ t = advance (getResult (loadTmp (readReg s.cfg s.draws s.periph r') (busRead .controller a r' s).2)) := by
  rcases microStep_cases h with ⟨_, rfl⟩ | ⟨r, a, r', hm, _, rfl⟩ | ⟨r, v, q, a, r', _, _, rfl⟩ | ⟨n, _, rfl⟩
  · refine absurd ?_ hlevel
    unfold mapStep
    dsimp only
    split
    · rw [advance_level]; rfl
    · rfl
  · refine ⟨?_, r, a, r', hm, rfl⟩
    by_contra hop
    exact hlevel (by simp [getResult_ctl, hop])
  · exact absurd (by simp [enterSeq]) hlevel
  · refine absurd ?_ hlevel
    unfold waitStep
    split
    · rw [advance_level]
    · rfl

/-- The read of a GET is its last micro-operation: the tick that changes LEVEL completes it (42_pin_ops R197). -/
theorem microStep_level_completes {s t : State} (hinv : Invariant s) (hb : s.ctl.status.busy = true)
    (h : microStep s = .next t) (hlevel : t.ctl.status.level ≠ s.ctl.status.level) :
    s.ctl.cur.op = .get ∧ t.ctl.status.resultValid = true ∧ t.ctl.status.busy = false := by
  obtain ⟨hop, r, a, r', hm, rfl⟩ := microStep_level h hlevel
  obtain ⟨pre, hpre, hprog, _⟩ := hinv.running hb
  have hlast : s.ctl.uidx + 1 = s.ctl.prog.length := by
    rw [hprog] at hm ⊢
    exact (prog_shape hpre).1 r hm hop
  rw [advance_last _ (by simpa [getResult_ctl] using hlast), getResult_ctl]
  simp [hop, setBusy, recordLevel]

/-- Settles O55: other masters and acceptance leave LEVEL, and a micro-step that changes it ends a GET. -/
theorem onlyGetWritesLevel : Obligations.OnlyGetWritesLevel := by
  intro s t hinv hreset ht hlevel
  obtain ⟨_, s1, s2, s3, hbefore, hact, hafter, rfl, hschedule, _⟩ := step_parts ht
  have hinv0 : Invariant (hostArrivals s) := hinv.congr rfl rfl rfl rfl rfl
  have hinv1 : Invariant s1 := hinv0.otherAccesses hbefore
  have hctl1 : s1.ctl = s.ctl := openTick_ctl hbefore
  have hctl3 : (nextTick s3).ctl = s2.ctl := otherAccesses_ctl (t := s3) hafter
  rw [hctl3, ← hctl1] at hlevel
  rw [hctl3, ← hctl1]
  rcases controllerAct_cases hact with ⟨hr, _⟩ | ⟨_, hb, hmicro⟩ | ⟨_, _, _, rfl⟩ | ⟨w, rest, i, _, _, _, _, hexec⟩
    | ⟨w, rest, e, _, _, _, _, hillegal⟩
  · have hinput : tickInput s1 = tickInput s := by simp [tickInput, hschedule]
    exact absurd hr (by simp [hinput, hreset])
  · exact ⟨hb, microStep_level_completes hinv1 hb hmicro hlevel⟩
  · exact absurd rfl hlevel
  · exact absurd (exec_level hexec) hlevel
  · exact absurd (accept_level hillegal) hlevel

end Sys2Proof.Machine

/-! # Proofs: the command port and a tick (10_state R20 to R34) -/

namespace Sys2Proof.Machine

/-! ## Acceptance -/

theorem bodyOf_eq_nil_iff {c : Config} {i : Instr} : bodyOf c (curOf i) = [] ↔ i = .init := by
  cases i <;> simp [bodyOf, curOf, bodyInit, bodySet, bodyClr, bodyGet, bodyFsel, bodyPull, decodePin]

/-- Settles O14: the checks pass, so the command starts; the micro-program is empty for a mapped INIT only. -/
theorem acceptanceBuildsProgram : Obligations.AcceptanceBuildsProgram := by
  intro i s hready hpass
  rw [exec_pass hready hpass]
  have hbusy : (!(mapFirst s ++ bodyOf s.cfg (curOf i)).isEmpty) = !(s.ctl.status.mapped && decide (i = .init)) := by
    cases hm : s.ctl.status.mapped <;> by_cases hi : i = .init <;> simp [mapFirst, hm, hi, bodyOf_eq_nil_iff]
  rw [← hbusy]
  rfl

/-- The port is not ready while BUSY = 1 (10_state R31). -/
theorem accept_busy {w : Word} {check : Option FaultCode} {cur : Cur} {body : List MicroOp} {s : State}
    (hc : configOk s.cfg = true) (hb : s.ctl.status.busy = true) : accept w check cur body s = .next s := by
  simp [accept, hc, hb]

/-- Settles O15: every command is offered to `accept`. -/
theorem busyPortHoldsCommand : Obligations.BusyPortHoldsCommand := by
  intro i s hc hb
  rw [exec_eq_accept_operandFault]
  exact accept_busy hc hb

/-! ## The controller's action of a tick -/

theorem controllerAct_micro {s : State} (hr : (tickInput s).reset = false) (hb : s.ctl.status.busy = true) :
    controllerAct s = microStep s := by
  simp [controllerAct, controllerTurn, hr, hb]

theorem controllerAct_command {s : State} {w : Word} {rest : List Word} {i : Instr} (hr : (tickInput s).reset = false)
    (hb : s.ctl.status.busy = false) (hp : s.port = w :: rest) (hd : decode w = .ok i) :
    controllerAct s = exec i (setPort rest s) := by
  simp [controllerAct, controllerTurn, hr, hb, hp, hd]

/-- Settles O11: the first word held at the port is still the first when the arriving words are behind it. -/
theorem stepRunsDecodedCommand : Obligations.StepRunsDecodedCommand := by
  intro s w rest i hc hu hb hp hd
  obtain ⟨hr, hbefore, hafter⟩ := tickInput_of_undisturbed hu
  have hport : (hostArrivals s).port = w :: (rest ++ commandWords (tickInput s).host) := by simp [hp]
  rw [step_noOthers hc hbefore hafter, controllerAct_command (s := hostArrivals s) hr hb hport hd]
  rfl

theorem commandWords_map_cmd (ws : List Word) : commandWords (ws.map .cmd) = ws := by
  induction ws with
  | nil => rfl
  | cons w ws ih => simp [commandWords, ih]

theorem commandWords_eq_nil {hs : List HostWrite} (h : ∀ x ∈ hs, ∃ w, x = .status w) : commandWords hs = [] := by
  induction hs with
  | nil => rfl
  | cons x hs ih =>
    obtain ⟨w, rfl⟩ := h x List.mem_cons_self
    exact ih fun y hy => h y (List.mem_cons_of_mem _ hy)

/-- Settles O12: one micro-step, which leaves the port to the arriving words. -/
theorem stepRunsOneMicroOperation : Obligations.StepRunsOneMicroOperation := by
  intro s hc hu hb
  obtain ⟨hr, hbefore, hafter⟩ := tickInput_of_undisturbed hu
  have hstep : step s = andThen (microStep (hostArrivals s)) (fun t => .next (nextTick t)) := by
    rw [step_noOthers hc hbefore hafter, controllerAct_micro (s := hostArrivals s) hr hb]
  have hport : ∀ t, step s = .next t → t.port = s.port ++ commandWords (tickInput s).host := by
    intro t ht
    rw [hstep] at ht
    obtain ⟨u, hmicro, hu⟩ := andThen_eq_next ht
    cases hu
    exact (microStep_outside hmicro).2.2.2
  refine ⟨hstep, fun ws t hws ht => ?_, fun t hstatus ht => ?_⟩
  · rw [hport t ht, hws, commandWords_map_cmd]
  · rw [hport t ht, commandWords_eq_nil hstatus, List.append_nil]

/-! ## What the hosts write -/

theorem otherAccesses_port {as : List Access} {s t : State} (h : otherAccesses as s = .next t) : t.port = s.port := by
  obtain ⟨_, _, _, hport, _⟩ := otherAccesses_outside h
  exact hport

theorem otherAccesses_schedule {as : List Access} {s t : State} (h : otherAccesses as s = .next t) :
    t.schedule = s.schedule := by
  obtain ⟨_, _, _, _, hschedule, _⟩ := otherAccesses_outside h
  exact hschedule

theorem openTick_schedule {s t : State} (h : openTick s = .next t) : t.schedule = s.schedule :=
  otherAccesses_schedule (s := hostArrivals s) h

/-- A schedule that differs from the one of s only in what hosts write in this tick. -/
structure SameButHosts (is : List TickInput) (s : State) : Prop where
  before : (is.headD TickInput.quiet).before = (tickInput s).before
  reset : (is.headD TickInput.quiet).reset = (tickInput s).reset
  after : (is.headD TickInput.quiet).after = (tickInput s).after
  tail : is.tail = s.schedule.tail

theorem SameButHosts.congr {is : List TickInput} {s t : State} (h : SameButHosts is s) (ht : t.schedule = s.schedule) :
    SameButHosts is t := by
  have hinput : tickInput t = tickInput s := by simp [tickInput, ht]
  exact ⟨hinput ▸ h.before, hinput ▸ h.reset, hinput ▸ h.after, ht ▸ h.tail⟩

/-- The parts of a step, put together (20_memory R101). -/
theorem step_of_parts {s s1 s2 s3 : State} (hc : configOk s.cfg = true)
    (hbefore : otherAccesses (tickInput s).before (hostArrivals s) = .next s1) (hact : controllerAct s1 = .next s2)
    (hafter : otherAccesses (tickInput s).after s2 = .next s3) : step s = .next (nextTick s3) := by
  have hschedule : s2.schedule = s.schedule := by
    rw [(controllerAct_outside hact).2.1, openTick_schedule hbefore]
  have hinput : tickInput s2 = tickInput s := by simp [tickInput, hschedule]
  simp [step, hc, openTick, hbefore, hact, closeTick, hinput, hafter]

/-- A busy tick commutes with a change of the port and of the hosts' writes: each of its parts does (10_state R31, R34). -/
theorem step_withOutside_of_busy {s t : State} {ws : List Word} {is : List TickInput} (hb : s.ctl.status.busy = true)
    (hr : (tickInput s).reset = false) (ht : step s = .next t) (his : SameButHosts is s) :
    step (withOutside ws is s) = .next { t with port := ws ++ commandWords (is.headD TickInput.quiet).host } := by
  obtain ⟨hc, s1, s2, s3, hbefore, hact, hafter, rfl, hsched1, _, hsched3⟩ := step_parts ht
  generalize hport : ws ++ commandWords (is.headD TickInput.quiet).host = port
  have harrive : hostArrivals (withOutside ws is s) = withOutside port is (hostArrivals s) := by rw [← hport]; rfl
  have hr1 : (tickInput s1).reset = false := by simpa [tickInput, hsched1] using hr
  have hb1 : s1.ctl.status.busy = true := by rw [openTick_ctl hbefore]; exact hb
  have hmicro : microStep s1 = .next s2 := by rwa [controllerAct_micro hr1 hb1] at hact
  have hbefore' : otherAccesses (is.headD TickInput.quiet).before (hostArrivals (withOutside ws is s))
      = .next (withOutside port is s1) := by
    rw [his.before, harrive, otherAccesses_withOutside, hbefore]
    rfl
  have hact' : controllerAct (withOutside port is s1) = .next (withOutside port is s2) := by
    rw [controllerAct_micro (s := withOutside port is s1) (his.reset.trans hr) hb1, microStep_withOutside, hmicro]
    rfl
  have hafter' : otherAccesses (is.headD TickInput.quiet).after (withOutside port is s2) = .next (withOutside port is s3) := by
    rw [his.after, otherAccesses_withOutside, hafter]
    rfl
  rw [step_of_parts (s := withOutside ws is s) hc hbefore' hact' hafter']
  simp [nextTick, withOutside, his.tail, hsched3]

/-- Settles O59: the changed schedule differs only in what hosts write. -/
theorem hostCannotDisturbARunningCommand : Obligations.HostCannotDisturbARunningCommand :=
  fun _ _ _ _ hb hr ht => ⟨_, step_withOutside_of_busy hb hr ht ⟨rfl, rfl, rfl, rfl⟩, rfl⟩

/-- Other masters do not see the schedule. -/
theorem otherAccesses_withSchedule (as : List Access) (is : List TickInput) (s : State) :
    otherAccesses as { s with schedule := is } = onNext (fun t => { t with schedule := is }) (otherAccesses as s) := by
  rw [← onNext_withOutside (fun t ht => otherAccesses_port ht)]
  exact otherAccesses_withOutside as s.port is s

theorem andThen_congr {o : Result} {f g : State → Result} (h : ∀ t, o = .next t → f t = g t) : andThen o f = andThen o g := by
  cases o with
  | next t => exact h t rfl
  | fault e => rfl
  | refused e => rfl

theorem closeTick_withSchedule {is : List TickInput} {s : State} (his : SameButHosts is s) :
    closeTick { s with schedule := is } = closeTick s := by
  have hafter : (tickInput { s with schedule := is }).after = (tickInput s).after := his.after
  unfold closeTick
  rw [hafter, otherAccesses_withSchedule, andThen_onNext]
  refine andThen_congr fun t ht => ?_
  have hschedule : t.schedule = s.schedule := otherAccesses_schedule ht
  simp [nextTick, his.tail, hschedule]

/-- Two schedules that differ only in what hosts write in this tick, and bring the same command words, give the same step
(10_state R22, R23). -/
theorem step_withSchedule {is : List TickInput} {s : State} (his : SameButHosts is s)
    (hwords : commandWords (is.headD TickInput.quiet).host = commandWords (tickInput s).host) :
    step { s with schedule := is } = step s := by
  have hbefore : (tickInput { s with schedule := is }).before = (tickInput s).before := his.before
  have harrive : hostArrivals { s with schedule := is } = { hostArrivals s with schedule := is } := by
    simp only [hostArrivals, ← hwords]
    rfl
  have hopen : openTick { s with schedule := is } = onNext (fun t => { t with schedule := is }) (openTick s) := by
    unfold openTick
    rw [hbefore, harrive, otherAccesses_withSchedule]
  unfold step
  split
  case isFalse => rfl
  case isTrue =>
    rw [hopen, andThen_onNext]
    refine andThen_congr fun t ht => ?_
    have ht : t.schedule = s.schedule := openTick_schedule ht
    rw [controllerAct_withSchedule (his.congr ht).reset, andThen_onNext]
    refine andThen_congr fun u hu => ?_
    exact closeTick_withSchedule (his.congr ((controllerAct_outside hu).2.1.trans ht))

/-- Settles O13: a write to STATUS brings no command word. -/
theorem statusWriteHasNoEffect : Obligations.StatusWriteHasNoEffect :=
  fun s i rest earlier later w =>
    step_withSchedule (s := { s with schedule := { i with host := earlier ++ later } :: rest }) ⟨rfl, rfl, rfl, rfl⟩
      (commandWords_status earlier later w)

end Sys2Proof.Machine

/-! # Proofs: what a read of a register returns and what a write does (20_memory R76 to R89) -/

namespace Sys2Proof.Machine

/-! ## Reads -/

/-- Settles O35: the bit is the pin's level. -/
theorem levelBankRead : Obligations.LevelBankRead := by
  intro c draw b i per pin hi hpin
  rw [readReg_getLsbD]
  simp [readBit, pinLevel, hi, hpin]

theorem readReg_pud_code (c : Config) (draw : Nat) (per : Periph) :
    (readReg c draw per .pud).extractLsb' 0 2 = per.pudcode := by
  apply BitVec.eq_of_getLsbD_eq
  intro i hi
  rw [BitVec.getLsbD_extractLsb', readReg_getLsbD]
  simp [readBit, hi, show i < 32 by omega]

theorem readReg_pudclk_bit {c : Config} {draw b i : Nat} {per : Periph} {pin : Pin} (hi : i < 32)
    (hpin : per.pins[32 * b + i]? = some pin) : (readReg c draw per (.pudclk b)).getLsbD i = pin.clk := by
  rw [readReg_getLsbD]
  simp [readBit, hi, hpin]

/-- Settles O36: one read lemma per register. -/
theorem functionAndPullRegisterReads : Obligations.FunctionAndPullRegisterReads := by
  intro c draw b per
  refine ⟨readReg_pud_code c draw per, fun i pin hi hpin => readReg_pudclk_bit hi hpin, fun k pin hk hpin => ?_⟩
  rw [Nat.mul_comm]
  exact readReg_fsel_field c draw per b k pin hk hpin

/-! ## Writes of function-select, set, clear and level banks -/

theorem writePin_fsel (c : Config) (x : WriteCtx) (b : Nat) (v : Word) (per : Periph) (q : Nat) (pin : Pin) :
    writePin c x (.fsel b) v per q pin
      = { pin with func := if q / 10 = b then v.extractLsb' (3 * (q % 10)) 3 else pin.func } := by
  by_cases hq : q / 10 = b <;> simp [writePin, hq, Nat.mul_comm]

theorem writePin_set (c : Config) (x : WriteCtx) (b : Nat) (v : Word) (per : Periph) (q : Nat) (pin : Pin) :
    writePin c x (.set b) v per q pin
      = { pin with latch := pin.latch || (decide (q / 32 = b) && v.getLsbD (q % 32)) } := by
  by_cases hq : q / 32 = b <;> cases hv : v.getLsbD (q % 32) <;> simp [writePin, hq, hv]

theorem writePin_clr (c : Config) (x : WriteCtx) (b : Nat) (v : Word) (per : Periph) (q : Nat) (pin : Pin) :
    writePin c x (.clr b) v per q pin
      = { pin with latch := pin.latch && !(decide (q / 32 = b) && v.getLsbD (q % 32)) } := by
  by_cases hq : q / 32 = b <;> cases hv : v.getLsbD (q % 32) <;> simp [writePin, hq, hv]

/-- A write to a level bank does nothing (20_memory R81). -/
theorem writeReg_lev (c : Config) (x : WriteCtx) (b : Nat) (v : Word) (per : Periph) : writeReg c x (.lev b) v per = per := by
  have hpins : (writeReg c x (.lev b) v per).pins = per.pins := by
    apply List.ext_getElem?
    intro q
    rw [writeReg_pins_getElem?, show writePin c x (.lev b) v per q = id from rfl, Option.map_id_apply]
  cases per
  simpa [writeReg] using hpins

/-- A field of a function-select bank after a write: the written one in the bank written, the old one in any other. -/
theorem readReg_writeReg_fsel {c : Config} {x : WriteCtx} {draw draw' b b' k : Nat} {v : Word} {per : Periph} (hk : k < 10)
    (hin : 10 * b' + k < per.pins.length) :
    (readReg c draw (writeReg c x (.fsel b) v per) (.fsel b')).extractLsb' (3 * k) 3
      = if b' = b then v.extractLsb' (3 * k) 3 else (readReg c draw' per (.fsel b')).extractLsb' (3 * k) 3 := by
  have hold : per.pins[10 * b' + k]? = some per.pins[10 * b' + k] := List.getElem?_eq_getElem hin
  have hnew : (writeReg c x (.fsel b) v per).pins[10 * b' + k]?
      = some (writePin c x (.fsel b) v per (10 * b' + k) per.pins[10 * b' + k]) := by
    rw [writeReg_pins_getElem?, hold, Option.map_some]
  have hbank : (10 * b' + k) / 10 = b' := by omega
  have hfield : (10 * b' + k) % 10 = k := by omega
  rw [Nat.mul_comm, readReg_fsel_field c draw _ b' k _ hk hnew, readReg_fsel_field c draw' per b' k _ hk hold,
    writePin_fsel, hbank, hfield, Nat.mul_comm]

/-- Settles O37: what is read back is the function of the pin written. -/
theorem fselBankWriteThenRead : Obligations.FselBankWriteThenRead := by
  intro c x b v per
  refine ⟨fun draw draw' b' k hk hin => readReg_writeReg_fsel hk hin, fun q => ?_,
    writeReg_pudcode c x _ v per nofun, writeReg_pudT c x _ v per nofun⟩
  rw [writeReg_pins_getElem?]
  exact congrArg (Option.map · per.pins[q]?) (funext (writePin_fsel c x b v per q))

/-- Settles O38: one write lemma per bank. -/
theorem latchBankWrites : Obligations.LatchBankWrites := by
  intro c x b v per
  refine ⟨fun q => ?_, fun q => ?_, writeReg_lev c x b v per, ?_⟩
  · rw [writeReg_pins_getElem?]
    exact congrArg (Option.map · per.pins[q]?) (funext (writePin_set c x b v per q))
  · rw [writeReg_pins_getElem?]
    exact congrArg (Option.map · per.pins[q]?) (funext (writePin_clr c x b v per q))
  · rintro r (rfl | rfl)
    · exact ⟨writeReg_pudcode c x _ v per nofun, writeReg_pudT c x _ v per nofun⟩
    · exact ⟨writeReg_pudcode c x _ v per nofun, writeReg_pudT c x _ v per nofun⟩

/-! ## Writes of PUD -/

theorem writePin_pud (c : Config) (x : WriteCtx) (v : Word) (per : Periph) (q : Nat) (pin : Pin) :
    writePin c x .pud v per q pin
      = { pin with strobe := if pin.clk = true then pin.strobe.map (strobeSeesPud c x.tick) else pin.strobe } := by
  obtain ⟨func, latch, clk, pcell, strobe⟩ := pin
  cases clk <;> rfl

/-- Settles O39: a pin sees the write in its strobe only. -/
theorem pullControlWrite : Obligations.PullControlWrite := by
  intro c x v per
  refine ⟨rfl, rfl, fun q pin hpin => ?_⟩
  rw [writeReg_pins_getElem?, hpin, Option.map_some, writePin_pud]
  rfl

/-! ## Writes of pull-clock banks -/

section

variable {c : Config} {x : WriteCtx} {b q : Nat} {v : Word} {per : Periph} {pin : Pin}

theorem writePin_pudclk_otherBank (hq : q / 32 ≠ b) : writePin c x (.pudclk b) v per q pin = pin := by
  simp [writePin, hq]

theorem writePin_pudclk_same (hv : v.getLsbD (q % 32) = pin.clk) : writePin c x (.pudclk b) v per q pin = pin := by
  by_cases hq : q / 32 = b
  · cases hclk : pin.clk <;> simp [writePin, writeClk, hq, hv, hclk]
  · exact writePin_pudclk_otherBank hq

/-- A bit 0 to 1 starts the pin's strobe (20_memory R84). -/
theorem writePin_pudclk_start (hq : q / 32 = b) (hclk : pin.clk = false) (hv : v.getLsbD (q % 32) = true) :
    writePin c x (.pudclk b) v per q pin
      = { pin with clk := true, strobe := some (newStrobe c x per), pcell := Config.freePull x.draw q } := by
  simp [writePin, writeClk, hq, hclk, hv]

/-- A bit 1 to 0 ends the pin's strobe (20_memory R85). -/
theorem writePin_pudclk_end (hq : q / 32 = b) (hclk : pin.clk = true) (hv : v.getLsbD (q % 32) = false) :
    writePin c x (.pudclk b) v per q pin
      = { pin with clk := false, strobe := none, pcell := cellAfter x q pin.strobe } := by
  simp [writePin, writeClk, hq, hclk, hv]

/-- The pull-clock bit is the bit written, and function and latch stay (20_memory R83). -/
theorem writePin_pudclk_fields (hq : q / 32 = b) :
    (writePin c x (.pudclk b) v per q pin).clk = v.getLsbD (q % 32)
    ∧ (writePin c x (.pudclk b) v per q pin).func = pin.func
    ∧ (writePin c x (.pudclk b) v per q pin).latch = pin.latch := by
  cases hclk : pin.clk <;> cases hv : v.getLsbD (q % 32)
  · rw [writePin_pudclk_same (hv.trans hclk.symm), hclk]; simp
  · rw [writePin_pudclk_start hq hclk hv]; simp
  · rw [writePin_pudclk_end hq hclk hv]; simp
  · rw [writePin_pudclk_same (hv.trans hclk.symm), hclk]; simp

end

/-- The cell value of a code that has one (43_pull R216). -/
theorem pullOfCode_getD {code : BitVec 2} (h : code ≠ 3#2) (y : Pull) :
    (pullOfCode code).getD y = if code = 0#2 then .none else if code = 1#2 then .down else .up := by
  have hcode : ∀ d : BitVec 2, d ≠ 3#2 → d = 0#2 ∨ d = 1#2 ∨ d = 2#2 := by decide
  rcases hcode code h with rfl | rfl | rfl <;> rfl

/-- An ok strobe of a pin that is not open leaves its code's direction (20_memory R85). -/
theorem cellAfter_of_ok {x : WriteCtx} {q : Nat} {st : Strobe} (hq : q ∉ x.openPins) (hok : strobeOk x st = true) :
    cellAfter x q (some st) = if st.code = 0#2 then .none else if st.code = 1#2 then .down else .up := by
  have hcode : st.code ≠ 3#2 := ((strobeOk_iff x st).mp hok).2.2.1
  simp [cellAfter, hok, hq, pullOfCode_getD hcode]

/-- A strobe that is not ok, and any strobe of an open pin, leaves the cell unknown (20_memory R85). -/
theorem cellAfter_of_not_ok {x : WriteCtx} {q : Nat} {st : Strobe} (h : ¬ (q ∉ x.openPins ∧ strobeOk x st = true)) :
    cellAfter x q (some st) = Config.freePull x.draw q := by
  have hcond : ¬ (strobeOk x st && !x.openPins.contains q) = true := by simpa [-not_and, and_comm] using h
  exact if_neg hcond

/-- The strobe of an open pin leaves the cell unknown (logs 30, 32, 35). -/
theorem cellAfter_of_mem_openPins {x : WriteCtx} {q : Nat} (h : q ∈ x.openPins) (strobe : Option Strobe) :
    cellAfter x q strobe = Config.freePull x.draw q := by
  cases strobe with
  | none => rfl
  | some st => exact cellAfter_of_not_ok fun hnot => hnot.1 h

/-- A strobe as it starts: settled when PUD was last written at least T_HW_MIN ticks before (20_memory R84). -/
theorem newStrobe_eq (c : Config) (x : WriteCtx) (per : Periph) :
    newStrobe c x per = ⟨x.tick, per.pudcode,
      (match per.pudT with | none => true | some t => decide ((c.tHwMin : Int) ≤ (x.tick : Int) - t - 1)), true, 0, none⟩ := by
  cases hpud : per.pudT with
  | none => simp [newStrobe, hpud]
  | some t =>
    have hsettled : t + 1 + c.tHwMin ≤ x.tick ↔ (c.tHwMin : Int) ≤ (x.tick : Int) - t - 1 := by omega
    simp [newStrobe, hpud, hsettled]

/-- Settles O40: a bit of the written bank stays, starts its strobe or ends it. -/
theorem pullClockWrite : Obligations.PullClockWrite := by
  intro c x b q v per pin hpin
  refine ⟨writePin c x (.pudclk b) v per q pin, ?_, writePin_pudclk_otherBank, writePin_pudclk_fields,
    fun _ => writePin_pudclk_same, fun hq hclk hv => ?_, fun st hq hclk hv hst => ?_⟩
  · rw [writeReg_pins_getElem?, hpin, Option.map_some]
  · rw [writePin_pudclk_start hq hclk hv]
    exact ⟨rfl, congrArg some (newStrobe_eq c x per)⟩
  · rw [writePin_pudclk_end hq hclk hv, hst, ← strobeOk_iff]
    exact ⟨rfl, fun hok => cellAfter_of_ok hok.1 hok.2, cellAfter_of_not_ok⟩

end Sys2Proof.Machine

/-! # Proofs: other masters (20_memory R97 to R101; 43_pull R223; 70_reset R283, R284) -/

namespace Sys2Proof.Machine

/-! ## One access -/

section

variable {s : State} {r : Reg}

theorem otherAccess_write (hc : configOk s.cfg = true) (ho : s.cfg.otherMasters = true) (hr : r ∈ allRegs s.cfg) (id : Nat)
    (v : Word) :
    otherAccess ⟨id, physAddr s.cfg r, some v⟩ s = .next (busWrite (.other id) (physAddr s.cfg r) r v s) := by
  simp [otherAccess, ho, physAddr_aligned hc hr, regAt_physAddr hc hr]

theorem otherAccess_read (hc : configOk s.cfg = true) (ho : s.cfg.otherMasters = true) (hr : r ∈ allRegs s.cfg) (id : Nat) :
    otherAccess ⟨id, physAddr s.cfg r, none⟩ s = .next (busRead (.other id) (physAddr s.cfg r) r s).2 := by
  simp [otherAccess, ho, physAddr_aligned hc hr, regAt_physAddr hc hr]

end

/-- Settles O43: the access is the bus transaction of its kind. -/
theorem otherMasterAccessIsPerformed : Obligations.OtherMasterAccessIsPerformed := by
  intro s id r v hc ho hr
  cases v with
  | none => exact ⟨_, otherAccess_read hc ho hr id, rfl, rfl, rfl, rfl, fun _ => ⟨rfl, rfl, rfl⟩, nofun⟩
  | some w =>
    refine ⟨_, otherAccess_write hc ho hr id w, rfl, rfl, rfl, rfl, nofun, ?_⟩
    rintro _ ⟨⟩
    exact ⟨rfl, rfl, rfl⟩

/-! ## A write that ends a strobe -/

theorem mem_openPins_of_stale {id q : Nat} {s : State} (h : q ∈ s.stale) : q ∈ openPins (.other id) s := by
  rw [openPins_other]
  split
  · exact h
  · exact List.mem_cons_of_mem _ h

/-- A pin of the bank with a 1 for its clock bit, after an other master's write of a 0: the strobe is discarded, and the cell is
what its end leaves (20_memory R85). -/
theorem busWrite_pudclk_end {s : State} {id a q : Nat} {v : Word} {pin : Pin} (hpin : s.periph.pins[q]? = some pin)
    (hclk : pin.clk = true) (hv : v.getLsbD (q % 32) = false) :
    (busWrite (.other id) a (.pudclk (q / 32)) v s).periph.pins[q]?
      = some { pin with clk := false, strobe := none, pcell := cellAfter (writeCtx (.other id) s) q pin.strobe } := by
  obtain ⟨_, _, hperiph, _⟩ := busWrite_fields (.other id) a (.pudclk (q / 32)) v s
  rw [hperiph, writeReg_pins_getElem?, hpin, Option.map_some, writePin_pudclk_end rfl hclk hv]

/-- A settled and held strobe of a code other than 11 with no late PUD write latches its code, unless its pin is open
(20_memory R85). -/
theorem cellAfter_of_settled_held {x : WriteCtx} {q : Nat} {st : Strobe} (hq : q ∉ x.openPins) (hsettled : st.settled = true)
    (hheld : st.held = true) (hcode : st.code ≠ 3#2) (hlate : st.late = 0) :
    cellAfter x q (some st) = if st.code = 0#2 then .none else if st.code = 1#2 then .down else .up :=
  cellAfter_of_ok hq ((strobeOk_iff x st).mpr ⟨hsettled, hheld, hcode, .inl hlate⟩)

/-- Settles O44: of the pins that are not stale, the PULL's own is open and no other is. -/
theorem otherMasterEndsAStrobeDuringPull : Obligations.OtherMasterEndsAStrobeDuringPull := by
  rintro s id b q v pin hc ho hseq hr rfl hpin hclk hv
  refine ⟨_, _, otherAccess_write hc ho hr id v, rfl, busWrite_pudclk_end hpin hclk hv, rfl, rfl, rfl, rfl, ?_, ?_⟩
  · intro hown
    have hopen : q ∈ openPins (.other id) s := by simp [hseq, hown]
    exact cellAfter_of_mem_openPins (x := writeCtx (.other id) s) hopen pin.strobe
  · intro st hown hstale hst hsettled hheld hcode hlate
    have hopen : q ∉ openPins (.other id) s := by simp [hseq, hstale, hown]
    rw [hst]
    exact cellAfter_of_settled_held hopen hsettled hheld hcode hlate

/-- Settles O45: a stale pin is open, and no other is while SEQ is Idle; the write drops it from the stale pins. -/
theorem otherMasterEndsAStaleStrobe : Obligations.OtherMasterEndsAStaleStrobe := by
  rintro s id b q v pin hc ho hr rfl hpin hclk hv
  refine ⟨_, _, otherAccess_write hc ho hr id v, busWrite_pudclk_end hpin hclk hv, rfl, rfl, ?_, ?_, ?_⟩
  · rw [busWrite_stale, List.mem_filter, strobeAsserted_writeReg, if_pos rfl, hv]
    simp
  · intro hstale
    exact cellAfter_of_mem_openPins (x := writeCtx (.other id) s) (mem_openPins_of_stale (id := id) hstale) pin.strobe
  · intro st hstale hidle hst hsettled hheld hcode hlate
    have hopen : q ∉ openPins (.other id) s := by simp [hstale, hidle]
    rw [hst]
    exact cellAfter_of_settled_held hopen hsettled hheld hcode hlate

end Sys2Proof.Machine

/-! # Proofs: what a running command does to the pins (20_memory R85, R94, R100; 42_pin_ops R191, R200, R203; 43_pull R225; 70_reset
R284) -/

namespace Sys2Proof.Machine

/-! ## A PULL in a bank with strobes left asserted -/

/-- A strobe that saw a PUD write is not ok, unless it ends in the tick after that write (20_memory R84, R85). -/
theorem strobeOk_strobeSeesPud {c : Config} {x : WriteCtx} {t : Nat} (hx : x.tick ≠ t + 1) (st : Strobe) :
    strobeOk x (strobeSeesPud c t st) = false := by
  unfold strobeSeesPud
  split
  · simp [strobeOk]
  · simp [strobeOk, hx]

/-- A strobe that saw two PUD writes is not ok (20_memory R84, R85). -/
theorem strobeOk_strobeSeesPud_twice (c : Config) (x : WriteCtx) (t t' : Nat) (st : Strobe) :
    strobeOk x (strobeSeesPud c t' (strobeSeesPud c t st)) = false := by
  simp only [strobeSeesPud]
  split <;> split <;> simp [strobeOk]

section

variable {c : Config} {x : WriteCtx} {b q : Nat} {v : Word} {per : Periph} {pin : Pin} {st : Strobe}

theorem writeReg_pud_asserted (hpin : per.pins[q]? = some pin) (hclk : pin.clk = true) (hst : pin.strobe = some st) :
    (writeReg c x .pud v per).pins[q]? = some { pin with strobe := some (strobeSeesPud c x.tick st) } := by
  rw [writeReg_pins_getElem?, hpin, Option.map_some, writePin_pud, if_pos hclk, hst, Option.map_some]

theorem writeReg_pud_notAsserted (hpin : per.pins[q]? = some pin) (hclk : pin.clk = false) :
    (writeReg c x .pud v per).pins[q]? = some pin := by
  simp [hpin, writePin, hclk]

theorem writeReg_pudclk_same (hpin : per.pins[q]? = some pin) (hv : v.getLsbD (q % 32) = pin.clk) :
    (writeReg c x (.pudclk b) v per).pins[q]? = some pin := by
  rw [writeReg_pins_getElem?, hpin, Option.map_some, writePin_pudclk_same hv]

theorem writeReg_pudclk_end_of_not_ok (hpin : per.pins[q]? = some pin) (hq : q / 32 = b) (hclk : pin.clk = true)
    (hv : v.getLsbD (q % 32) = false) (hst : pin.strobe = some st) (hok : strobeOk x st = false) :
    (writeReg c x (.pudclk b) v per).pins[q]?
      = some { pin with clk := false, strobe := none, pcell := Config.freePull x.draw q } := by
  rw [writeReg_pins_getElem?, hpin, Option.map_some, writePin_pudclk_end hq hclk hv, hst,
    cellAfter_of_not_ok (by simp [hok])]

end

/-- A strobe that a PULL of the same bank found asserted: the one of the PULL's own pin sees both PUD writes and ends in step 5b,
any other sees the first and ends in step 3, T_SETTLE ticks later (43_pull R215, 70_reset R284). -/
theorem pullPeriph_asserted_pcell {c : Config} {p q : Nat} {d : BitVec 2} {τ D : Nat} {last : Option Nat} {per : Periph}
    {pin pin' : Pin} {st : Strobe} (hbank : q / 32 = p / 32) (hpin : per.pins[q]? = some pin) (hclk : pin.clk = true)
    (hst : pin.strobe = some st) (hpin' : (pullPeriph c p d τ D last per).pins[q]? = some pin') :
    pin'.pcell = Config.freePull (D + if q = p then 3 else 1) q := by
  have hT : 1 ≤ c.tSettle := by simp only [Config.tSettle, Config.tHwMin]; omega
  have hbit : (1#32 <<< (p % 32)).getLsbD (q % 32) = decide (q = p) := by
    rw [one_shiftLeft_getLsbD _ _ (Nat.mod_lt p (by decide))]
    exact decide_eq_decide.mpr (by omega)
  have hzero : (0 : Word).getLsbD (q % 32) = false := BitVec.getLsbD_zero
  have h1 := writeReg_pud_asserted (c := c) (x := ⟨τ, D, last, []⟩) (v := d.setWidth 32) hpin hclk hst
  by_cases hq : q = p
  · rw [decide_eq_true hq] at hbit
    have h3 := writeReg_pudclk_same (c := c) (x := ⟨τ + c.tSettle + 1, D + 1, some τ, []⟩) (b := p / 32) h1
      (hbit.trans hclk.symm)
    have h5a := writeReg_pud_asserted (c := c) (x := ⟨τ + 2 * c.tSettle + 2, D + 2, none, []⟩) (v := 0) h3 hclk rfl
    have h5b := writeReg_pudclk_end_of_not_ok (c := c)
      (x := ⟨τ + 2 * c.tSettle + 3, D + 3, some (τ + 2 * c.tSettle + 2), []⟩) h5a hbank hclk hzero rfl
      (strobeOk_strobeSeesPud_twice ..)
    cases h5b.symm.trans hpin'
    rw [if_pos hq]
  · rw [decide_eq_false hq] at hbit
    have hlate : τ + c.tSettle + 1 ≠ τ + 1 := by omega
    have h3 := writeReg_pudclk_end_of_not_ok (c := c) (x := ⟨τ + c.tSettle + 1, D + 1, some τ, []⟩) h1 hbank hclk hbit rfl
      (strobeOk_strobeSeesPud hlate st)
    have h5a := writeReg_pud_notAsserted (c := c) (x := ⟨τ + 2 * c.tSettle + 2, D + 2, none, []⟩) (v := 0) h3 rfl
    have h5b := writeReg_pudclk_same (c := c) (x := ⟨τ + 2 * c.tSettle + 3, D + 3, some (τ + 2 * c.tSettle + 2), []⟩)
      (b := p / 32) h5a hzero
    cases h5b.symm.trans hpin'
    rw [if_neg hq]

/-- Settles O29: the writes of the PULL find the strobe asserted. -/
theorem staleStrobeIsNotRecovered : Obligations.StaleStrobeIsNotRecovered := by
  intro s p d hready hmap hp hd hok hquiet
  obtain ⟨t, u, hexec, hruns, _, _, _, hperiph, _⟩ := pull_run (n := 0) hready hmap hp hd hquiet
  refine ⟨t, u, hexec, hruns, fun q pin pin' hpin hpin' hclk hbank => ?_⟩
  obtain ⟨hstrobe, _⟩ := hok pin (List.mem_of_getElem? hpin)
  obtain ⟨st, hst⟩ := Option.isSome_iff_exists.mp (hstrobe.symm.trans hclk)
  rw [hperiph] at hpin'
  exact pullPeriph_asserted_pcell hbank hpin hclk hst hpin'

/-! ## FSEL's write -/

/-- The last micro-operation of a running command is the last of its body (10_state R30). -/
theorem RunningOk.op_of_last {c : Config} {ctl : Controller} {m : MicroOp} (h : RunningOk c ctl)
    (hlast : ctl.uidx + 1 = ctl.prog.length) (hm : (bodyOf c ctl.cur).getLast? = some m) : ctl.prog[ctl.uidx]? = some m := by
  obtain ⟨pre, _, hprog, _⟩ := h
  have hend : ctl.prog.getLast? = some m := by rw [hprog, List.getLast?_append, hm, Option.some_or]
  rwa [List.getLast?_eq_getElem?, ← hlast, Nat.add_sub_cancel] at hend

theorem RunningOk.curOk {c : Config} {ctl : Controller} (h : RunningOk c ctl) : CurOk c ctl.cur := by
  obtain ⟨_, _, _, hcur, _⟩ := h
  exact hcur

/-- A running command that stands at a memory operation is past its Map (10_state R30). -/
theorem Invariant.mapped_of_op {s : State} {m : MicroOp} (h : Invariant s) (hb : s.ctl.status.busy = true)
    (hm : s.ctl.prog[s.ctl.uidx]? = some m) (hmap : m ≠ .map) : Mapped s :=
  h.mapped (((h.running hb).mapped_iff hm).mpr hmap)

theorem bodyOf_fsel {c : Config} {cur : Cur} (h : cur.op = .fsel) :
    bodyOf c cur = [.memRead (.fsel (cur.pin / 10)),
      .memWrite (.fsel (cur.pin / 10)) (.mergeTmp (cur.pin % 10 * 3)) none] := by
  simp [bodyOf, h, bodyFsel, decodePin]

/-- Settles O41: FSEL's last micro-operation writes TMP with the field of its pin merged in. -/
theorem fselWriteLosesOtherUpdates : Obligations.FselWriteLosesOtherUpdates := by
  intro s hinv hb hop hlast
  have hrun := hinv.running hb
  have hm := hrun.op_of_last hlast (by rw [bodyOf_fsel hop]; rfl)
  have hr : Reg.fsel (s.ctl.cur.pin / 10) ∈ allRegs s.cfg :=
    body_regs hrun.curOk (by rw [bodyOf_fsel hop]; exact List.mem_cons_self) (.inl rfl)
  refine ⟨_, microStep_write hm hinv.config (hinv.mapped_of_op hb hm nofun) hr, fun q pin hpin => ?_⟩
  simp only [advance_outside, onStatus_outside, busWrite_fields, writeReg_pins_getElem?, hpin, Option.map_some, writePin_fsel,
    writeValue]
  by_cases hbank : q / 10 = s.ctl.cur.pin / 10
  · rw [if_pos hbank, if_pos hbank, Nat.mul_comm, mergeField_extract _ _ _ _ hbank]
  · rw [if_neg hbank, if_neg hbank]

/-! ## Which command may change what of a pin -/

/-- What a change of a pin says about the command that made it. -/
structure OnlyByCommand (cur : Cur) (q : Nat) (pin pin' : Pin) : Prop where
  latch : pin'.latch ≠ pin.latch → (cur.op = .set ∨ cur.op = .clr) ∧ cur.pin = q
  func : pin'.func ≠ pin.func → cur.op = .fsel ∧ cur.pin / 10 = q / 10
  clkOrCell : pin'.clk ≠ pin.clk ∨ pin'.pcell ≠ pin.pcell → cur.op = .pull ∧ cur.pin / 32 = q / 32
  strobe : pin'.strobe ≠ pin.strobe → cur.op = .pull

/-- The writes of each command: one latch bit, the bank of the pin's function, PUD and the bank of the pin's clock bit
(42_pin_ops R190, R193, R200; 43_pull R215). -/
theorem memWrite_of_mem_bodyOf {c : Config} {cur : Cur} {r : Reg} {wv : WriteValue} {sq : Option Seq}
    (h : .memWrite r wv sq ∈ bodyOf c cur) :
    (cur.op = .set ∧ r = .set (cur.pin / 32) ∧ wv = .imm (1#32 <<< (cur.pin % 32)))
    ∨ (cur.op = .clr ∧ r = .clr (cur.pin / 32) ∧ wv = .imm (1#32 <<< (cur.pin % 32)))
    ∨ (cur.op = .fsel ∧ r = .fsel (cur.pin / 10))
    ∨ (cur.op = .pull ∧ (r = .pud ∨ r = .pudclk (cur.pin / 32))) := by
  obtain ⟨op, pin, arg⟩ := cur
  cases op <;> simp [bodyOf, bodyInit, bodySet, bodyClr, bodyGet, bodyFsel, bodyPull, decodePin] at h ⊢
  case set => exact ⟨h.1, h.2.1⟩
  case clr => exact ⟨h.1, h.2.1⟩
  case fsel => exact h.1
  case pull => tauto

/-- A write of a command changes of a pin what the command may change (42_pin_ops R191, R194, R200; 43_pull R225). -/
theorem onlyByCommand_writePin {c : Config} {ctl : Controller} {r : Reg} {wv : WriteValue} {sq : Option Seq}
    (h : .memWrite r wv sq ∈ bodyOf c ctl.cur) (x : WriteCtx) (per : Periph) (q : Nat) (pin : Pin) :
    OnlyByCommand ctl.cur q pin (writePin c x r (writeValue ctl wv) per q pin) := by
  rcases memWrite_of_mem_bodyOf h with ⟨hop, rfl, rfl⟩ | ⟨hop, rfl, rfl⟩ | ⟨hop, rfl⟩ | ⟨hop, rfl | rfl⟩
  · rw [writeValue, writePin_set_one]
    by_cases hq : q = ctl.cur.pin <;> constructor <;> simp [hop, hq]
  · rw [writeValue, writePin_clr_one]
    by_cases hq : q = ctl.cur.pin <;> constructor <;> simp [hop, hq]
  · rw [writePin_fsel]
    by_cases hq : q / 10 = ctl.cur.pin / 10 <;> constructor <;> simp [hop, hq]
  · rw [writePin_pud]
    constructor <;> simp [hop]
  · by_cases hq : q / 32 = ctl.cur.pin / 32
    · obtain ⟨_, hfunc, hlatch⟩ :=
        writePin_pudclk_fields (c := c) (x := x) (v := writeValue ctl wv) (per := per) (pin := pin) hq
      constructor <;> simp [hop, hq, hfunc, hlatch]
    · rw [writePin_pudclk_otherBank hq]
      constructor <;> simp

/-- PUDCODE changes under a PULL's writes only (20_memory R82; 43_pull R215). -/
theorem op_eq_pull_of_pudcode_ne {c : Config} {cur : Cur} {r : Reg} {wv : WriteValue} {sq : Option Seq}
    (h : .memWrite r wv sq ∈ bodyOf c cur) {x : WriteCtx} {v : Word} {per : Periph}
    (hcode : (writeReg c x r v per).pudcode ≠ per.pudcode) : cur.op = .pull := by
  have hr : r = .pud := by
    by_contra hr
    exact hcode (writeReg_pudcode c x r v per hr)
  subst hr
  simpa using memWrite_of_mem_bodyOf h

/-- The controller changes the peripheral by a write of the running command's body only (20_memory R94, 10_state R32). -/
theorem Invariant.controllerAct_periph {s t : State} (h : Invariant s) (ht : Machine.controllerAct s = .next t) :
    t.periph = s.periph
    ∨ (s.ctl.status.busy = true ∧ ∃ r wv sq, .memWrite r wv sq ∈ bodyOf s.cfg s.ctl.cur
        ∧ t.periph = writeReg s.cfg (writeCtx .controller s) r (writeValue s.ctl wv) s.periph) := by
  rcases controllerAct_cases ht with ⟨_, rfl⟩ | ⟨_, hb, hmicro⟩ | ⟨_, _, _, rfl⟩ | ⟨w, rest, i, _, _, _, _, hexec⟩
    | ⟨w, rest, e, _, _, _, _, hillegal⟩
  · exact .inl rfl
  · rcases microStep_cases hmicro with ⟨_, rfl⟩ | ⟨r, a, r', _, _, rfl⟩ | ⟨r, wv, sq, a, r', hm, hfound, rfl⟩ | ⟨n, _, rfl⟩
    · exact .inl (by simp)
    · exact .inl (by simp)
    · obtain ⟨pre, hpre, hprog, hcur, _⟩ := h.running hb
      have hmem : .memWrite r wv sq ∈ bodyOf s.cfg s.ctl.cur := by
        have hmem := List.mem_of_getElem? hm
        rcases hpre with rfl | rfl <;> simpa [hprog] using hmem
      have hreg := body_regs hcur hmem (.inr ⟨wv, sq, rfl⟩)
      rw [ctlTarget_mapped h.config (h.mapped_of_op hb hm nofun) hreg] at hfound
      cases hfound
      exact .inr ⟨hb, r, wv, sq, hmem, by simp⟩
    · exact .inl (by simp)
  · exact .inl rfl
  · obtain ⟨_, hperiph, _⟩ := exec_outside hexec
    exact .inl hperiph
  · obtain ⟨_, hperiph, _⟩ := accept_outside hillegal
    exact .inl hperiph

/-- Settles O56: with no other master the controller alone changes the peripheral, by a write of the running command. -/
theorem whoMayChangeAPin : Obligations.WhoMayChangeAPin := by
  intro s t q pin pin' hinv hbefore hafter ht hpin hpin'
  rw [step_noOthers hinv.config hbefore hafter] at ht
  obtain ⟨u, hact, hu⟩ := andThen_eq_next ht
  cases hu
  have hinv0 : Invariant (hostArrivals s) := hinv.congr rfl rfl rfl rfl rfl
  rw [(nextTick_fields u).2.2.1] at hpin' ⊢
  rcases hinv0.controllerAct_periph hact with hsame | ⟨hb, r, wv, sq, hmem, hwrite⟩
  · have hsame : u.periph = s.periph := hsame
    have hpins : pin' = pin := by
      rw [hsame] at hpin'
      exact Option.some.inj (hpin'.symm.trans hpin)
    simp [hpins, hsame]
  · have hb : s.ctl.status.busy = true := hb
    rw [hwrite] at hpin' ⊢
    rw [writeReg_pins_getElem?, show (hostArrivals s).periph.pins[q]? = some pin from hpin] at hpin'
    cases hpin'
    obtain ⟨hlatch, hfunc, hclk, hstrobe⟩ := onlyByCommand_writePin hmem (writeCtx .controller (hostArrivals s)) s.periph q pin
    refine ⟨fun hne => ⟨hb, hlatch hne⟩, fun hne => ⟨hb, hfunc hne⟩, fun hne => ⟨hb, hclk hne⟩, ?_⟩
    rintro (hne | hne)
    · exact ⟨hb, op_eq_pull_of_pudcode_ne hmem hne⟩
    · exact ⟨hb, hstrobe hne⟩

end Sys2Proof.Machine

/-! # Proofs: decoding, encoding and the assembler (30_encoding)

A word decodes to a command exactly when its five fields are the command's; `decode_eq_ok_iff` says so once for all six rows. -/

namespace Sys2Proof

/-! ## The fields of a command's word -/

/-- The OP of a command's row (R126). -/
def Instr.opcode : Instr → BitVec 4
  | .init => 0x1#4
  | .set _ => 0x2#4
  | .clr _ => 0x3#4
  | .get _ => 0x4#4
  | .fsel _ _ => 0x5#4
  | .pull _ _ => 0x6#4

/-- The ARG a command's word carries (R123 to R125). -/
def Instr.arg : Instr → BitVec 3
  | .fsel _ f => f
  | .pull _ d => 0#1 ++ d
  | _ => 0#3

/-- The number in the PIN field of a command's word, 0 for a command without a pin (R122). -/
def Instr.pinNumber (i : Instr) : Nat := i.pinOperand.getD 0

theorem encode_eq_packCommand (i : Instr) : encode i = packCommand i.opcode i.pinNumber i.arg := by
  cases i <;> rfl

theorem wellFormed_iff_pinNumber (i : Instr) : WellFormed i = true ↔ i.pinNumber < 256 := by
  rw [wellFormed_iff]
  cases i <;> simp [Instr.pinNumber, Instr.pinOperand]

/-- The direction is the low two bits of an ARG whose bit 2 is 0 (R124). -/
theorem extract_eq_iff_eq_append {a : BitVec 3} {d : BitVec 2} :
    a.getLsbD 2 = false ∧ a.extractLsb' 0 2 = d ↔ a = 0#1 ++ d := by
  constructor
  · rintro ⟨hhigh, rfl⟩
    exact (extract_zero_append hhigh).symm
  · rintro rfl
    exact ⟨zero_append_high d, zero_append_extract d⟩

/-! ## The decoder, row by row -/

/-- The decoder at each opcode of R126. -/
theorem decode_of_opField {w : Word} :
    (opField w = 1#4 → decode w = checked (reservedZero w && pinField w == 0 && argField w == 0) .init)
    ∧ (opField w = 2#4 → decode w = checked (reservedZero w && argField w == 0) (.set (pinField w).toNat))
    ∧ (opField w = 3#4 → decode w = checked (reservedZero w && argField w == 0) (.clr (pinField w).toNat))
    ∧ (opField w = 4#4 → decode w = checked (reservedZero w && argField w == 0) (.get (pinField w).toNat))
    ∧ (opField w = 5#4 → decode w = checked (reservedZero w) (.fsel (pinField w).toNat (argField w)))
    ∧ (opField w = 6#4 → decode w = checked (reservedZero w && !(argField w).getLsbD 2)
        (.pull (pinField w).toNat ((argField w).extractLsb' 0 2))) := by
  refine ⟨?_, ?_, ?_, ?_, ?_, ?_⟩ <;> intro h <;> rw [decode, h] <;> rfl

/-- The opcodes that are no row (R127). -/
def ReservedOp (op : BitVec 4) : Prop := op = 0#4 ∨ 7#4 ≤ op

theorem opcode_cases (op : BitVec 4) :
    ReservedOp op ∨ op = 1#4 ∨ op = 2#4 ∨ op = 3#4 ∨ op = 4#4 ∨ op = 5#4 ∨ op = 6#4 := by
  unfold ReservedOp
  revert op
  decide

theorem not_reservedOp_opcode (i : Instr) : ¬ ReservedOp i.opcode := by
  unfold ReservedOp
  cases i <;> simp [Instr.opcode]

theorem decode_reservedOp {w : Word} (h : ReservedOp (opField w)) : decode w = .error .badOpcode := by
  unfold decode
  generalize opField w = op at h
  unfold ReservedOp at h
  split
  case h_7 => rfl
  all_goals bv_omega

/-- A word decodes to a command exactly when its fields are the command's (R126 to R129). -/
theorem decode_eq_ok_iff {w : Word} {i : Instr} :
    decode w = .ok i ↔
      opField w = i.opcode ∧ reservedZero w = true ∧ argField w = i.arg ∧ (pinField w).toNat = i.pinNumber := by
  rcases opcode_cases (opField w) with h | h | h | h | h | h | h
  · have hne : opField w ≠ i.opcode := fun heq => not_reservedOp_opcode i (heq ▸ h)
    simp [decode_reservedOp h, hne]
  all_goals
    simp only [decode_of_opField, h, checked_eq_ok]
    cases i <;> simp [Instr.opcode, Instr.pinNumber, Instr.arg, Instr.pinOperand, ← extract_eq_iff_eq_append,
      ← BitVec.toNat_inj (y := 0#8), and_assoc, and_left_comm, and_comm]

/-! ## Decoding and encoding are inverse -/

/-- Settles O5: eleven closed words. -/
theorem encodingExamples : Obligations.EncodingExamples := by
  unfold Obligations.EncodingExamples
  decide

/-- Settles O1: the fields of a command's word are the command's, and a pin below 256 fits its field. -/
theorem decodeOfEncode : Obligations.DecodeOfEncode := by
  intro i hwf
  have hpin := (wellFormed_iff_pinNumber i).mp hwf
  obtain ⟨hop, hrsv0, hpinField, harg, hrsv1⟩ := packCommand_fields i.opcode i.pinNumber i.arg
  rw [decode_eq_ok_iff, encode_eq_packCommand, reservedZero, hop, hrsv0, hpinField, harg, hrsv1, BitVec.toNat_ofNat,
    Nat.mod_eq_of_lt hpin]
  exact ⟨rfl, rfl, rfl, rfl⟩

/-- Settles O2: a word is packed from its fields, and the PIN field holds a number below 256. -/
theorem decodedWordIsAnEncoding : Obligations.DecodedWordIsAnEncoding := by
  intro w i h
  obtain ⟨hop, hrsv, harg, hpin⟩ := decode_eq_ok_iff.mp h
  constructor
  · rw [wellFormed_iff_pinNumber, ← hpin]
    exact (pinField w).isLt
  · rw [encode_eq_packCommand, ← hop, ← harg, ← hpin, packCommand_of_fields hrsv]

/-! ## Rows of the table of bit patterns (R126) -/

/-- Bits under ones of the mask are the match's. -/
theorem extract_of_and_eq {w mask value : Word} {start len : Nat} (h : w &&& mask = value)
    (hmask : mask.extractLsb' start len = BitVec.allOnes len) : w.extractLsb' start len = value.extractLsb' start len := by
  rw [← h, BitVec.extractLsb'_and, hmask, BitVec.and_allOnes]

/-- A row's mask covers OP, RSV0 and RSV1; its match has the row's opcode, and zeros there and in ARG (R126, R128). -/
theorem row_fields (i : Instr) :
    (opField (rowOf i).2 = BitVec.allOnes 4 ∧ rsv0Field (rowOf i).2 = BitVec.allOnes 4
      ∧ rsv1Field (rowOf i).2 = BitVec.allOnes 13)
    ∧ opField (rowOf i).1 = i.opcode ∧ rsv0Field (rowOf i).1 = 0 ∧ rsv1Field (rowOf i).1 = 0 ∧ argField (rowOf i).1 = 0 := by
  cases i <;> simp only [rowOf, Instr.opcode] <;> decide

/-- A word that matches a row has the row's opcode, zero reserved fields, and a zero ARG if the mask covers it (R126, R128). -/
theorem fields_of_rowMatch {w : Word} {i : Instr} (h : w &&& (rowOf i).2 = (rowOf i).1) :
    opField w = i.opcode ∧ reservedZero w = true
    ∧ (argField (rowOf i).2 = BitVec.allOnes 3 → argField w = 0) := by
  obtain ⟨⟨hop, hrsv0, hrsv1⟩, hop', hrsv0', hrsv1', harg'⟩ := row_fields i
  have h0 : rsv0Field w = 0 := (extract_of_and_eq h hrsv0).trans hrsv0'
  have h1 : rsv1Field w = 0 := (extract_of_and_eq h hrsv1).trans hrsv1'
  exact ⟨(extract_of_and_eq h hop).trans hop', by simp [reservedZero, h0, h1],
    fun harg => (extract_of_and_eq h harg).trans harg'⟩

/-- The mask of SET, CLR and GET covers ARG (R126). -/
theorem argField_pinMask : argField 0xFFFF00FF#32 = BitVec.allOnes 3 := by decide

/-- A word that matches a row decodes to a command of the row: what the mask leaves open are its operands (R126). -/
theorem exists_decode_of_rowMatch {w : Word} {i : Instr} (h : w &&& (rowOf i).2 = (rowOf i).1) :
    ∃ j, decode w = .ok j ∧ rowOf j = rowOf i := by
  obtain ⟨hop, hrsv, harg⟩ := fields_of_rowMatch h
  cases i with
  | init =>
    have hpin : pinField w = 0 := extract_of_and_eq h (by decide)
    exact ⟨.init, decode_eq_ok_iff.mpr ⟨hop, hrsv, harg rfl, congrArg BitVec.toNat hpin⟩, rfl⟩
  | set =>
    exact ⟨.set (pinField w).toNat, decode_eq_ok_iff.mpr ⟨hop, hrsv, harg argField_pinMask, rfl⟩, rfl⟩
  | clr =>
    exact ⟨.clr (pinField w).toNat, decode_eq_ok_iff.mpr ⟨hop, hrsv, harg argField_pinMask, rfl⟩, rfl⟩
  | get =>
    exact ⟨.get (pinField w).toNat, decode_eq_ok_iff.mpr ⟨hop, hrsv, harg argField_pinMask, rfl⟩, rfl⟩
  | fsel =>
    exact ⟨.fsel (pinField w).toNat (argField w), decode_eq_ok_iff.mpr ⟨hop, hrsv, rfl, rfl⟩, rfl⟩
  | pull =>
    have hhigh : (argField w).getLsbD 2 = false := by
      have hbit : w.getLsbD 18 = false := by simpa [rowOf] using congrArg (BitVec.getLsbD · 18) h
      simpa [argField] using hbit
    exact ⟨.pull (pinField w).toNat ((argField w).extractLsb' 0 2),
      decode_eq_ok_iff.mpr ⟨hop, hrsv, (extract_zero_append hhigh).symm, rfl⟩, rfl⟩

/-- The word of a well-formed command matches its row (R126). -/
theorem rowMatch_encode {i : Instr} (h : WellFormed i = true) : encode i &&& (rowOf i).2 = (rowOf i).1 :=
  match i with
  | .init => (Laws.RowOfWord.init h).1
  | .set pin => (Laws.RowOfWord.set pin h).1
  | .clr pin => (Laws.RowOfWord.clr pin h).1
  | .get pin => (Laws.RowOfWord.get pin h).1
  | .fsel pin f => (Laws.RowOfWord.fsel pin f h).1
  | .pull pin d => (Laws.RowOfWord.pull pin d h).1

/-- Settles O3: the fields outside the mask are the operands, and a word that decodes is its command's encoding. -/
theorem rowMatchDecidesCommand : Obligations.RowMatchDecidesCommand := by
  refine fun w i => ⟨exists_decode_of_rowMatch, ?_⟩
  rintro ⟨j, hdecode, hrow⟩
  obtain ⟨hwf, rfl⟩ := decodedWordIsAnEncoding w j hdecode
  rw [← hrow]
  exact rowMatch_encode hwf

/-! ## Illegal words -/

/-- ARG[2] is bit 18 of the word (R121). -/
theorem argField_getLsbD_two (w : Word) : (argField w).getLsbD 2 = w.getLsbD 18 := by
  simp [argField]

theorem decode_eq_badOpcode_iff {w : Word} : decode w = .error .badOpcode ↔ ReservedOp (opField w) := by
  refine ⟨fun hd => ?_, decode_reservedOp⟩
  rcases opcode_cases (opField w) with h | h | h | h | h | h | h
  · exact h
  all_goals simp [decode_of_opField, h, checked_eq_error] at hd

/-- A word with a row's opcode is BAD_ENCODING exactly when a field that is no operand of the row is not zero (R128). -/
theorem decode_eq_badEncoding_iff {w : Word} :
    decode w = .error .badEncoding ↔
      (1#4 ≤ opField w ∧ opField w ≤ 6#4)
      ∧ (rsv1Field w ≠ 0 ∨ rsv0Field w ≠ 0
          ∨ (opField w = 1#4 ∧ (pinField w ≠ 0 ∨ argField w ≠ 0))
          ∨ ((opField w = 2#4 ∨ opField w = 3#4 ∨ opField w = 4#4) ∧ argField w ≠ 0)
          ∨ (opField w = 6#4 ∧ (argField w).getLsbD 2 = true)) := by
  rcases opcode_cases (opField w) with h | h | h | h | h | h | h
  · have hrange : ¬ (1#4 ≤ opField w ∧ opField w ≤ 6#4) := by
      unfold ReservedOp at h
      bv_omega
    simp [decode_reservedOp h, hrange]
  all_goals
    simp [decode_of_opField, h, checked_eq_error, reservedZero, imp_iff_not_or, or_assoc]

/-- Settles O4: reserved opcodes are one error of the decoder, nonzero must-be-zero fields the other. -/
theorem illegalWords : Obligations.IllegalWords := by
  intro w
  refine ⟨decode_eq_badOpcode_iff, ?_⟩
  rw [← argField_getLsbD_two]
  exact decode_eq_badEncoding_iff

end Sys2Proof

namespace Sys2Proof.Machine

/-! ## The assembler's pseudo-instructions (R131, R132) -/

/-- A line of a mnemonic and a pin is looked up in the table of mnemonics (R131, R132). -/
theorem parseTokens_pin {c : Config} {m p : List Char} {pin : Nat} (h : parsePin p = some pin) :
    parseTokens c [m, p] = lookupName (m.map Char.toUpper) (pinMnemonics c pin) := by
  simp only [parseTokens, h]

/-- Settles O60: each mnemonic is looked up in the table of R132. -/
theorem pseudoInstructions : Obligations.PseudoInstructions := by
  intro c p pin h
  simp only [parseTokens_pin h]
  exact ⟨rfl, rfl, rfl, rfl, rfl, rfl, rfl⟩

end Sys2Proof.Machine

/-! # Proofs: the Map tick and the mapping (40_window_init R150 to R155) -/

namespace Sys2Proof.Machine

/-! ## The Map tick -/

theorem mapStep_grant (s : State) : (mapStep s).grant = some (Config.mapOk s.draws) := by
  unfold mapStep
  cases Config.mapOk s.draws <;> simp [mapSuccess, mapFailure]

/-- A granted Map that is the last micro-operation completes its command (40_window_init R150, R152). -/
theorem mapStep_ctl_of_last {s : State} (hok : Config.mapOk s.draws = true) (hlast : s.ctl.uidx + 1 = s.ctl.prog.length) :
    (mapStep s).ctl = { s.ctl with
      prog := [], uidx := 0, wbase := s.cfg.periphBase, tables := mapTables s.cfg s.cfg.periphBase
      status := { s.ctl.status with mapped := true, busy := false } } := by
  rw [show mapStep s = advance (mapSuccess { s with draws := s.draws + 1 }) from if_pos hok]
  exact advance_last _ hlast

/-- A granted Map before others moves uidx by one (40_window_init R152, R154). -/
theorem mapStep_ctl_of_notLast {s : State} (hok : Config.mapOk s.draws = true) (hlast : s.ctl.uidx + 1 ≠ s.ctl.prog.length) :
    (mapStep s).ctl = { s.ctl with
      uidx := s.ctl.uidx + 1, wbase := s.cfg.periphBase, tables := mapTables s.cfg s.cfg.periphBase
      status := { s.ctl.status with mapped := true } } := by
  rw [show mapStep s = advance (mapSuccess { s with draws := s.draws + 1 }) from if_pos hok]
  exact advance_notLast _ hlast

/-- A refused Map ends its command with FATAL (40_window_init R153). -/
theorem mapStep_ctl_of_refused {s : State} (hok : Config.mapOk s.draws = false) :
    (mapStep s).ctl = { s.ctl with prog := [], uidx := 0, status := recordMapFail s.ctl.status } := by
  rw [show mapStep s = mapFailure { s with draws := s.draws + 1 } from if_neg (by simp [hok])]
  rfl

/-- A command taken while the window is not mapped stands at its Map when it has started (10_state R30, 40_window_init R154). -/
theorem startCommand_ctl_of_unmapped {i : Instr} {s : State} (hm : s.ctl.status.mapped = false) :
    (startCommand (curOf i) (bodyOf s.cfg (curOf i)) (latchCommand (encode i) s)).ctl
      = { s.ctl with
          cmd := encode i, cur := curOf i, prog := .map :: bodyOf s.cfg (curOf i), uidx := 0, waitcnt := 0
          status := { s.ctl.status with resultValid := false, busy := true } } := by
  simp [mapFirst, hm, setBusy, clearResult]

/-- An undisturbed busy tick at a Map (10_state R32). -/
theorem step_map {s : State} (hc : configOk s.cfg = true) (hu : Undisturbed 1 s) (hb : s.ctl.status.busy = true)
    (hp : s.ctl.prog[s.ctl.uidx]? = some .map) : step s = .next (nextTick (mapStep (hostArrivals s))) :=
  step_micro hc hu hb (microStep_map (s := hostArrivals s) hp)

/-- Settles O20: the command starts at its Map, and the tick after is the Map step; a granted Map is the last micro-operation of
INIT only. -/
theorem mapAnswer : Obligations.MapAnswer := by
  intro i s hready hpass hm hquiet
  have hctl := startCommand_ctl_of_unmapped (i := i) hm
  have hexec := exec_pass hready hpass
  generalize startCommand (curOf i) (bodyOf s.cfg (curOf i)) (latchCommand (encode i) s) = v at hctl hexec
  obtain ⟨hcfg, hperiph, _, _, hschedule, _, hdraws, htrace⟩ := exec_outside hexec
  have hstale := exec_stale hexec
  have hstep : step (nextTick v) = .next (nextTick (mapStep (hostArrivals (nextTick v)))) :=
    step_map (by simpa [hcfg] using hready.1) (hquiet.tail (by simp [hschedule])) (by simp [hctl]) (by simp [hctl])
  refine ⟨v, _, hexec, Runs.one hstep, by simp [hperiph], by simp [htrace], by simp [hstale], ?_, ?_⟩
  · simp [mapStep_grant, hdraws]
  · have hdraws' : (hostArrivals (nextTick v)).draws = s.draws := hdraws
    have hlast : (hostArrivals (nextTick v)).ctl.uidx + 1 = (hostArrivals (nextTick v)).ctl.prog.length ↔ i = .init := by
      simp [hctl, bodyOf_eq_nil_iff]
    rw [← hdraws', (nextTick_fields _).2.1]
    cases hok : Config.mapOk (hostArrivals (nextTick v)).draws
    · simp [mapStep_ctl_of_refused hok, hctl, recordMapFail]
    · by_cases hi : i = .init
      · simp [mapStep_ctl_of_last hok (hlast.mpr hi), hctl, hcfg, hi]
      · simp [mapStep_ctl_of_notLast hok (mt hlast.mp hi), hctl, hcfg, hi]

theorem Runs.cfg {n : Nat} {s u : State} (h : Runs n s u) : u.cfg = s.cfg := by
  induction n generalizing s with
  | zero => cases h; rfl
  | succ n ih =>
    obtain ⟨t, hstep, hruns⟩ := h.uncons
    exact (ih hruns).trans (step_cfg hstep)

/-- Settles O21: a mapped window leaves nothing to do after acceptance; otherwise the Map tick completes INIT. -/
theorem initMapsTheWindow : Obligations.InitMapsTheWindow := by
  rintro s hready (⟨hm, hwbase, htables⟩ | ⟨hm, hok⟩) hquiet
  · have hexec := exec_pass (i := .init) hready trivial
    refine ⟨_, _, hexec, by simp only [mapTicks, hm]; exact Runs.zero _, ?_, by simp, by simp, by simp, by simp [grantAfter, hm],
      by simp⟩
    simp [doneCtl, bodyOf, curOf, bodyInit, mapFirst, hm, hwbase, htables, setBusy, clearResult]
  · obtain ⟨t, u, hexec, hruns, hperiph, htrace, hstale, hgrant, hctl⟩ := mapAnswer .init s hready trivial hm hquiet
    have hcfg : u.cfg = s.cfg := hruns.cfg.trans (exec_outside hexec).1
    refine ⟨t, u, hexec, by simpa [mapTicks, hm] using hruns, ?_, hperiph, htrace, hcfg, ?_, hstale⟩
    · simp [hctl, hok, doneCtl]
    · simp [hgrant, hok, grantAfter, hm]

/-! ## What the mapping is, and what keeps it -/

/-- The mapping: MAPPED, WBASE, the bank tables and the grant (40_window_init R152). -/
def mapping (s : State) : Bool × Nat × Tables × Option Bool :=
  (s.ctl.status.mapped, s.ctl.wbase, s.ctl.tables, s.grant)

@[simp] theorem advance_mapping (s : State) : mapping (advance s) = mapping s := by
  unfold advance
  dsimp only
  split <;> rfl

@[simp] theorem getResult_mapping (s : State) : mapping (getResult s) = mapping s := by
  unfold getResult
  split <;> rfl

theorem waitStep_mapping (n : Nat) (s : State) : mapping (waitStep n s) = mapping s := by
  unfold waitStep
  split
  · rw [advance_mapping]; rfl
  · rfl

/-- Acceptance leaves the mapping, whatever becomes of the word (10_state R31). -/
theorem accept_mapping {w : Word} {check : Option FaultCode} {cur : Cur} {body : List MicroOp} {s t : State}
    (h : accept w check cur body s = .next t) : mapping t = mapping s := by
  rcases accept_cases h with ⟨_, rfl⟩ | ⟨_, _, rfl⟩ | ⟨_, _, _, ⟨f, _, rfl⟩ | ⟨_, rfl⟩⟩ <;> rfl

/-- The Map alone changes the mapping (10_state R32). -/
theorem microStep_mapping {s t : State} (h : microStep s = .next t) (hmap : s.ctl.prog[s.ctl.uidx]? ≠ some .map) :
    mapping t = mapping s := by
  rcases microStep_cases h with ⟨hm, _⟩ | ⟨r, a, r', _, _, rfl⟩ | ⟨r, v, q, a, r', _, _, rfl⟩ | ⟨n, _, rfl⟩
  · exact absurd hm hmap
  · rw [advance_mapping, getResult_mapping]; rfl
  · rw [advance_mapping]; rfl
  · exact waitStep_mapping n s

theorem otherAccesses_mapping {as : List Access} {s t : State} (h : otherAccesses as s = .next t) : mapping t = mapping s := by
  obtain ⟨_, hctl, hgrant, _⟩ := otherAccesses_outside h
  simp only [mapping, hctl, hgrant]

/-- Once MAPPED = 1, the controller without reset keeps the mapping: no running command stands at a Map (40_window_init R155). -/
theorem Invariant.controllerAct_mapping {s t : State} (h : Invariant s) (hm : s.ctl.status.mapped = true)
    (hr : (tickInput s).reset = false) (ht : Machine.controllerAct s = .next t) : mapping t = mapping s := by
  rcases controllerAct_cases ht with ⟨hr', _⟩ | ⟨_, hb, hmicro⟩ | ⟨_, _, _, rfl⟩ | ⟨w, rest, i, _, _, _, _, hexec⟩
    | ⟨w, rest, e, _, _, _, _, hillegal⟩
  · exact absurd hr' (by simp [hr])
  · exact microStep_mapping hmicro fun hmap => ((h.running hb).mapped_iff hmap).mp hm rfl
  · rfl
  · rw [exec_eq_accept_operandFault] at hexec
    exact accept_mapping (s := setPort rest s) hexec
  · exact accept_mapping (s := setPort rest s) hillegal

/-- Settles O53: other masters never change the mapping, nor does the controller of a mapped window. -/
theorem mappingNeverChanges : Obligations.MappingNeverChanges := by
  intro s t hinv hm hreset ht
  obtain ⟨_, s1, s2, s3, hbefore, hact, hafter, rfl, hschedule, _⟩ := step_parts ht
  have hinv0 : Invariant (hostArrivals s) := hinv.congr rfl rfl rfl rfl rfl
  have hm1 : s1.ctl.status.mapped = true := by rw [openTick_ctl hbefore]; exact hm
  have hr1 : (tickInput s1).reset = false := by simpa [tickInput, hschedule] using hreset
  have hsame : mapping s3 = mapping s :=
    calc mapping s3
      _ = mapping s2 := otherAccesses_mapping hafter
      _ = mapping s1 := (hinv0.otherAccesses hbefore).controllerAct_mapping hm1 hr1 hact
      _ = mapping s := otherAccesses_mapping (s := hostArrivals s) hbefore
  simpa [mapping, hm] using hsame

end Sys2Proof.Machine

/-! # Proofs: the register decoder, its masks and the bank tables (41_decoder R166 to R176) -/

namespace Sys2Proof.Machine

/-! ## The masks (R170) -/

theorem bitmask_getLsbD (pin i : Nat) : (bitmask pin).getLsbD i = decide (i = pin % 32) :=
  one_shiftLeft_getLsbD _ _ (Nat.mod_lt pin (by decide))

/-- The three bits of a field stay below bit 32, so the shift loses none of them (41_decoder R167, R170). -/
theorem fieldmask_getLsbD (pin i : Nat) :
    (fieldmask pin).getLsbD i = decide ((pin % 10) * 3 ≤ i ∧ i < (pin % 10) * 3 + 3) := by
  have hfits : (pin % 10) * 3 + 3 ≤ 32 := by omega
  rw [fieldmask, BitVec.getLsbD_shiftLeft, seven_getLsbD, Bool.eq_iff_iff]
  simp only [Bool.and_eq_true, Bool.not_eq_true', decide_eq_true_eq, decide_eq_false_iff_not]
  omega

/-- Settles O7: the pairs are decode's own cases, the masks are read bit by bit. -/
theorem registerDecoderFormulas : Obligations.RegisterDecoderFormulas := fun pin =>
  ⟨rfl, rfl, rfl, rfl, rfl, bitmask_getLsbD pin, fieldmask_getLsbD pin⟩

/-! ## No shared bit (R176) -/

/-- Words of which no bit is set in both have no common bit. -/
theorem and_eq_zero_of_disjoint {n : Nat} {v w : BitVec n} (h : ∀ i, v.getLsbD i = true → w.getLsbD i = false) :
    v &&& w = 0 := by
  apply BitVec.eq_of_getLsbD_eq
  intro i _
  rw [BitVec.getLsbD_and, BitVec.ofNat_eq_ofNat, BitVec.getLsbD_zero]
  cases hv : v.getLsbD i with
  | false => rfl
  | true => rw [h i hv]; rfl

/-- Settles O8: two pins of one bank differ in their position in it, so a bit of one mask is not a bit of the other. -/
theorem pinsNeverShareABit : Obligations.PinsNeverShareABit := by
  intro p q hne
  constructor
  · intro hbank
    have hpos : p % 32 ≠ q % 32 := by omega
    refine and_eq_zero_of_disjoint fun i hp => ?_
    simp only [bitmask_getLsbD, decide_eq_true_eq, decide_eq_false_iff_not] at hp ⊢
    omega
  · intro hbank
    have hpos : p % 10 ≠ q % 10 := by omega
    refine and_eq_zero_of_disjoint fun i hp => ?_
    simp only [fieldmask_getLsbD, decide_eq_true_eq, decide_eq_false_iff_not] at hp ⊢
    omega

/-! ## The bank tables (R172, R173) -/

/-- A valid pin's bank exists in every group (41_decoder R173). -/
theorem groupReg_decodePin_mem {c : Config} {pin : Nat} (hpin : pin < c.npins) (g : Group) :
    groupReg (decodePin pin g).1 g ∈ allRegs c := by
  have h32 := div32_lt_nbank hpin
  have h10 := div10_lt_nfsel hpin
  rw [mem_allRegs]
  cases g <;> simp [groupReg, decodePin, h32, h10]

/-- Settles O9: the pin's register is one of the configuration's, and each of these has its table entry inside the window. -/
theorem tableAddressesReachTheirRegisters : Obligations.TableAddressesReachTheirRegisters := by
  intro c pin g hc hpin
  have hmem := groupReg_decodePin_mem hpin g
  have hinside := (configOk_inside hc hmem).2
  exact ⟨_, tableAddr_mapTables hc hmem, rfl, physAddr_aligned hc hmem, Nat.le_add_right _ _,
    by rw [physAddr]; omega, regAt_physAddr hc hmem⟩

end Sys2Proof.Machine

/-! # Proofs: SET, CLR, GET and FSEL, run to their ends (42_pin_ops R190 to R202)

Each command is acceptance, the Map of a window not mapped yet, and the ticks of its body; a tick at a memory operation is said once
for reads and once for writes. -/

namespace Sys2Proof.Machine

/-! ## A tick at a memory operation -/

/-- What an undisturbed tick at a memory operation does beside its transaction. -/
structure TickFrame (s t : State) : Prop where
  cfg : t.cfg = s.cfg
  grant : t.grant = s.grant
  tick : t.tick = s.tick + 1
  draws : t.draws = s.draws + 1
  schedule : t.schedule = s.schedule.tail
  port : s.port <+: t.port

section

variable {s : State} {r : Reg}

/-- An undisturbed tick at a MemWrite of a mapped window; its value may be fixed or FSEL's merge (10_state R32). -/
theorem tick_writeValue {wv : WriteValue} (hc : configOk s.cfg = true) (hm : Mapped s) (hu : Undisturbed 1 s)
    (hb : s.ctl.status.busy = true) (hp : s.ctl.prog[s.ctl.uidx]? = some (.memWrite r wv none)) (hr : r ∈ allRegs s.cfg) :
    ∃ v, step s = .next (nextTick (advance v)) ∧ TickFrame s (nextTick (advance v)) ∧ v.ctl = s.ctl
      ∧ v.periph = writeReg s.cfg (writeCtx .controller s) r (writeValue s.ctl wv) s.periph
      ∧ v.trace = s.trace ++ [⟨.controller, s.tick, .write, physAddr s.cfg r, writeValue s.ctl wv⟩]
      ∧ v.stale = s.stale.filter (strobeAsserted v.periph) := by
  refine ⟨_, step_write hc hm hu hb hp hr, ?_, ?_, ?_, ?_, ?_⟩
  · constructor <;> simp
  all_goals simp [enterSeq]

/-- An undisturbed tick at a MemRead of a mapped window: the word read is in TMP, and is a GET's result (10_state R32,
42_pin_ops R197). -/
theorem tick_read (hc : configOk s.cfg = true) (hm : Mapped s) (hu : Undisturbed 1 s) (hb : s.ctl.status.busy = true)
    (hp : s.ctl.prog[s.ctl.uidx]? = some (.memRead r)) (hr : r ∈ allRegs s.cfg) :
    ∃ v w, w = readReg s.cfg s.draws s.periph r ∧ step s = .next (nextTick (advance v)) ∧ TickFrame s (nextTick (advance v))
      ∧ v.ctl = { s.ctl with tmp := w, status :=
          if s.ctl.cur.op = .get then recordLevel (w.getLsbD (s.ctl.cur.pin % 32)) s.ctl.status else s.ctl.status }
      ∧ v.periph = s.periph
      ∧ v.trace = s.trace ++ [⟨.controller, s.tick, .read, physAddr s.cfg r, w⟩]
      ∧ v.stale = s.stale := by
  refine ⟨_, _, rfl, step_read hc hm hu hb hp hr, ?_, ?_, ?_, ?_, ?_⟩
  · constructor <;> simp
  all_goals simp [getResult_ctl]

end

/-! ## Running a command, and serving it from the port -/

/-- Command i, accepted in s with next state t and its window mapped, has run to u in k ticks; n quiet ticks are left, and the words
at the port are still first there. -/
structure CommandRun (i : Instr) (s t u : State) (k n : Nat) : Prop where
  exec : exec i s = .next t
  runs : Runs k (nextTick t) u
  cfg : u.cfg = s.cfg
  grant : u.grant = grantAfter s
  port : s.port <+: u.port
  quiet : Undisturbed n u

/-- A command that stands at its body has its Map, if any, behind it (10_state R30). -/
theorem AtBody.commandRun {i : Instr} {s t v : State} {k j m n : Nat} {prog : List MicroOp} (h : AtBody i s v j m prog)
    (hexec : exec i s = .next t) (hruns : Runs k (nextTick t) v) (hquiet : Undisturbed n v) : CommandRun i s t v k n :=
  ⟨hexec, hruns, h.cfg, h.grant, h.port, hquiet⟩

/-- One more tick of a command. -/
theorem CommandRun.tick {i : Instr} {s t u v : State} {k n : Nat} (h : CommandRun i s t u k (n + 1)) (hstep : step u = .next v)
    (hframe : TickFrame u v) : CommandRun i s t v (k + 1) n :=
  ⟨h.exec, h.runs.trans (Runs.one hstep), hframe.cfg.trans h.cfg, hframe.grant.trans h.grant, h.port.trans hframe.port,
    h.quiet.tail hframe.schedule⟩

/-- The state in which the first word at the port is accepted: the word is taken, and this tick's words have arrived (10_state R31,
log 12). -/
def taken (rest : List Word) (s : State) : State := setPort (rest ++ commandWords (tickInput s).host) s

/-- A command first at the port is accepted in one tick and then runs (10_state R31). -/
theorem CommandRun.runs_of_port {i : Instr} {s t u : State} {k n : Nat} {rest : List Word}
    (h : CommandRun i (taken rest s) t u k n) (hwf : WellFormed i = true) (hready : Ready s) (hu : Undisturbed 1 s)
    (hport : s.port = encode i :: rest) : Runs (k + 1) s u := by
  obtain ⟨hc, hbusy, _⟩ := hready
  have hstep := stepRunsDecodedCommand s _ rest i hc hu hbusy hport (decodeOfEncode i hwf)
  have hexec : Machine.exec i { s with port := rest ++ commandWords (tickInput s).host } = .next t := h.exec
  rw [hexec, andThen_next] at hstep
  exact Runs.succ hstep h.runs

/-- A completed command that recorded nothing but its completion leaves the machine ready and mapped (10_state R33, R37). -/
theorem CommandRun.ready_mapped {i : Instr} {s t u : State} {k n : Nat} (h : CommandRun i s t u k n) (hready : Ready s)
    (hctl : u.ctl = doneCtl i s) : Ready u ∧ Mapped u := by
  obtain ⟨hc, _, hfatal, hfault⟩ := hready
  simp [Ready, Mapped, h.cfg, hctl, doneCtl, hc, hfatal, hfault]

theorem wellFormed_of_operandsPass {c : Config} (hc : configOk c = true) {i : Instr} (h : operandsPass c i) :
    WellFormed i = true := by
  obtain ⟨_, hmax⟩ := configOk_npins hc
  rw [wellFormed_iff_pinNumber]
  cases i <;> simp only [operandsPass, Instr.pinNumber, Instr.pinOperand, Option.getD_some, Option.getD_none] at h ⊢ <;> omega

/-! ## SET and CLR -/

/-- SET p for high, CLR p for low. -/
def latchInstr (high : Bool) (p : Nat) : Instr := if high then .set p else .clr p

/-- The register that SET or CLR of a pin of bank b writes. -/
def latchReg (high : Bool) (b : Nat) : Reg := if high then .set b else .clr b

theorem bodyOf_latch {c : Config} {cur : Cur} (h : cur.op = .set ∨ cur.op = .clr) :
    bodyOf c cur = [.memWrite (latchReg (decide (cur.op = .set)) (cur.pin / 32)) (.imm (1#32 <<< (cur.pin % 32))) none] := by
  rcases h with h | h <;> simp [bodyOf, h, bodySet, bodyClr, decodePin, latchReg]

theorem bodyOf_latchInstr (c : Config) (high : Bool) (p : Nat) :
    bodyOf c (curOf (latchInstr high p)) = [.memWrite (latchReg high (p / 32)) (.imm (1#32 <<< (p % 32))) none] := by
  cases high <;> rfl

theorem latchReg_mem {c : Config} {high : Bool} {p : Nat} (hp : p < c.npins) : latchReg high (p / 32) ∈ allRegs c := by
  have hbank := div32_lt_nbank hp
  rw [mem_allRegs]
  cases high <;> simp [latchReg, hbank]

theorem latchInstr_pass {c : Config} {high : Bool} {p : Nat} (hp : p < c.npins) : operandsPass c (latchInstr high p) := by
  cases high <;> exact hp

/-- The one bit of SET's or CLR's word names one pin, and the write is of its latch (42_pin_ops R191, R194). -/
theorem writePin_latch_one (c : Config) (x : WriteCtx) (high : Bool) (p q : Nat) (per : Periph) :
    writePin c x (latchReg high (p / 32)) (1#32 <<< (p % 32)) per q
      = fun (pin : Pin) => if q = p then { pin with latch := high } else pin := by
  funext pin
  cases high
  · exact writePin_clr_one c x p q per pin
  · exact writePin_set_one c x p q per pin

/-- A write to a set or clear bank leaves PUDCODE and PUD_T (20_memory R77, R78). -/
theorem writeReg_latch_pud (c : Config) (x : WriteCtx) (high : Bool) (b : Nat) (v : Word) (per : Periph) :
    (writeReg c x (latchReg high b) v per).pudcode = per.pudcode ∧ (writeReg c x (latchReg high b) v per).pudT = per.pudT := by
  have hr : latchReg high b ≠ .pud := by cases high <;> nofun
  exact ⟨writeReg_pudcode c x _ v per hr, writeReg_pudT c x _ v per hr⟩

/-- Only a pull-clock bank's write changes a clock bit (20_memory R83). -/
theorem strobeAsserted_writeReg_of_ne {c : Config} {x : WriteCtx} {r : Reg} {v : Word} {per : Periph}
    (h : ∀ b, r ≠ .pudclk b) : strobeAsserted (writeReg c x r v per) = strobeAsserted per := by
  funext q
  rw [strobeAsserted_writeReg, if_neg (h _)]

/-- The whole run of a SET or CLR whose checks pass. -/
theorem latch_run {s : State} {p n : Nat} (high : Bool) (h : Ready s) (hm : CanMap s) (hp : p < s.cfg.npins)
    (hu : Undisturbed (mapTicks s + 2 + n) s) :
    ∃ t u, CommandRun (latchInstr high p) s t u (mapTicks s + 1) n ∧ u.ctl = doneCtl (latchInstr high p) s
      ∧ (∀ q, u.periph.pins[q]? = (s.periph.pins[q]?).map (fun (pin : Pin) => if q = p then { pin with latch := high } else pin))
      ∧ u.periph.pudcode = s.periph.pudcode ∧ u.periph.pudT = s.periph.pudT
      ∧ u.trace = s.trace ++
          [⟨.controller, s.tick + mapTicks s + 1, .write, physAddr s.cfg (latchReg high (p / 32)), 1#32 <<< (p % 32)⟩]
      ∧ u.stale = s.stale.filter (strobeAsserted s.periph) := by
  obtain ⟨t, v, hexec, hmap, hv, hquiet⟩ := accept_to_body (i := latchInstr high p) (n := n + 1) h hm (latchInstr_pass hp)
    (by rw [bodyOf_latchInstr]; simp) (hu.mono (by omega))
  rw [bodyOf_latchInstr] at hv
  have hprog := prog_getElem? s [.memWrite (latchReg high (p / 32)) (.imm (1#32 <<< (p % 32))) none] 0
  have hlen := prog_length s [.memWrite (latchReg high (p / 32)) (.imm (1#32 <<< (p % 32))) none]
  obtain ⟨v', hstep, hframe, hctl, hperiph, htrace, hstale⟩ := tick_writeValue (s := v)
    (r := latchReg high (p / 32)) (wv := .imm (1#32 <<< (p % 32))) (by rw [hv.cfg]; exact h.1) hv.mapped
    (hquiet.mono (by omega)) hv.busy (by rw [hv.ctl]; exact hprog) (by rw [hv.cfg]; exact latchReg_mem hp)
  rw [hv.periph, hv.cfg] at hperiph
  have hnoclk : ∀ b, latchReg high (p / 32) ≠ .pudclk b := by cases high <;> nofun
  refine ⟨t, nextTick (advance v'), (hv.commandRun hexec hmap hquiet).tick hstep hframe, ?_, fun q => ?_, ?_, ?_, ?_, ?_⟩
  · rw [(nextTick_fields _).2.1, advance_last v' (by rw [hctl, hv.ctl]; exact hlen.symm), hctl, hv.ctl]
    rfl
  · simp [hperiph, writePin_latch_one, writeValue]
  · simp [hperiph, writeReg_latch_pud]
  · simp [hperiph, writeReg_latch_pud]
  · simp [htrace, hv.trace, hv.tick, hv.cfg, writeValue, Nat.add_right_comm]
  · simp [hstale, hv.stale, hperiph, strobeAsserted_writeReg_of_ne hnoclk]

/-- Settles O22: the run of a SET, its address written out. -/
theorem setDrivesLatchHigh : Obligations.SetDrivesLatchHigh := by
  intro s p hready hmap hp hquiet
  obtain ⟨t, u, hrun, hctl, hpins, hcode, hpudT, htrace, hstale⟩ := latch_run (n := 0) true hready hmap hp hquiet
  have haddr : physAddr s.cfg (latchReg true (p / 32)) = s.cfg.periphBase + 0x1C + 4 * (p / 32) := (Nat.add_assoc _ _ _).symm
  rw [haddr] at htrace
  exact ⟨t, u, hrun.exec, hrun.runs, hctl, hpins, hcode, hpudT, htrace, hrun.cfg, hrun.grant, hstale⟩

/-- Settles O23: the run of a CLR, its address written out. -/
theorem clrDrivesLatchLow : Obligations.ClrDrivesLatchLow := by
  intro s p hready hmap hp hquiet
  obtain ⟨t, u, hrun, hctl, hpins, hcode, hpudT, htrace, hstale⟩ := latch_run (n := 0) false hready hmap hp hquiet
  have haddr : physAddr s.cfg (latchReg false (p / 32)) = s.cfg.periphBase + 0x28 + 4 * (p / 32) := (Nat.add_assoc _ _ _).symm
  rw [haddr] at htrace
  exact ⟨t, u, hrun.exec, hrun.runs, hctl, hpins, hcode, hpudT, htrace, hrun.cfg, hrun.grant, hstale⟩

/-- Settles O42: the last micro-operation of a SET or CLR is its one write. -/
theorem setAndClrLoseNoUpdate : Obligations.SetAndClrLoseNoUpdate := by
  intro s hinv hb hop hlast _
  have hrun := hinv.running hb
  have hm := hrun.op_of_last hlast (by rw [bodyOf_latch hop]; rfl)
  have hr := body_regs hrun.curOk (by rw [bodyOf_latch hop]; exact List.mem_cons_self) (.inr ⟨_, _, rfl⟩)
  refine ⟨_, microStep_write hm hinv.config (hinv.mapped_of_op hb hm nofun) hr, ?_, ?_, fun q pin hpin => ?_⟩
  · simp [writeReg_latch_pud]
  · simp [writeReg_latch_pud]
  · simp [hpin, writeValue, writePin_latch_one]

/-! ## GET -/

/-- The bit of pin p in its level bank (20_memory R79, R80). -/
theorem readReg_lev_pin {c : Config} {draw p : Nat} {per : Periph} {pin : Pin} (hpin : per.pins[p]? = some pin) :
    (readReg c draw per (.lev (p / 32))).getLsbD (p % 32)
      = if pin.func = c.fselOutput then pin.latch else Config.env draw p := by
  have hp : 32 * (p / 32) + p % 32 = p := Nat.div_add_mod p 32
  have hread := levelBankRead c draw (p / 32) (p % 32) per pin (Nat.mod_lt p (by decide)) (by rw [hp]; exact hpin)
  rwa [hp] at hread

/-- The whole run of a GET whose checks pass. -/
theorem get_run {s : State} {p n : Nat} {pin : Pin} (h : Ready s) (hm : CanMap s) (hp : p < s.cfg.npins)
    (hpin : s.periph.pins[p]? = some pin) (hu : Undisturbed (mapTicks s + 2 + n) s) :
    ∃ t u w, w = readReg s.cfg (s.draws + mapTicks s) s.periph (.lev (p / 32))
      ∧ CommandRun (.get p) s t u (mapTicks s + 1) n
      ∧ u.ctl = { doneCtl (.get p) s with
          tmp := w
          status := { (doneCtl (.get p) s).status with
            resultValid := true
            level := if pin.func = s.cfg.fselOutput then pin.latch else Config.env (s.draws + mapTicks s) p } }
      ∧ u.periph = s.periph
      ∧ u.trace = s.trace ++ [⟨.controller, s.tick + mapTicks s + 1, .read, physAddr s.cfg (.lev (p / 32)), w⟩]
      ∧ u.draws = s.draws + mapTicks s + 1 ∧ u.stale = s.stale := by
  have hbody : bodyOf s.cfg (curOf (.get p)) = [.memRead (.lev (p / 32))] := rfl
  obtain ⟨t, v, hexec, hmap, hv, hquiet⟩ := accept_to_body (i := .get p) (n := n + 1) h hm hp (by simp [hbody])
    (hu.mono (by omega))
  rw [hbody] at hv
  have hprog := prog_getElem? s [.memRead (.lev (p / 32))] 0
  have hlen := prog_length s [.memRead (.lev (p / 32))]
  obtain ⟨v', w, hw, hstep, hframe, hctl, hperiph, htrace, hstale⟩ := tick_read (s := v) (r := .lev (p / 32))
    (by rw [hv.cfg]; exact h.1) hv.mapped (hquiet.mono (by omega)) hv.busy (by rw [hv.ctl]; exact hprog)
    (by rw [hv.cfg]; exact groupReg_decodePin_mem hp .lev)
  rw [hv.cfg, hv.draws, hv.periph] at hw
  have hlevel := readReg_lev_pin (c := s.cfg) (draw := s.draws + mapTicks s) hpin
  rw [← hw] at hlevel
  refine ⟨t, nextTick (advance v'), w, hw, (hv.commandRun hexec hmap hquiet).tick hstep hframe, ?_, ?_, ?_, ?_, ?_⟩
  · rw [(nextTick_fields _).2.1, advance_last v' (by rw [hctl, hv.ctl]; exact hlen.symm), hctl, hv.ctl, ← hlevel]
    rfl
  · simp [hperiph, hv.periph]
  · simp [htrace, hv.trace, hv.tick, hv.cfg, Nat.add_right_comm]
  · rw [hframe.draws, hv.draws]
  · simp [hstale, hv.stale]

/-- Settles O24: the run of a GET, its address written out. -/
theorem getReportsLevel : Obligations.GetReportsLevel := by
  intro s p pin hready hmap hp hpin hquiet
  obtain ⟨t, u, w, hw, hrun, hctl, hperiph, htrace, hdraws, hstale⟩ := get_run (n := 0) hready hmap hp hpin hquiet
  have haddr : physAddr s.cfg (.lev (p / 32)) = s.cfg.periphBase + 0x34 + 4 * (p / 32) := (Nat.add_assoc _ _ _).symm
  rw [haddr] at htrace
  exact ⟨t, u, w, hrun.exec, hrun.runs, hctl, hw, hperiph, htrace, hdraws, hrun.cfg, hrun.grant, hstale⟩

/-- A GET of an output pin, first at the port of a ready and mapped machine, reports the latch (42_pin_ops R197). -/
theorem runs_get_of_port {s : State} {p : Nat} {pin : Pin} {rest : List Word} (hready : Ready s) (hm : Mapped s)
    (hp : p < s.cfg.npins) (hpin : s.periph.pins[p]? = some pin) (hout : pin.func = s.cfg.fselOutput) (hu : Undisturbed 2 s)
    (hport : s.port = encode (.get p) :: rest) :
    ∃ u, Runs 2 s u ∧ u.ctl.status.level = pin.latch ∧ u.ctl.status.resultValid = true ∧ u.ctl.status.busy = false := by
  have hticks : mapTicks (taken rest s) = 0 := if_pos hm.1
  obtain ⟨t, u, w, _, hrun, hctl, _⟩ := get_run (s := taken rest s) (n := 0) hready (.inl hm) hp hpin
    (by rw [hticks]; exact hu)
  rw [hticks] at hrun
  refine ⟨u, hrun.runs_of_port (wellFormed_of_operandsPass hready.1 hp) hready (hu.mono (by omega)) hport, ?_, ?_, ?_⟩
  · rw [hctl]
    exact if_pos hout
  · rw [hctl]
  · rw [hctl]
    rfl

/-- Settles O32: the SET or CLR leaves the machine ready and mapped, with the GET first at the port and the new latch to read. -/
theorem levelReadsBackTheLatch : Obligations.LevelReadsBackTheLatch := by
  intro s p pin high ws hready hmap hp hpin hout hquiet hport
  obtain ⟨t, u, hrun, hctl, hpins, _⟩ := latch_run (s := taken (encode (.get p) :: ws) s) (n := 2) high hready hmap hp hquiet
  have hruns : Runs (mapTicks s + 2) s u :=
    hrun.runs_of_port (wellFormed_of_operandsPass hready.1 (latchInstr_pass hp)) hready (hquiet.mono (by omega)) hport
  have hcfg : u.cfg = s.cfg := hrun.cfg
  obtain ⟨hready', hmapped⟩ := hrun.ready_mapped hready hctl
  obtain ⟨later, hport'⟩ := hrun.port
  have hpin' : u.periph.pins[p]? = some { pin with latch := high } := by
    rw [hpins p, show (taken (encode (.get p) :: ws) s).periph.pins[p]? = some pin from hpin, Option.map_some, if_pos rfl]
  obtain ⟨z, hruns', hresult⟩ := runs_get_of_port hready' hmapped (by rw [hcfg]; exact hp) hpin' (by rw [hcfg]; exact hout)
    hrun.quiet hport'.symm
  exact ⟨z, hruns.trans hruns', hresult⟩

/-! ## FSEL -/

/-- Pin q's field of its function-select bank reads as its function code (20_memory R76). -/
theorem readReg_fsel_pin {c : Config} {draw q : Nat} {per : Periph} {pin : Pin} (hpin : per.pins[q]? = some pin) :
    (readReg c draw per (.fsel (q / 10))).extractLsb' (q % 10 * 3) 3 = pin.func :=
  readReg_fsel_field c draw per (q / 10) (q % 10) pin (Nat.mod_lt q (by decide)) (by rwa [Nat.div_add_mod])

/-- The merge of a new code for p into the word its bank has just read changes the function of p alone (42_pin_ops R202). -/
theorem writePin_fsel_merge {c : Config} {x : WriteCtx} {draw p q : Nat} {f : BitVec 3} {per : Periph} {pin : Pin}
    (hpin : per.pins[q]? = some pin) :
    writePin c x (.fsel (p / 10)) (mergeField (readReg c draw per (.fsel (p / 10))) f (p % 10 * 3)) per q pin
      = if q = p then { pin with func := f } else pin := by
  rw [writePin_fsel]
  by_cases hbank : q / 10 = p / 10
  · have hold := readReg_fsel_pin (c := c) (draw := draw) hpin
    rw [if_pos hbank, Nat.mul_comm, mergeField_extract _ _ _ _ hbank, ← hbank, hold]
    split <;> rfl
  · have hne : q ≠ p := fun h => hbank (by rw [h])
    rw [if_neg hbank, if_neg hne]

/-- An FSEL from its acceptance to the end of its read's tick: the bank's word is in TMP, and the write is to come (42_pin_ops
R200). -/
theorem fsel_read_run {s : State} {p n : Nat} {f : BitVec 3} (h : Ready s) (hm : CanMap s) (hp : p < s.cfg.npins)
    (hu : Undisturbed (mapTicks s + 3 + n) s) :
    ∃ t v w, w = readReg s.cfg (s.draws + mapTicks s) s.periph (.fsel (p / 10))
      ∧ CommandRun (.fsel p f) s t v (mapTicks s + 1) (n + 1)
      ∧ v.ctl = { doneCtl (.fsel p f) s with
          tmp := w, prog := mapFirst s ++ bodyFsel p, uidx := mapTicks s + 1
          status := { (doneCtl (.fsel p f) s).status with busy := true } }
      ∧ v.periph = s.periph ∧ v.tick = s.tick + mapTicks s + 2
      ∧ v.trace = s.trace ++ [⟨.controller, s.tick + mapTicks s + 1, .read, physAddr s.cfg (.fsel (p / 10)), w⟩]
      ∧ v.stale = s.stale := by
  have hbody : bodyOf s.cfg (curOf (.fsel p f)) = bodyFsel p := rfl
  obtain ⟨t, v, hexec, hmap, hv, hquiet⟩ := accept_to_body (i := .fsel p f) (n := n + 2) h hm hp
    (by simp [hbody, bodyFsel, decodePin]) (hu.mono (by omega))
  rw [hbody] at hv
  have hprog := prog_getElem? s (bodyFsel p) 0
  have hlen : (mapFirst s ++ bodyFsel p).length = mapTicks s + 2 := prog_length s (bodyFsel p)
  obtain ⟨v', w, hw, hstep, hframe, hctl, hperiph, htrace, hstale⟩ := tick_read (s := v) (r := .fsel (p / 10))
    (by rw [hv.cfg]; exact h.1) hv.mapped (hquiet.mono (by omega)) hv.busy (by rw [hv.ctl]; exact hprog)
    (by rw [hv.cfg]; exact groupReg_decodePin_mem hp .fsel)
  rw [hv.cfg, hv.draws, hv.periph] at hw
  refine ⟨t, nextTick (advance v'), w, hw, (hv.commandRun hexec hmap hquiet).tick hstep hframe, ?_, ?_, ?_, ?_, ?_⟩
  · rw [(nextTick_fields _).2.1, advance_notLast v' (by simp [hctl, hv.ctl, hlen]), hctl, hv.ctl]
    rfl
  · simp [hperiph, hv.periph]
  · rw [hframe.tick, hv.tick]
    omega
  · simp [htrace, hv.trace, hv.tick, hv.cfg, Nat.add_right_comm]
  · simp [hstale, hv.stale]

/-- The whole run of an FSEL whose checks pass (42_pin_ops R200, R202). -/
theorem fsel_run {s : State} {p n : Nat} {f : BitVec 3} (h : Ready s) (hm : CanMap s) (hp : p < s.cfg.npins)
    (hu : Undisturbed (mapTicks s + 3 + n) s) :
    ∃ t u w, w = readReg s.cfg (s.draws + mapTicks s) s.periph (.fsel (p / 10))
      ∧ CommandRun (.fsel p f) s t u (mapTicks s + 2) n ∧ u.ctl = { doneCtl (.fsel p f) s with tmp := w }
      ∧ (∀ q, u.periph.pins[q]? = (s.periph.pins[q]?).map (fun (pin : Pin) => if q = p then { pin with func := f } else pin))
      ∧ u.periph.pudcode = s.periph.pudcode ∧ u.periph.pudT = s.periph.pudT
      ∧ u.trace = s.trace ++
          [⟨.controller, s.tick + mapTicks s + 1, .read, physAddr s.cfg (.fsel (p / 10)), w⟩,
           ⟨.controller, s.tick + mapTicks s + 2, .write, physAddr s.cfg (.fsel (p / 10)), mergeField w f (p % 10 * 3)⟩]
      ∧ u.stale = s.stale.filter (strobeAsserted s.periph) := by
  obtain ⟨t, v, w, hw, hrun, hctl, hperiph, htick, htrace, hstale⟩ := fsel_read_run (f := f) h hm hp hu
  have hprog := prog_getElem? s (bodyFsel p) 1
  have hlen : (mapFirst s ++ bodyFsel p).length = mapTicks s + 2 := prog_length s (bodyFsel p)
  have hvalue : writeValue v.ctl (.mergeTmp (p % 10 * 3)) = mergeField w f (p % 10 * 3) := by rw [hctl]; rfl
  obtain ⟨v', hstep, hframe, hctl', hperiph', htrace', hstale'⟩ := tick_writeValue (s := v) (r := .fsel (p / 10))
    (wv := .mergeTmp (p % 10 * 3)) (by rw [hrun.cfg]; exact h.1) (by simp [Mapped, hctl, hrun.cfg, doneCtl])
    (hrun.quiet.mono (by omega)) (by rw [hctl]) (by rw [hctl]; exact hprog)
    (by rw [hrun.cfg]; exact groupReg_decodePin_mem hp .fsel)
  rw [hvalue, hrun.cfg, hperiph] at hperiph'
  refine ⟨t, nextTick (advance v'), w, hw, hrun.tick hstep hframe, ?_, fun q => ?_, ?_, ?_, ?_, ?_⟩
  · rw [(nextTick_fields _).2.1, advance_last v' (by rw [hctl', hctl]; exact hlen.symm), hctl', hctl]
    rfl
  · simp only [nextTick_fields, advance_outside, hperiph', writeReg_pins_getElem?, hw]
    exact Option.map_congr fun pin hpin => writePin_fsel_merge hpin
  · simp [hperiph', writeReg_pudcode]
  · simp [hperiph', writeReg_pudT]
  · simp [htrace', hvalue, htrace, htick, hrun.cfg]
  · simp [hstale', hstale, hperiph', strobeAsserted_writeReg_of_ne]

/-- Settles O25: the run of an FSEL, its address and the combined value written out. -/
theorem fselSelectsFunction : Obligations.FselSelectsFunction := by
  intro s p f hready hmap hp hquiet
  obtain ⟨t, u, w, hw, hrun, hctl, hpins, hcode, hpudT, htrace, hstale⟩ := fsel_run (n := 0) (f := f) hready hmap hp hquiet
  have haddr : physAddr s.cfg (.fsel (p / 10)) = s.cfg.periphBase + 4 * (p / 10) := by simp [physAddr, regOffset]
  rw [haddr] at htrace
  exact ⟨t, u, w, hrun.exec, hrun.runs, hctl, hw, hpins, hcode, hpudT, htrace, hrun.cfg, hrun.grant, hstale⟩

/-- Settles O33: a pin's field reads as its function, which the FSEL changed for its own pin alone. -/
theorem fselReadsBack : Obligations.FselReadsBack := by
  intro s p f ws hready hmap hp hsized hquiet hport
  obtain ⟨t, u, w, _, hrun, hctl, hpins, _⟩ := fsel_run (s := taken ws s) (n := 0) (f := f) hready hmap hp hquiet
  refine ⟨u, hrun.runs_of_port (wellFormed_of_operandsPass hready.1 hp) hready (hquiet.mono (by omega)) hport, by rw [hctl]; rfl,
    fun draw draw' q hq => ?_⟩
  have hold : s.periph.pins[q]? = some (s.periph.pins[q]'(by rw [hsized]; exact hq)) := List.getElem?_eq_getElem _
  have hnew := hpins q
  rw [show (taken ws s).periph.pins[q]? = _ from hold, Option.map_some] at hnew
  rw [readReg_fsel_pin hnew, readReg_fsel_pin hold]
  split <;> rfl

end Sys2Proof.Machine

/-! # Proofs: PULL, run to its end and tick by tick (43_pull R215 to R226)

`pull_run` gives the four writes and the peripheral after them, `pullPeriph`. Said here: what they do to PUD and to each pin, and where
the sequencer stands in every tick on the way. -/

namespace Sys2Proof.Machine

/-! ## The four writes of a PULL, whatever the window holds -/

theorem physAddr_pudclk (c : Config) (b : Nat) : physAddr c (.pudclk b) = c.periphBase + 0x98 + 4 * b :=
  (Nat.add_assoc _ _ _).symm

section

variable {c : Config} {p q τ D : Nat} {d : BitVec 2} {last : Option Nat} {per : Periph} {pin pin' : Pin}

/-- A PULL clears PUD in step 5a (43_pull R215). -/
theorem pullPeriph_pudcode : (pullPeriph c p d τ D last per).pudcode = 0 := by
  simp [pullPeriph, writeReg_pudcode]

/-- Step 5a is the last write of a PULL to PUD (43_pull R218). -/
theorem pullPeriph_pudT : (pullPeriph c p d τ D last per).pudT = some (τ + 2 * c.tSettle + 2) := by
  simp [pullPeriph, writeReg_pudT]

/-- Function and latch of no pin change, the clock bits of the PULL's bank end 0, and in the other bank the cells stay too
(43_pull R222, R225). -/
theorem pullPeriph_fields (hpin : per.pins[q]? = some pin) (hpin' : (pullPeriph c p d τ D last per).pins[q]? = some pin') :
    pin'.func = pin.func ∧ pin'.latch = pin.latch ∧ (q / 32 = p / 32 → pin'.clk = false)
      ∧ (q / 32 ≠ p / 32 → pin'.clk = pin.clk ∧ pin'.pcell = pin.pcell) := by
  simp only [pullPeriph, writeReg_pins_getElem?, hpin, Option.map_some, Option.some.injEq] at hpin'
  subst hpin'
  by_cases hq : q / 32 = p / 32
  · simp [writePin_pudclk_fields hq, writePin_pud, hq]
  · simp [writePin_pudclk_otherBank hq, writePin_pud, hq]

end

/-- Settles O26: the run of a PULL, its addresses written out. -/
theorem pullWritesTheProtocol : Obligations.PullWritesTheProtocol := by
  intro s p d hready hmap hp hd hquiet
  obtain ⟨t, u, hexec, hruns, hctl, hcfg, hgrant, hperiph, htrace, _, _, hstale⟩ :=
    pull_run (n := 0) hready hmap hp hd hquiet
  have htick : s.tick + mapTicks s + 1 + 2 * s.cfg.tSettle + 2 = s.tick + mapTicks s + 3 + 2 * s.cfg.tSettle := by omega
  rw [physAddr_pudclk] at htrace
  refine ⟨t, u, hexec, hruns, hctl, htrace, ?_, ?_, hcfg, hgrant, hstale⟩
  · rw [hperiph, pullPeriph_pudcode]
  · rw [hperiph, pullPeriph_pudT, htick]

/-- Settles O28: `pullPeriph_fields` for every pin. -/
theorem pullQuiescesItsBank : Obligations.PullQuiescesItsBank := by
  intro s p d hready hmap hp hd hquiet
  obtain ⟨t, u, hexec, hruns, _, _, _, hperiph, _⟩ := pull_run (n := 0) hready hmap hp hd hquiet
  refine ⟨t, u, hexec, hruns, ?_, ?_, fun q pin pin' hpin hpin' => ?_⟩
  · rw [hperiph, pullPeriph_pudcode]
  · simp [hperiph, pullPeriph]
  · rw [hperiph] at hpin'
    exact pullPeriph_fields hpin hpin'

/-! ## The cell of a PULL's pin, from a quiescent window -/

/-- A pin after a strobe of code d that was ok: its cell holds d's direction (20_memory R85, 43_pull R216). -/
def pulledPin (d : BitVec 2) (pin : Pin) : Pin :=
  { pin with strobe := none, pcell := if d = 0#2 then .none else if d = 1#2 then .down else .up }

/-- The strobe that a PULL of direction d starts in step 3, when its first write is at tick τ (20_memory R84, 43_pull R218). -/
def pullStrobe (c : Config) (d : BitVec 2) (τ : Nat) : Strobe := ⟨τ + c.tSettle + 1, d, true, true, 0, none⟩

/-- Of the pins of its bank, a PULL's clock word names its own (43_pull R215). -/
theorem pullClockWord_getLsbD {p q : Nat} (hbank : q / 32 = p / 32) :
    (1#32 <<< (p % 32)).getLsbD (q % 32) = decide (q = p) := by
  rw [one_shiftLeft_getLsbD _ _ (Nat.mod_lt p (by decide))]
  exact decide_eq_decide.mpr (by omega)

theorem strobeSeesPud_code (c : Config) (t : Nat) (st : Strobe) : (strobeSeesPud c t st).code = st.code := by
  unfold strobeSeesPud
  split <;> rfl

/-- The strobe of a PULL latches its code although step 5a clears PUD before step 5b ends it: T_SETTLE is T_HW_MIN at least, so that
write is a late one, the only one, and adjacent (20_memory R85, 43_pull R224). -/
theorem strobeOk_pullStrobe {c : Config} {d : BitVec 2} {τ draw : Nat} {ps : List Nat} (hd : d ≠ 3#2) :
    strobeOk ⟨τ + 2 * c.tSettle + 3, draw, some (τ + 2 * c.tSettle + 2), ps⟩
      (strobeSeesPud c (τ + 2 * c.tSettle + 2) (pullStrobe c d τ)) = true := by
  have hlate : ¬ τ + 2 * c.tSettle + 2 ≤ τ + c.tSettle + 1 + c.tHwMin := by simp only [Config.tSettle]; omega
  rw [strobeSeesPud, pullStrobe, if_neg hlate, strobeOk_iff]
  exact ⟨rfl, rfl, hd, .inr ⟨rfl, _, rfl, rfl, rfl⟩⟩

section

variable {c : Config} {x : WriteCtx} {b p q τ D : Nat} {d : BitVec 2} {last : Option Nat} {v : Word} {per : Periph} {pin : Pin}
  {st : Strobe}

theorem writeReg_pudclk_start (hpin : per.pins[q]? = some pin) (hq : q / 32 = b) (hclk : pin.clk = false)
    (hv : v.getLsbD (q % 32) = true) : (writeReg c x (.pudclk b) v per).pins[q]?
      = some { pin with clk := true, strobe := some (newStrobe c x per), pcell := Config.freePull x.draw q } := by
  rw [writeReg_pins_getElem?, hpin, Option.map_some, writePin_pudclk_start hq hclk hv]

theorem writeReg_pudclk_end_of_ok (hpin : per.pins[q]? = some pin) (hq : q / 32 = b) (hclk : pin.clk = true)
    (hv : v.getLsbD (q % 32) = false) (hst : pin.strobe = some st) (hopen : q ∉ x.openPins) (hok : strobeOk x st = true) :
    (writeReg c x (.pudclk b) v per).pins[q]? = some (pulledPin st.code { pin with clk := false }) := by
  rw [writeReg_pins_getElem?, hpin, Option.map_some, writePin_pudclk_end hq hclk hv, hst, cellAfter_of_ok hopen hok]
  rfl

theorem writeReg_pudclk_notNamed (hpin : per.pins[q]? = some pin) (hclk : pin.clk = false)
    (hv : q / 32 = b → v.getLsbD (q % 32) = false) : (writeReg c x (.pudclk b) v per).pins[q]? = some pin := by
  by_cases hq : q / 32 = b
  · exact writeReg_pudclk_same hpin ((hv hq).trans hclk.symm)
  · rw [writeReg_pins_getElem?, hpin, Option.map_some, writePin_pudclk_otherBank hq]

/-- T_SETTLE ticks after a PUD write of d, a strobe starts settled and with code d (20_memory R84). -/
theorem newStrobe_eq_pullStrobe (hcode : per.pudcode = d) (hpudT : per.pudT = some τ) (hx : x.tick = τ + c.tSettle + 1) :
    newStrobe c x per = pullStrobe c d τ := by
  have hsettled : τ + 1 + c.tHwMin ≤ τ + c.tSettle + 1 := by simp only [Config.tSettle]; omega
  simp [newStrobe, pullStrobe, hcode, hpudT, hx, hsettled]

/-- The PULL's own pin, not asserted before: the strobe of steps 3 to 5b latches d (43_pull R221, R224). -/
theorem pullPeriph_ownPin (hd : d ≠ 3#2) (hpin : per.pins[p]? = some pin) (hclk : pin.clk = false) :
    (pullPeriph c p d τ D last per).pins[p]? = some (pulledPin d pin) := by
  have hcode : (writeReg c ⟨τ, D, last, []⟩ .pud (d.setWidth 32) per).pudcode = d := by
    simp [BitVec.extractLsb'_setWidth_of_le]
  have h1 := writeReg_pud_notAsserted (c := c) (x := ⟨τ, D, last, []⟩) (v := d.setWidth 32) hpin hclk
  have h3 := writeReg_pudclk_start (c := c) (x := ⟨τ + c.tSettle + 1, D + 1, some τ, []⟩) h1 rfl hclk
    ((pullClockWord_getLsbD rfl).trans (decide_eq_true rfl))
  rw [newStrobe_eq_pullStrobe hcode rfl rfl] at h3
  have h5a := writeReg_pud_asserted (c := c) (x := ⟨τ + 2 * c.tSettle + 2, D + 2, none, []⟩) (v := 0) h3 rfl rfl
  have h5b := writeReg_pudclk_end_of_ok (c := c) (x := ⟨τ + 2 * c.tSettle + 3, D + 3, some (τ + 2 * c.tSettle + 2), []⟩)
    h5a rfl rfl BitVec.getLsbD_zero rfl List.not_mem_nil (strobeOk_pullStrobe hd)
  rw [strobeSeesPud_code] at h5b
  cases pin
  cases hclk
  exact h5b

/-- Any other pin that was not asserted: no write of the PULL changes it (43_pull R225). -/
theorem pullPeriph_otherPin (hq : q ≠ p) (hpin : per.pins[q]? = some pin) (hclk : pin.clk = false) :
    (pullPeriph c p d τ D last per).pins[q]? = some pin := by
  have h1 := writeReg_pud_notAsserted (c := c) (x := ⟨τ, D, last, []⟩) (v := d.setWidth 32) hpin hclk
  have h3 := writeReg_pudclk_notNamed (c := c) (x := ⟨τ + c.tSettle + 1, D + 1, some τ, []⟩) (b := p / 32) h1 hclk
    fun hbank => (pullClockWord_getLsbD hbank).trans (decide_eq_false hq)
  have h5a := writeReg_pud_notAsserted (c := c) (x := ⟨τ + 2 * c.tSettle + 2, D + 2, none, []⟩) (v := 0) h3 hclk
  exact writeReg_pudclk_notNamed h5a hclk fun _ => BitVec.getLsbD_zero

/-- The pins after a PULL that found no strobe asserted (43_pull R221, R225). -/
theorem pullPeriph_pins (hd : d ≠ 3#2) (hquiet : ∀ pin ∈ per.pins, pin.clk = false) (q : Nat) :
    (pullPeriph c p d τ D last per).pins[q]? = (per.pins[q]?).map (fun (pin : Pin) => if q = p then pulledPin d pin else pin) := by
  cases hpin : per.pins[q]? with
  | none => simp [pullPeriph, hpin]
  | some pin =>
    have hclk := hquiet pin (List.mem_of_getElem? hpin)
    by_cases hq : q = p
    · subst hq
      rw [pullPeriph_ownPin hd hpin hclk, Option.map_some, if_pos rfl]
    · rw [pullPeriph_otherPin hq hpin hclk, Option.map_some, if_neg hq]

end

/-- A run of a PULL that started in a quiescent window leaves it quiescent (43_pull R221). -/
theorem quiescent_of_pull {s u : State} {p τ D : Nat} {d : BitVec 2} {last : Option Nat} (hd : d ≠ 3#2) (hquiet : Quiescent s)
    (hperiph : u.periph = pullPeriph s.cfg p d τ D last s.periph) : Quiescent u := by
  obtain ⟨_, hclk⟩ := hquiet
  refine ⟨by rw [hperiph, pullPeriph_pudcode], fun pin' hmem => ?_⟩
  obtain ⟨q, hq⟩ := List.mem_iff_getElem?.mp hmem
  rw [hperiph, pullPeriph_pins hd hclk] at hq
  obtain ⟨pin, hpin, rfl⟩ := Option.map_eq_some_iff.mp hq
  split <;> exact hclk pin (List.mem_of_getElem? hpin)

/-- Settles O27: the strobe of p latches d, and no other pin has one. -/
theorem pullSetsTheCell : Obligations.PullSetsTheCell := by
  intro s p d hready hmap hp hd hquiescent hquiet
  obtain ⟨t, u, hexec, hruns, _, _, _, hperiph, _⟩ := pull_run (n := 0) hready hmap hp hd hquiet
  have ⟨_, hclk⟩ := hquiescent
  refine ⟨t, u, hexec, hruns, fun q => ?_, quiescent_of_pull hd hquiescent hperiph⟩
  rw [hperiph]
  exact pullPeriph_pins hd hclk q

/-! ## Two PULLs of one pin -/

/-- A PULL first at the port of a ready machine with a quiescent window, run to its end: the machine is ready for the next word, its
window is quiescent, the cell of p is set, and the PULL's four writes are the last of TRACE (43_pull R221, log 12). -/
theorem runs_pull_of_port {s : State} {p n : Nat} {pin : Pin} {d : BitVec 2} {rest : List Word} (hready : Ready s) (hm : CanMap s)
    (hp : p < s.cfg.npins) (hd : d ≠ 3#2) (hquiescent : Quiescent s) (hpin : s.periph.pins[p]? = some pin)
    (hu : Undisturbed (mapTicks s + 5 + 2 * s.cfg.tSettle + n) s) (hport : s.port = encode (.pull p d) :: rest) :
    ∃ u, Runs (mapTicks s + 5 + 2 * s.cfg.tSettle) s u ∧ u.cfg = s.cfg ∧ Ready u ∧ Mapped u ∧ Quiescent u ∧ Undisturbed n u
      ∧ rest <+: u.port ∧ u.periph.pins[p]? = some (pulledPin d pin)
      ∧ ∃ t1 t2 t3 t4, u.trace = s.trace ++
          [⟨.controller, t1, .write, s.cfg.periphBase + 0x94, d.setWidth 32⟩,
           ⟨.controller, t2, .write, s.cfg.periphBase + 0x98 + 4 * (p / 32), 1#32 <<< (p % 32)⟩,
           ⟨.controller, t3, .write, s.cfg.periphBase + 0x94, 0⟩,
           ⟨.controller, t4, .write, s.cfg.periphBase + 0x98 + 4 * (p / 32), 0⟩] := by
  obtain ⟨t, u, hexec, hruns, hctl, hcfg, hgrant, hperiph, htrace, hquiet, hport', _⟩ :=
    pull_run (s := taken rest s) (n := n) hready hm hp hd hu
  have hrun : CommandRun (.pull p d) (taken rest s) t u (mapTicks s + 4 + 2 * s.cfg.tSettle) n :=
    ⟨hexec, hruns, hcfg, hgrant, hport', hquiet⟩
  have hruns' := hrun.runs_of_port (wellFormed_of_operandsPass hready.1 ⟨hp, hd⟩) hready (hu.mono (by omega)) hport
  have hticks : mapTicks s + 4 + 2 * s.cfg.tSettle + 1 = mapTicks s + 5 + 2 * s.cfg.tSettle := by omega
  have hown : (taken rest s).periph.pins[p]? = some pin := hpin
  rw [hticks] at hruns'
  refine ⟨u, hruns', hcfg, ?_, ?_, quiescent_of_pull hd hquiescent hperiph, hquiet, (List.prefix_append _ _).trans hport', ?_, ?_⟩
  · obtain ⟨hc, _, hfatal, hfault⟩ := hready
    rw [Ready, hctl, hcfg]
    exact ⟨hc, rfl, hfatal, hfault⟩
  · rw [Mapped, hctl, hcfg]
    exact ⟨rfl, rfl, rfl⟩
  · rw [hperiph]
    exact pullPeriph_ownPin hd hown (hquiescent.2 pin (List.mem_of_getElem? hpin))
  · rw [physAddr_pudclk] at htrace
    exact ⟨_, _, _, _, htrace⟩

/-- Settles O34: the first PULL leaves the machine ready, mapped and quiescent, with the second first at the port. -/
theorem finalPullWins : Obligations.FinalPullWins := by
  intro s p pin d d' ws hready hm hp hd hd' hquiescent hpin hu hport
  obtain ⟨v, hruns, hcfg, hready', hmapped, hquiescent', hquiet, ⟨later, hport'⟩, hpin', _⟩ :=
    runs_pull_of_port (n := 5 + 2 * s.cfg.tSettle) hready hm hp hd hquiescent hpin (hu.mono (by omega)) hport
  have hticks : mapTicks v = 0 := if_pos hmapped.1
  rw [← hcfg] at hp hquiet
  obtain ⟨u, hruns', _, ⟨_, hidle, _⟩, _, hquiescent'', _, _, hcell, t1, t2, t3, t4, htrace⟩ :=
    runs_pull_of_port (n := 0) hready' (.inl hmapped) hp hd' hquiescent' hpin' (by rw [hticks]; exact hquiet.mono (by omega))
      hport'.symm
  have hsum : mapTicks s + 5 + 2 * s.cfg.tSettle + (mapTicks v + 5 + 2 * v.cfg.tSettle) = mapTicks s + 10 + 4 * s.cfg.tSettle := by
    rw [hticks, hcfg]
    omega
  rw [hcfg] at htrace
  exact ⟨u, _, hsum ▸ hruns.trans hruns', hidle, hquiescent'', hcell, rfl, v.trace, t1, t2, t3, t4, htrace⟩

/-! ## Where a command stands in each tick of its body -/

/-- The ticks that a micro-operation takes (10_state R32). -/
def opTicks : MicroOp → Nat
  | .wait n => n
  | _ => 1

/-- The ticks of the first j micro-operations of a body. -/
def ticksBefore (body : List MicroOp) (j : Nat) : Nat := ((body.take j).map opTicks).sum

theorem ticksBefore_succ {body : List MicroOp} {j : Nat} {m : MicroOp} (h : body[j]? = some m) :
    ticksBefore body (j + 1) = ticksBefore body j + opTicks m := by
  simp [ticksBefore, List.take_add_one, h]

theorem ticksBefore_of_length_le {body : List MicroOp} {j : Nat} (h : body.length ≤ j) :
    ticksBefore body j = ticksBefore body body.length := by
  simp [ticksBefore, List.take_of_length_le h]

/-- Every micro-operation of a body takes a tick at least: T_SETTLE is no less (00_scope R7). -/
theorem opTicks_pos {c : Config} {cur : Cur} {j : Nat} {m : MicroOp} (hm : (bodyOf c cur)[j]? = some m) : 0 < opTicks m := by
  cases m with
  | wait n =>
    obtain ⟨_, hn⟩ := (prog_shape (pre := []) (.inl rfl)).2.1 n hm
    simp only [opTicks, hn, Config.tSettle, Config.tHwMin]
    omega
  | _ => exact Nat.one_pos

/-- v is k ticks into the body of command i, accepted in s, at its micro-operation j; SEQ, if it was Idle, is where the first j
micro-operations took it (10_state R29, R32; 43_pull R217). -/
structure InBody (i : Instr) (s v : State) (k j : Nat) : Prop where
  cfg : v.cfg = s.cfg
  mapped : Mapped v
  busy : v.ctl.status.busy = true
  prog : v.ctl.prog = mapFirst s ++ bodyOf s.cfg (curOf i)
  uidx : v.ctl.uidx = mapTicks s + j
  seq : s.ctl.status.seq = .idle → v.ctl.status.seq = seqAt (bodyOf s.cfg (curOf i)) j
  elapsed : ticksBefore (bodyOf s.cfg (curOf i)) j + v.ctl.waitcnt = k
  inside : k < ticksBefore (bodyOf s.cfg (curOf i)) (j + 1)

section

variable {i : Instr} {s v x : State} {k j n : Nat} {m : MicroOp}

/-- A body is entered at its first micro-operation (10_state R30). -/
theorem AtBody.inBody {prog : List MicroOp} (h : AtBody i s v k (mapTicks s) prog)
    (hprog : prog = mapFirst s ++ bodyOf s.cfg (curOf i)) (hbody : bodyOf s.cfg (curOf i) ≠ []) : InBody i s v 0 0 where
  cfg := h.cfg
  mapped := h.mapped
  busy := h.busy
  prog := by rw [h.ctl, hprog]
  uidx := by rw [h.ctl]; rfl
  seq hidle := by rw [h.ctl]; exact hidle
  elapsed := by rw [h.ctl]; rfl
  inside := by
    have hfirst := List.getElem?_eq_getElem (List.length_pos_iff.mpr hbody)
    rw [ticksBefore_succ hfirst]
    exact Nat.lt_add_left _ (opTicks_pos hfirst)

/-- Inside a body there is a micro-operation to do, and it has ticks left. -/
theorem InBody.exists_op (h : InBody i s v k j) :
    ∃ m, (bodyOf s.cfg (curOf i))[j]? = some m ∧ v.ctl.prog[v.ctl.uidx]? = some m ∧ v.ctl.waitcnt < opTicks m := by
  have helapsed := h.elapsed
  have hinside := h.inside
  cases hm : (bodyOf s.cfg (curOf i))[j]? with
  | none =>
    have hlen := List.getElem?_eq_none_iff.mp hm
    rw [ticksBefore_of_length_le (by omega)] at hinside
    rw [ticksBefore_of_length_le hlen] at helapsed
    omega
  | some m =>
    rw [ticksBefore_succ hm] at hinside
    exact ⟨m, rfl, by rw [h.prog, h.uidx, prog_getElem?, hm], by omega⟩

/-- The micro-operation at j has had its last tick's effect in x, and another one follows: uidx moves on to it (10_state R32). -/
theorem InBody.next (h : InBody i s v k j) (hm : (bodyOf s.cfg (curOf i))[j]? = some m) (hw : v.ctl.waitcnt + 1 = opTicks m)
    (hmore : k + 1 < ticksBefore (bodyOf s.cfg (curOf i)) (bodyOf s.cfg (curOf i)).length) (hcfg : x.cfg = v.cfg)
    (hctl : x.ctl = { v.ctl with tmp := x.ctl.tmp, waitcnt := 0, status := { v.ctl.status with
      seq := x.ctl.status.seq, level := x.ctl.status.level, resultValid := x.ctl.status.resultValid } })
    (hseq : s.ctl.status.seq = .idle → x.ctl.status.seq = seqAt (bodyOf s.cfg (curOf i)) (j + 1)) :
    InBody i s (nextTick (advance x)) (k + 1) (j + 1) := by
  have hnow : ticksBefore (bodyOf s.cfg (curOf i)) (j + 1) = k + 1 := by
    rw [ticksBefore_succ hm, ← hw, ← Nat.add_assoc, h.elapsed]
  have hlen : j + 1 < (bodyOf s.cfg (curOf i)).length := by
    by_contra hge
    rw [ticksBefore_of_length_le (by omega)] at hnow
    omega
  have hnext := List.getElem?_eq_getElem hlen
  have hctl' : (nextTick (advance x)).ctl = { x.ctl with uidx := x.ctl.uidx + 1 } := by
    refine advance_notLast x ?_
    rw [hctl, h.prog, h.uidx, prog_length]
    show mapTicks s + j + 1 ≠ _
    omega
  have hwait : x.ctl.waitcnt = 0 := by rw [hctl]
  constructor
  · simpa [hcfg] using h.cfg
  · rw [Mapped, hctl', hctl, (nextTick_fields _).1, (advance_outside _).1, hcfg]
    exact h.mapped
  · rw [hctl', hctl]
    exact h.busy
  · rw [hctl', hctl]
    exact h.prog
  · rw [hctl', hctl]
    exact congrArg (· + 1) h.uidx
  · rw [hctl']
    exact hseq
  · rw [hctl', hnow, hwait]
  · rw [ticksBefore_succ hnext, hnow]
    exact Nat.lt_add_of_pos_right (opTicks_pos hnext)

/-- A tick inside a Wait that does not end it (10_state R32). -/
theorem InBody.waiting (h : InBody i s v k j) (hm : (bodyOf s.cfg (curOf i))[j]? = some (.wait n)) (hw : v.ctl.waitcnt + 1 < n)
    (hcfg : x.cfg = v.cfg) (hctl : x.ctl = { v.ctl with waitcnt := v.ctl.waitcnt + 1 }) : InBody i s x (k + 1) j where
  cfg := hcfg.trans h.cfg
  mapped := by
    rw [Mapped, hctl, hcfg]
    exact h.mapped
  busy := by rw [hctl]; exact h.busy
  prog := by rw [hctl]; exact h.prog
  uidx := by rw [hctl]; exact h.uidx
  seq hidle := by rw [hctl]; exact h.seq hidle
  elapsed := by rw [hctl, ← Nat.add_assoc, h.elapsed]
  inside := by
    rw [ticksBefore_succ hm, ← h.elapsed]
    simp only [opTicks]
    omega

/-- One undisturbed tick inside a body that leaves ticks to do (10_state R32). -/
theorem InBody.tick (h : InBody i s v k j) (hc : configOk s.cfg = true) (hp : operandsPass s.cfg i) (hu : Undisturbed 1 v)
    (hmore : k + 1 < ticksBefore (bodyOf s.cfg (curOf i)) (bodyOf s.cfg (curOf i)).length) :
    ∃ w j', step v = .next w ∧ InBody i s w (k + 1) j' ∧ w.schedule = v.schedule.tail := by
  obtain ⟨m, hm, hop, hw⟩ := h.exists_op
  have hcv : configOk v.cfg = true := by rw [h.cfg]; exact hc
  have hreg : ∀ r, (m = .memRead r ∨ ∃ wv q, m = .memWrite r wv q) → r ∈ allRegs v.cfg := fun r hr => by
    rw [h.cfg]
    exact body_regs (curOk_curOf hp) (List.mem_of_getElem? hm) hr
  have hseq := seqAt_succ hm
  cases m with
  | map => exact absurd ((prog_shape (pre := []) (.inl rfl)).2.2 hm).1 nofun
  | memRead r =>
    have hzero : v.ctl.waitcnt = 0 := Nat.lt_one_iff.mp hw
    refine ⟨_, j + 1, step_read hcv h.mapped hu h.busy hop (hreg r (.inl rfl)), h.next hm (by rw [hzero]; rfl) hmore (by simp) ?_
      fun hidle => ?_, by simp⟩
    · by_cases hget : v.ctl.cur.op = .get <;> simp [getResult_ctl, hget, hzero, recordLevel]
    · rw [hseq, ← h.seq hidle]
      by_cases hget : v.ctl.cur.op = .get <;> simp [getResult_ctl, hget, recordLevel]
  | memWrite r wv q =>
    have hzero : v.ctl.waitcnt = 0 := Nat.lt_one_iff.mp hw
    refine ⟨_, j + 1, step_write hcv h.mapped hu h.busy hop (hreg r (.inr ⟨_, _, rfl⟩)), h.next hm (by rw [hzero]; rfl) hmore
      (by simp) ?_ fun hidle => ?_, by simp⟩
    · rw [← hzero]
      rfl
    · rw [hseq, ← h.seq hidle]
      cases q <;> rfl
  | wait n =>
    have hstep : step v = .next (nextTick (waitStep n (hostArrivals v))) :=
      step_micro hcv hu h.busy (microStep_wait (s := hostArrivals v) hop)
    by_cases hn : v.ctl.waitcnt + 1 = n
    · have hwait : waitStep n (hostArrivals v) = advance { hostArrivals v with ctl := { v.ctl with waitcnt := 0 } } := if_pos hn
      rw [hwait] at hstep
      exact ⟨_, j + 1, hstep, h.next hm hn hmore rfl rfl fun hidle => hseq ▸ h.seq hidle, by simp⟩
    · have hwait : waitStep n (hostArrivals v) = { hostArrivals v with ctl := { v.ctl with waitcnt := v.ctl.waitcnt + 1 } } :=
        if_neg hn
      rw [hwait] at hstep
      exact ⟨_, j, hstep, h.waiting hm (Nat.lt_of_le_of_ne hw hn) rfl rfl, rfl⟩

/-- n undisturbed ticks inside a body that leave ticks to do. -/
theorem InBody.run (h : InBody i s v k j) (hc : configOk s.cfg = true) (hp : operandsPass s.cfg i) (hu : Undisturbed n v)
    (hmore : k + n < ticksBefore (bodyOf s.cfg (curOf i)) (bodyOf s.cfg (curOf i)).length) :
    ∃ u j', Runs n v u ∧ InBody i s u (k + n) j' := by
  induction n generalizing v k j with
  | zero => exact ⟨v, j, Runs.zero v, h⟩
  | succ n ih =>
    obtain ⟨w, j', hstep, hw, hsched⟩ := h.tick hc hp (hu.mono (by omega)) (by omega)
    obtain ⟨u, j'', hruns, hu'⟩ := ih hw (hu.tail hsched) (by omega)
    exact ⟨u, j'', Runs.succ hstep hruns, by rwa [Nat.add_right_comm, Nat.add_assoc] at hu'⟩

end

/-! ## The timetable of a PULL (R218) -/

theorem bodyOf_pull (c : Config) (p : Nat) (d : BitVec 2) : bodyOf c (curOf (.pull p d)) = bodyPull c p d := by
  simp [bodyOf, curOf, zero_append_extract]

theorem ticksBefore_bodyPull (c : Config) (p : Nat) (d : BitVec 2) :
    ticksBefore (bodyPull c p d) (bodyPull c p d).length = 4 + 2 * c.tSettle := by
  have hticks : 1 + (c.tSettle + (1 + (c.tSettle + (1 + 1)))) = 4 + 2 * c.tSettle := by omega
  exact hticks

/-- SEQ inside the body of a PULL, by the ticks it has run (43_pull R217, R218). -/
theorem seqAt_bodyPull {c : Config} {p k j : Nat} {d : BitVec 2} (hk : ticksBefore (bodyPull c p d) j ≤ k)
    (hk' : k < ticksBefore (bodyPull c p d) (j + 1)) :
    seqAt (bodyPull c p d) j = if k = 0 then .idle else if k ≤ 1 + c.tSettle then .loaded
      else if k ≤ 3 + 2 * c.tSettle then .clocked else .idle := by
  have hj : j < 6 := by
    by_contra hge
    rw [ticksBefore_of_length_le (show 6 ≤ j by omega)] at hk
    rw [ticksBefore_of_length_le (show 6 ≤ j + 1 by omega)] at hk'
    omega
  interval_cases j
  all_goals
    simp only [ticksBefore, bodyPull, List.take_succ_cons, List.take_zero, List.map_cons, List.map_nil, opTicks, List.sum_cons,
      List.sum_nil] at hk hk'
    simp (disch := omega) only [if_pos, if_neg]
    rfl

/-- Settles O30: before the last tick the PULL stands in its body, where SEQ follows the ticks run; in the last it completes. -/
theorem pullTimetable : Obligations.PullTimetable := by
  intro s p d k hready hm hidle hp hd hk hu
  by_cases hlast : k = 4 + 2 * s.cfg.tSettle
  · obtain ⟨t, u, hexec, hruns, hctl, _⟩ := pull_run (n := 0) hready hm hp hd hu
    subst hlast
    refine ⟨t, u, hexec, Nat.add_assoc _ _ _ ▸ hruns, ?_, ?_⟩
    · rw [hctl, if_neg (by omega), if_neg (by omega), if_neg (by omega)]
    · simp [hctl, doneCtl]
  · obtain ⟨t, v, hexec, hmap, hv, hquiet⟩ := accept_to_body (i := .pull p d) (n := 4 + 2 * s.cfg.tSettle) hready hm ⟨hp, hd⟩
      (by simp [bodyOf_pull, bodyPull, decodePin]) (hu.mono (by omega))
    obtain ⟨u, j, hruns, hin⟩ := (hv.inBody rfl (by simp [bodyOf_pull, bodyPull, decodePin])).run hready.1 ⟨hp, hd⟩
      (hquiet.mono hk) (by rw [bodyOf_pull, ticksBefore_bodyPull]; omega)
    obtain ⟨_, _, hbusy, _, _, hseq, helapsed, hinside⟩ := hin
    rw [bodyOf_pull] at hseq helapsed hinside
    rw [Nat.zero_add] at helapsed hinside
    exact ⟨t, u, hexec, hmap.trans hruns, (hseq hidle).trans (seqAt_bodyPull (Nat.le.intro helapsed) hinside),
      hbusy.trans (decide_eq_true (by omega)).symm⟩

end Sys2Proof.Machine

/-! # Proofs: faults, rejection and the guards (60_exceptions R243 to R249)

An idle controller in a tick without reset does nothing, or offers the first word at its port to acceptance
(`controllerAct_notBusy`); a running controller always has a micro-operation that it can run (`Invariant.microStep_next`). -/

namespace Sys2Proof.Machine

/-! ## Acceptance after a fault, and of a word that fails a check -/

/-- After a fault a word is rejected unchecked (60_exceptions R248). -/
theorem accept_faulted {w : Word} {check : Option FaultCode} {cur : Cur} {body : List MicroOp} {s : State}
    (hc : configOk s.cfg = true) (hb : s.ctl.status.busy = false)
    (hf : s.ctl.status.fatal = true ∨ s.ctl.status.fault = true) :
    accept w check cur body s = .next (rejectEntry (latchCommand w s)) := by
  simp [accept, hc, hb, hf]

/-- Settles O16: every command and every other word is offered to `accept`. -/
theorem rejectionAfterFault : Obligations.RejectionAfterFault := by
  intro s hc hb hf
  refine ⟨fun i => ?_, fun w e => accept_faulted hc hb hf⟩
  rw [exec_eq_accept_operandFault, accept_faulted hc hb hf]
  rfl

/-- A command that fails a check of its operands faults, with the code of the first check that fails (60_exceptions R245, R246). -/
theorem exec_operandFault {i : Instr} {s : State} {f : FaultCode} (h : Ready s) (hf : operandFault s.cfg i = some f) :
    exec i s = .next (faultEntry f (latchCommand (encode i) s)) := by
  rw [exec_eq_accept_operandFault, accept_ready h, hf]

theorem pinCheck_of_le {c : Config} {pin : Nat} (h : c.npins ≤ pin) : pinCheck c pin = some .pinRange :=
  if_neg (Nat.not_lt.mpr h)

/-- Settles O17: the pin is the only check of these commands but PULL, whose direction passes. -/
theorem pinRangeFaultEntry : Obligations.PinRangeFaultEntry := by
  intro s pin hready hpin i hi
  refine exec_operandFault hready ?_
  have hcheck := pinCheck_of_le hpin
  rcases hi with rfl | rfl | rfl | ⟨f, rfl⟩ | ⟨d, hd, rfl⟩
  · exact hcheck
  · exact hcheck
  · exact hcheck
  · exact hcheck
  · exact (if_neg hd).trans hcheck

/-- Settles O18: the direction is the first check of a PULL. -/
theorem badPullDirectionFaultEntry : Obligations.BadPullDirectionFaultEntry :=
  fun _ _ hready => exec_operandFault hready rfl

theorem controllerAct_illegal {s : State} {w : Word} {rest : List Word} {e : DecodeError} (hr : (tickInput s).reset = false)
    (hb : s.ctl.status.busy = false) (hp : s.port = w :: rest) (hd : decode w = .error e) :
    controllerAct s = acceptIllegal w e (setPort rest s) := by
  simp [controllerAct, controllerTurn, hr, hb, hp, hd]

/-- Settles O19: the first word held at the port is still the first when the arriving words are behind it, and fails its check. -/
theorem illegalWordFaultEntry : Obligations.IllegalWordFaultEntry := by
  intro s w rest e hready hu hp hd
  have hready' : Ready (setPort (rest ++ commandWords (tickInput s).host) (hostArrivals s)) := hready
  obtain ⟨hc, hb, _⟩ := hready
  obtain ⟨hr, hbefore, hafter⟩ := tickInput_of_undisturbed hu
  have hport : (hostArrivals s).port = w :: (rest ++ commandWords (tickInput s).host) := by simp [hp]
  rw [step_noOthers hc hbefore hafter, controllerAct_illegal (s := hostArrivals s) hr hb hport hd, acceptIllegal,
    accept_ready hready']
  cases e <;> rfl

/-! ## What an idle controller does -/

theorem controllerAct_portEmpty {s : State} (hr : (tickInput s).reset = false) (hb : s.ctl.status.busy = false)
    (hp : s.port = []) : controllerAct s = .next s := by
  simp [controllerAct, controllerTurn, hr, hb, hp]

/-- An idle controller in a tick without reset does nothing, or the first word at its port goes to acceptance (10_state R31). -/
theorem controllerAct_notBusy {s : State} (hr : (tickInput s).reset = false) (hb : s.ctl.status.busy = false) :
    controllerAct s = .next s
    ∨ ∃ w rest check cur body, controllerAct s = accept w check cur body (setPort rest s) := by
  cases hp : s.port with
  | nil => exact .inl (controllerAct_portEmpty hr hb hp)
  | cons w rest =>
    right
    cases hd : decode w with
    | ok i => exact ⟨_, _, _, _, _, (controllerAct_command hr hb hp hd).trans (exec_eq_accept_operandFault i _)⟩
    | error e => exact ⟨_, _, _, _, _, controllerAct_illegal hr hb hp hd⟩

/-- An idle controller touches no register of the window (60_exceptions R247). -/
theorem controllerAct_notBusy_window {s t : State} (hb : s.ctl.status.busy = false) (ht : controllerAct s = .next t) :
    t.periph = s.periph ∧ t.trace = s.trace := by
  cases hr : (tickInput s).reset with
  | true =>
    rw [controllerAct_reset hr] at ht
    cases ht
    exact ⟨rfl, rfl⟩
  | false =>
    rcases controllerAct_notBusy hr hb with hidle | ⟨w, rest, check, cur, body, haccept⟩
    · rw [hidle] at ht
      cases ht
      exact ⟨rfl, rfl⟩
    · rw [haccept] at ht
      obtain ⟨_, hperiph, _, _, _, _, _, htrace⟩ := accept_outside ht
      exact ⟨hperiph, htrace⟩

/-- Settles O57: with no other master the tick is the controller's action, and it is idle. -/
theorem idleControllerIssuesNothing : Obligations.IdleControllerIssuesNothing := by
  intro s t hb hbefore hafter ht
  obtain ⟨hc, _⟩ := step_parts ht
  rw [step_noOthers hc hbefore hafter] at ht
  obtain ⟨u, hact, hu⟩ := andThen_eq_next ht
  cases hu
  exact controllerAct_notBusy_window (s := hostArrivals s) (t := u) hb hact

/-! ## Sticky faults -/

/-- No command runs once a fault is recorded (10_state R24). -/
theorem FlagsOk.notBusy {ctl : Controller} (h : FlagsOk ctl) (hf : ctl.status.fatal = true ∨ ctl.status.fault = true) :
    ctl.status.busy = false := by
  rcases hf with hfatal | hfault
  · exact (h.fatal hfatal).2
  · exact h.fault hfault

/-- After a fault the controller without reset does nothing to its registers, or rejects a word (60_exceptions R248, R249). -/
theorem Invariant.controllerAct_faulted {s t : State} (h : Invariant s)
    (hf : s.ctl.status.fatal = true ∨ s.ctl.status.fault = true) (hr : (tickInput s).reset = false)
    (ht : Machine.controllerAct s = .next t) :
    t.ctl = s.ctl ∨ ∃ w, t.ctl = { s.ctl with cmd := w, status := recordReject (clearResult s.ctl.status) } := by
  have hb := h.flags.notBusy hf
  rcases controllerAct_notBusy hr hb with hidle | ⟨w, rest, check, cur, body, haccept⟩
  · rw [hidle] at ht
    cases ht
    exact .inl rfl
  · rw [haccept, accept_faulted (s := setPort rest s) h.config hb hf] at ht
    cases ht
    exact .inr ⟨w, rfl⟩

/-- Settles O54: other masters leave the controller, and the faulted controller can only reject. -/
theorem faultIsSticky : Obligations.FaultIsSticky := by
  intro s t hinv hf hreset ht
  obtain ⟨_, s1, s2, s3, hbefore, hact, hafter, rfl, hschedule, _⟩ := step_parts ht
  have hinv1 : Invariant s1 := (hinv.congr (t := hostArrivals s) rfl rfl rfl rfl rfl).otherAccesses hbefore
  have hctl1 : s1.ctl = s.ctl := openTick_ctl hbefore
  have hctl3 : (nextTick s3).ctl = s2.ctl := otherAccesses_ctl (t := s3) hafter
  have hr1 : (tickInput s1).reset = false := by simpa [tickInput, hschedule] using hreset
  rw [hctl3, ← hctl1]
  rcases hinv1.controllerAct_faulted (by rwa [hctl1]) hr1 hact with hsame | ⟨w, hreject⟩
  · rw [hsame]
    exact ⟨rfl, id⟩
  · rw [hreject]
    exact ⟨rfl, fun _ => rfl⟩

/-! ## The guards of the model are never reached -/

/-- A running command stands at a micro-operation: its Map, or one of its body (10_state R27, R30). -/
theorem RunningOk.exists_op {c : Config} {ctl : Controller} (h : RunningOk c ctl) :
    ∃ m, ctl.prog[ctl.uidx]? = some m ∧ (m = .map ∨ m ∈ bodyOf c ctl.cur) := by
  obtain ⟨pre, hpre, hprog, _, hinside, _⟩ := h
  have hm : ctl.prog[ctl.uidx]? = some ctl.prog[ctl.uidx] := List.getElem?_eq_getElem hinside
  refine ⟨_, hm, ?_⟩
  have hmem := List.mem_of_getElem? hm
  generalize ctl.prog[ctl.uidx] = m at hmem
  rw [hprog] at hmem
  rcases hpre with rfl | rfl
  · exact .inr hmem
  · exact List.mem_cons.mp hmem

/-- A busy tick runs its micro-operation: a memory operation's register is one of the mapped window's (41_decoder R172, R173). -/
theorem Invariant.microStep_next {s : State} (h : Invariant s) (hb : s.ctl.status.busy = true) :
    ∃ t, microStep s = .next t := by
  obtain ⟨m, hm, hmem⟩ := (h.running hb).exists_op
  have hreg : ∀ r, (m = .memRead r ∨ ∃ v q, m = .memWrite r v q) → Mapped s ∧ r ∈ allRegs s.cfg := by
    intro r hr
    have hmap : m ≠ .map := by
      rcases hr with rfl | ⟨v, q, rfl⟩ <;> exact nofun
    exact ⟨h.mapped_of_op hb hm hmap, body_regs (h.running hb).curOk (hmem.resolve_left hmap) hr⟩
  cases m with
  | map => exact ⟨_, microStep_map hm⟩
  | memRead r =>
    obtain ⟨hmapped, hr⟩ := hreg r (.inl rfl)
    exact ⟨_, microStep_read hm h.config hmapped hr⟩
  | memWrite r v q =>
    obtain ⟨hmapped, hr⟩ := hreg r (.inr ⟨v, q, rfl⟩)
    exact ⟨_, microStep_write hm h.config hmapped hr⟩
  | wait n => exact ⟨_, microStep_wait hm⟩

/-- The controller's action answers a next state (60_exceptions R243). -/
theorem Invariant.controllerAct_next {s : State} (h : Invariant s) : ∃ t, Machine.controllerAct s = .next t := by
  cases hr : (tickInput s).reset with
  | true => exact ⟨_, controllerAct_reset hr⟩
  | false =>
    cases hb : s.ctl.status.busy with
    | true =>
      rw [controllerAct_micro hr hb]
      exact h.microStep_next hb
    | false =>
      rcases controllerAct_notBusy hr hb with hidle | ⟨w, rest, check, cur, body, haccept⟩
      · exact ⟨s, hidle⟩
      · rw [haccept]
        exact accept_next (s := setPort rest s) h.config

/-- What goes on after a part of a step faults only where that part or what goes on from its next state does. -/
theorem andThen_ne_fault {o : Result} {f : State → Result} {e : Fault} (ho : o ≠ .fault e)
    (hf : ∀ s, o = .next s → f s ≠ .fault e) : andThen o f ≠ .fault e := by
  cases o with
  | next s => exact hf s rfl
  | fault e' => exact ho
  | refused e' => exact nofun

/-- Settles O52: other masters' accesses never fault, and between them the controller's action answers a next state. -/
theorem stepNeverFails : Obligations.StepNeverFails := by
  intro s hinv
  have hinv0 : Invariant (hostArrivals s) := hinv.congr rfl rfl rfl rfl rfl
  constructor
  · intro e
    rw [step, if_pos hinv.config]
    refine andThen_ne_fault (otherAccesses_noFault _ _ e) fun s1 hbefore => ?_
    obtain ⟨s2, hact⟩ := (hinv0.otherAccesses hbefore).controllerAct_next
    rw [hact, andThen_next, closeTick]
    exact andThen_ne_fault (otherAccesses_noFault _ _ e) fun _ _ => nofun
  · intro hbefore hafter
    obtain ⟨u, hact⟩ := hinv0.controllerAct_next
    rw [step_noOthers hinv.config hbefore hafter, hact]
    exact ⟨_, rfl⟩

end Sys2Proof.Machine

/-! # Proofs: how long a command is busy (70_reset R290)

A command's BUSY is said for its acceptance (`exec_busy`), for the ticks inside its body (`run_inside_body`) and for its last tick
(`run_to_end`); with one Map tick at most, there is no other. -/

namespace Sys2Proof.Machine

/-- The ticks of a command's body, micro-operation by micro-operation, are those of R290. -/
theorem ticksBefore_bodyOf (c : Config) (i : Instr) :
    ticksBefore (bodyOf c (curOf i)) (bodyOf c (curOf i)).length = commandTicks c i := by
  cases i with
  | pull p d => rw [bodyOf_pull, ticksBefore_bodyPull, commandTicks]
  | _ => rfl

/-- Every command but INIT has a body to run (40_window_init R150). -/
theorem commandTicks_pos_iff {c : Config} {i : Instr} : 0 < commandTicks c i ↔ i ≠ .init := by
  cases i <;> simp [commandTicks]

/-- At acceptance BUSY becomes 1 if the command has a tick to run, its Map or one of its body (10_state R31). -/
theorem exec_busy {i : Instr} {s : State} (h : Ready s) (hp : operandsPass s.cfg i) :
    ∃ t, exec i s = .next t ∧ (nextTick t).ctl.status.busy = decide (0 < mapTicks s + commandTicks s.cfg i) := by
  refine ⟨_, acceptanceBuildsProgram i s h hp, ?_⟩
  cases hm : s.ctl.status.mapped <;> simp [mapTicks, hm, commandTicks_pos_iff]

/-- A GET whose pin is in range completes with its one read, whatever the window holds (42_pin_ops R196). -/
theorem get_completes {s : State} {p : Nat} (h : Ready s) (hm : CanMap s) (hp : p < s.cfg.npins)
    (hu : Undisturbed (mapTicks s + 2) s) :
    ∃ t u, exec (.get p) s = .next t ∧ Runs (mapTicks s + 1) (nextTick t) u ∧ u.ctl.status.busy = false := by
  have hbody : bodyOf s.cfg (curOf (.get p)) = [.memRead (.lev (p / 32))] := rfl
  obtain ⟨t, v, hexec, hmap, hv, hquiet⟩ := accept_to_body (i := .get p) (n := 1) h hm hp (by simp [hbody]) hu
  rw [hbody] at hv
  have hprog := prog_getElem? s [.memRead (.lev (p / 32))] 0
  have hlen := prog_length s [.memRead (.lev (p / 32))]
  obtain ⟨v', _, _, hstep, _, hctl, _⟩ := tick_read (s := v) (r := .lev (p / 32)) (by rw [hv.cfg]; exact h.1) hv.mapped hquiet
    hv.busy (by rw [hv.ctl]; exact hprog) (by rw [hv.cfg]; exact groupReg_decodePin_mem hp .lev)
  refine ⟨t, _, hexec, hmap.trans (Runs.one hstep), ?_⟩
  rw [(nextTick_fields _).2.1, advance_last v' (by rw [hctl, hv.ctl]; exact hlen.symm)]
  rfl

/-- A command that has a tick to run completes in its last one (10_state R33). -/
theorem run_to_end {i : Instr} {s : State} (h : Ready s) (hm : CanMap s) (hp : operandsPass s.cfg i)
    (hpos : 0 < mapTicks s + commandTicks s.cfg i) (hu : Undisturbed (mapTicks s + commandTicks s.cfg i + 1) s) :
    ∃ t u, exec i s = .next t ∧ Runs (mapTicks s + commandTicks s.cfg i) (nextTick t) u ∧ u.ctl.status.busy = false := by
  cases i with
  | init =>
    obtain ⟨t, u, hexec, hruns, hctl, _⟩ := initMapsTheWindow s h hm (hu.mono (by omega))
    exact ⟨t, u, hexec, hruns, by rw [hctl, doneCtl]⟩
  | set p =>
    obtain ⟨t, u, hexec, hruns, hctl, _⟩ := setDrivesLatchHigh s p h hm hp hu
    exact ⟨t, u, hexec, hruns, by rw [hctl, doneCtl]⟩
  | clr p =>
    obtain ⟨t, u, hexec, hruns, hctl, _⟩ := clrDrivesLatchLow s p h hm hp hu
    exact ⟨t, u, hexec, hruns, by rw [hctl, doneCtl]⟩
  | get p => exact get_completes h hm hp hu
  | fsel p f =>
    obtain ⟨t, u, _, hexec, hruns, hctl, _⟩ := fselSelectsFunction s p f h hm hp hu
    exact ⟨t, u, hexec, hruns, by rw [hctl, doneCtl]⟩
  | pull p d =>
    obtain ⟨hpin, hd⟩ := hp
    simp only [commandTicks] at hu ⊢
    obtain ⟨t, u, hexec, hruns, hctl, _⟩ := pullWritesTheProtocol s p d h hm hpin hd (hu.mono (by omega))
    exact ⟨t, u, hexec, Nat.add_assoc _ _ _ ▸ hruns, by rw [hctl, doneCtl]⟩

/-- From the end of its Map to its last tick, a command is inside its body, with BUSY = 1. -/
theorem run_inside_body {i : Instr} {s : State} {n : Nat} (h : Ready s) (hm : CanMap s) (hp : operandsPass s.cfg i)
    (hn : n < commandTicks s.cfg i) (hu : Undisturbed (mapTicks s + n + 1) s) :
    ∃ t u, exec i s = .next t ∧ Runs (mapTicks s + n) (nextTick t) u ∧ u.ctl.status.busy = true := by
  have hbody : bodyOf s.cfg (curOf i) ≠ [] := mt bodyOf_eq_nil_iff.mp (commandTicks_pos_iff.mp (Nat.zero_lt_of_lt hn))
  obtain ⟨t, v, hexec, hmap, hv, hquiet⟩ := accept_to_body h hm hp hbody hu
  obtain ⟨u, _, hruns, hin⟩ := (hv.inBody rfl hbody).run h.1 hp hquiet (by rwa [ticksBefore_bodyOf, Nat.zero_add])
  exact ⟨t, u, hexec, hmap.trans hruns, hin.busy⟩

/-- Settles O31: BUSY at acceptance, at the command's last tick, and between them, where the Map tick, if any, is over. -/
theorem busyForTheTabulatedTicks : Obligations.BusyForTheTabulatedTicks := by
  intro i s k hready hm hp hk hu
  rcases Nat.eq_zero_or_pos k with rfl | hpos
  · obtain ⟨t, hexec, hbusy⟩ := exec_busy hready hp
    exact ⟨t, _, hexec, Runs.zero _, hbusy⟩
  rcases hk.eq_or_lt with rfl | hlt
  · obtain ⟨t, u, hexec, hruns, hbusy⟩ := run_to_end hready hm hp hpos hu
    exact ⟨t, u, hexec, hruns, by rw [hbusy, decide_eq_false (Nat.lt_irrefl _)]⟩
  · have hmap : mapTicks s ≤ k := by
      unfold mapTicks
      split <;> omega
    obtain ⟨n, rfl⟩ := Nat.exists_eq_add_of_le hmap
    obtain ⟨t, u, hexec, hruns, hbusy⟩ := run_inside_body (n := n) hready hm hp (by omega) (hu.mono (by omega))
    exact ⟨t, u, hexec, hruns, by rw [hbusy, decide_eq_true hlt]⟩

end Sys2Proof.Machine
